-- ==== Sys2Proof/Word.lean ====
section
/-! DEFINITION. The word types of the block: the host command word, its two fields. -/

namespace Sys2Proof

/-- A host command word, format CMD16 (R65). -/
abbrev Word := BitVec 16

/-- The operand field IMM12 = w[11:0] (R65). -/
abbrev Imm12 := BitVec 12

/-- The operation code field OP = w[15:12] (R65). -/
abbrev OpCode := BitVec 4

end Sys2Proof
end

