-- ==== Sys2Proof/Config.lean ====
section
/-! DEFINITION. What is fixed for one block (the parameters of R7 to R10), what the environment presents in one
tick (the input ports of R40), and the free values, uninterpreted constants with no body. -/

namespace Sys2Proof

/-- SYNC_EDGE (R8): the edge of sync_in that fires a pulse. -/
inductive Edge where
  | rising
  | falling
deriving DecidableEq, Repr

/-- One entry of BUTTON_LINES (R75): the drive line and the sense line of a button, among L0 to L5. -/
structure LinePair where
  drive : Fin 6
  sense : Fin 6
deriving DecidableEq, Repr

/-- SEG_LAYOUT (R8, R78): the bit of SEG_WORD of every segment-bus signal; `setOnes` gives segments a to g. -/
structure SegLayout where
  setOnes : Vector Nat 7
  face : Nat
  feet : Nat
  defrost : Nat
  bg : Nat
  defText : Nat
  recircOn : Nat
  freshAir : Nat
  ac : Nat
  unitC : Nat
  unitF : Nat
deriving DecidableEq, Repr

/-- SER_LAYOUT (R8, R79): the bit of SER_WORD of every serial-bus signal. -/
structure SerLayout where
  ambOnes : Vector Nat 7
  ambTens : Vector Nat 7
  ambSign : Nat
  ambHundred : Nat
  setTens : Vector Nat 7
  setSign : Nat
  setHundred : Nat
  gauge : Vector Nat 11
deriving DecidableEq, Repr

/-- One entry of MODE_MAP (R8, R80): which indicator signals a climate mode lights. The signals' bits are
those of SEG_LAYOUT. -/
structure ModeLit where
  face : Bool
  feet : Bool
  defrost : Bool
  bg : Bool
  defText : Bool
deriving DecidableEq, Repr

/-- The parameters of one block (R7, R8, R10). THERM_FN maps an averaged ADC code to an AMBIENT_TEMP value or
DOMAIN (`none`); DIE_FN maps a die-sensor code to tenths of a degree Celsius. -/
structure Params where
  tickNs : Nat
  nSettle : Nat
  nDebounce : Nat
  nHold : Nat
  nRepeat : Nat
  nClkLow : Nat
  nClkHigh : Nat
  nGap : Nat
  nSyncPulse : Nat
  segBytes : Nat
  segLayout : SegLayout
  serWidth : Nat
  serLayout : SerLayout
  modeMap : Vector ModeLit 5
  buttonLines : Vector LinePair 8
  adcBits : Nat
  thermCh : BitVec 4
  tempStageEn : Bool
  syncEdge : Edge
  thermFn : Nat → Option (BitVec 8)
  dieFn : BitVec 12 → Int

/-- The input ports of R40 in one tick. clk is the tick itself (R13). -/
structure Inputs where
  rst : Bool
  lineIn : BitVec 6
  adcValid : Bool
  adcCode : BitVec 16
  adcErr : Bool
  segDone : Bool
  segErr : Bool
  syncIn : Bool
  cmdValid : Bool
  cmdWord : Word
  dieCode : BitVec 12
deriving DecidableEq, Repr, Inhabited

/-- FREE VALUE (log 1): the input record the environment presents in tick n when no record is pending. The spec
leaves it to the environment (R15, R193). -/
opaque Config.freeInput : Nat → Inputs

/-- FREE VALUE (log 5): ADC_FULL is an OPEN parameter, an integer greater than 1 (R9); it is this value plus 2. -/
opaque Config.freeAdcFull : Nat

/-- FREE VALUE (log 5): THERM_FN on the codes strictly between 0 and ADC_FULL, an OPEN configuration function (R10,
R151). -/
opaque Config.freeTherm : Nat → Option (BitVec 8)

/-- FREE VALUE (log 6): the rounding difference of DIE_FN (0, 1, 2 stand for -1, 0, +1) on the codes where R151 (c)
admits one. -/
opaque Config.freeDieRounding : BitVec 12 → Fin 3

end Sys2Proof
end

