-- ==== Sys2Proof/Machine/DieSensor.lean ====
section
/-! DEFINITION. DIE_FN, the on-die temperature formula in tenths of a degree Celsius (R150, R151 (c)), in exact
integer arithmetic. -/

namespace Sys2Proof

/-- rnd_half_away (R12) of the ratio n / d, d > 0: the nearest integer, ties away from zero. -/
def rndHalfAwayRatio (n : Int) (d : Nat) : Int :=
  if 0 ≤ n then (2 * n + d) / (2 * d) else -((-2 * n + d) / (2 * d))

/-- The exact value of R150 in tenths, 10 * (27.0 - (c * 3.3 / 4096 - 0.706) / 0.001721), as a ratio over
`dieDenominator`: both sides of the formula multiplied by 1721 * 4096. Laws/Temperature.lean proves it equal to the
formula over the reals. -/
def dieNumerator (c : BitVec 12) : Int := 30821048320 - 33000000 * (c.toNat : Int)

/-- 1721 * 4096, the denominator of the exact value of R150. -/
def dieDenominator : Nat := 7049216

/-- The reference DIE_FN of R150. -/
def dieReference (c : BitVec 12) : Int := rndHalfAwayRatio (dieNumerator c) dieDenominator

/-- The exact value lies less than 0.01 from a half-integer, the only place where R151 (c) admits a result other
than the reference: with r the remainder, |r / d - 1/2| < 1/100. -/
def dieNearTie (c : BitVec 12) : Bool :=
  let r := (dieNumerator c % (dieDenominator : Int)).toNat
  decide (50 * (2 * r - dieDenominator) < dieDenominator) && decide (50 * (dieDenominator - 2 * r) < dieDenominator)

/-- DIE_FN of the machine (R151 (c), log 6): the reference, and a free difference of at most one where the exact
value is less than 0.01 from a half-integer. Every conforming DIE_FN has this form. -/
def Config.dieFn (c : BitVec 12) : Int :=
  if dieNearTie c then dieReference c + (((Config.freeDieRounding c).val : Int) - 1) else dieReference c

end Sys2Proof
end

