-- ==== Sys2Proof/Machine/Parameters.lean ====
section
/-! DEFINITION. The default parameters of R7 and R8, the layouts of R75 and R78 to R80, the parameter set of the
machine, and the constraints a configuration must meet. -/

namespace Sys2Proof

/-- R78. -/
def defaultSegLayout : SegLayout where
  setOnes := #v[0, 1, 2, 3, 4, 5, 6]
  face := 8
  feet := 9
  defrost := 10
  bg := 11
  defText := 12
  recircOn := 13
  freshAir := 14
  ac := 15
  unitC := 16
  unitF := 17

/-- R79. -/
def defaultSerLayout : SerLayout where
  ambOnes := #v[0, 1, 2, 3, 4, 5, 6]
  ambTens := #v[7, 8, 9, 10, 11, 12, 13]
  ambSign := 14
  ambHundred := 15
  setTens := #v[16, 17, 18, 19, 20, 21, 22]
  setSign := 23
  setHundred := 24
  gauge := #v[25, 26, 27, 28, 29, 30, 31, 32, 33, 34, 35]

/-- R80: Face, Feet, FaceFeet, FeetDef, Defrost, with BG in every mode and DEF_TEXT in FeetDef only. -/
def defaultModeMap : Vector ModeLit 5 := #v[
  { face := true, feet := false, defrost := false, bg := true, defText := false },
  { face := false, feet := true, defrost := false, bg := true, defText := false },
  { face := true, feet := true, defrost := false, bg := true, defText := false },
  { face := false, feet := true, defrost := true, bg := true, defText := true },
  { face := false, feet := false, defrost := true, bg := true, defText := false }]

/-- R75: drive lines L0 to L2 by sense lines L3 to L5, in button code order. -/
def defaultButtonLines : Vector LinePair 8 := #v[
  { drive := 0, sense := 3 }, { drive := 0, sense := 4 }, { drive := 0, sense := 5 },
  { drive := 1, sense := 3 }, { drive := 1, sense := 4 }, { drive := 1, sense := 5 },
  { drive := 2, sense := 3 }, { drive := 2, sense := 4 }]

/-- The defaults of R7 and R8 with the two configuration functions of R10 supplied. -/
def Params.standard (thermFn : Nat → Option (BitVec 8)) (dieFn : BitVec 12 → Int) : Params where
  tickNs := 1000
  nSettle := 10
  nDebounce := 10000
  nHold := 50000
  nRepeat := 50000
  nClkLow := 8
  nClkHigh := 2
  nGap := 1000
  nSyncPulse := 10
  segBytes := 3
  segLayout := defaultSegLayout
  serWidth := 40
  serLayout := defaultSerLayout
  modeMap := defaultModeMap
  buttonLines := defaultButtonLines
  adcBits := 12
  thermCh := 0
  tempStageEn := true
  syncEdge := .rising
  thermFn := thermFn
  dieFn := dieFn

/-- ADC_FULL of the machine: an OPEN integer greater than 1 (R9). -/
def Config.adcFull : Nat := Config.freeAdcFull + 2

/-- THERM_FN of the machine (R149, log 5): DOMAIN at code 0 and from ADC_FULL on, a free result elsewhere. -/
def Config.thermFn (c : Nat) : Option (BitVec 8) :=
  if c = 0 ∨ Config.adcFull ≤ c then none else Config.freeTherm c

/-- The parameter set `step` runs with (log 4): every default, and the two OPEN functions. -/
def Params.machine : Params := Params.standard Config.thermFn Config.dieFn

/-- The bits of every segment-word signal. -/
def SegLayout.positions (l : SegLayout) : List Nat :=
  l.setOnes.toList ++ [l.face, l.feet, l.defrost, l.bg, l.defText, l.recircOn, l.freshAir, l.ac, l.unitC, l.unitF]

/-- The bits of every serial-word signal. -/
def SerLayout.positions (l : SerLayout) : List Nat :=
  l.ambOnes.toList ++ l.ambTens.toList ++ [l.ambSign, l.ambHundred] ++ l.setTens.toList ++ [l.setSign, l.setHundred] ++
    l.gauge.toList

/-- The constraints R7 sets: every value at least 1. -/
abbrev Params.TimesPositive (p : Params) : Prop :=
  1 ≤ p.tickNs ∧ 1 ≤ p.nSettle ∧ 1 ≤ p.nDebounce ∧ 1 ≤ p.nHold ∧ 1 ≤ p.nRepeat ∧ 1 ≤ p.nClkLow ∧ 1 ≤ p.nClkHigh ∧
    1 ≤ p.nGap ∧ 1 ≤ p.nSyncPulse

/-- The other constraints of R7 and R238: N_HOLD > N_DEBOUNCE, N_DEBOUNCE over 5 ms, and the 150 ms press repeats. -/
abbrev Params.TimesOrdered (p : Params) : Prop :=
  p.nDebounce < p.nHold ∧ 5000000 < p.nDebounce * p.tickNs ∧
    (p.nSettle + p.nDebounce + p.nHold + p.nRepeat + 4) * p.tickNs < 150000000

/-- R53 and R139: SEG_BYTES is 3 or 4, every signal has a bit of its own inside the bytes that are sent. -/
abbrev Params.SegLegal (p : Params) : Prop :=
  (p.segBytes = 3 ∨ p.segBytes = 4) ∧ p.segLayout.positions.Nodup ∧ ∀ k ∈ p.segLayout.positions, k < 8 * p.segBytes

/-- R139: every serial signal has a bit of its own inside the word. -/
abbrev Params.SerLegal (p : Params) : Prop :=
  p.serLayout.positions.Nodup ∧ ∀ k ∈ p.serLayout.positions, k < p.serWidth

/-- R75: a button's two lines differ, and distinct buttons have distinct pairs. -/
abbrev Params.LinesLegal (p : Params) : Prop :=
  (∀ e ∈ p.buttonLines.toList, e.drive ≠ e.sense) ∧ p.buttonLines.toList.Nodup

/-- The constraints every instantiation must meet; adc_code is 16 bits wide (R40), so ADC_BITS is 1 to 16 (log 10). -/
abbrev Params.Legal (p : Params) : Prop :=
  p.TimesPositive ∧ p.TimesOrdered ∧ p.SegLegal ∧ p.SerLegal ∧ p.LinesLegal ∧ (1 ≤ p.adcBits ∧ p.adcBits ≤ 16)

end Sys2Proof
end

