-- ==== Sys2Proof/Machine/State.lean ====
section
/-! DEFINITION. The state of the block (R20 to R38), the reasons a step can stop, and the reset state (R44). -/

namespace Sys2Proof.Machine

/-- The phases of agent MAIN (R30). -/
inductive Phase where
  | idle
  | tempSample
  | tempConvert
  | scanDrive
  | wait
  | scanSample
  | scanConfirm
  | scanHoldchk
  | scanRepchk
  | scanRestore
  | encode
  | segTx
  | serLo
  | serHi
  | fatal
deriving DecidableEq, Repr

/-- WNEXT, the successor of a WAIT (R31). -/
inductive WaitNext where
  | scanSample
  | scanConfirm
  | scanHoldchk
  | scanRepchk
deriving DecidableEq, Repr

/-- The phase WNEXT names. -/
def WaitNext.phase : WaitNext → Phase
  | .scanSample => .scanSample
  | .scanConfirm => .scanConfirm
  | .scanHoldchk => .scanHoldchk
  | .scanRepchk => .scanRepchk

/-- RET, where a display refresh returns (R33): RET_IDLE or RET_REPEAT. -/
inductive Ret where
  | idle
  | rep
deriving DecidableEq, Repr

/-- FAULT_CAUSE (R37, R201): codes 0, 1, 2, 3 in this order. -/
inductive FaultCause where
  | none
  | adcFail
  | segWriteFail
  | thermDomain
deriving DecidableEq, Repr

/-- SYNC_PHASE (R38). -/
inductive SyncPhase where
  | sIdle
  | sPulse
deriving DecidableEq, Repr

/-- The ClimateState register set (R20 to R27). SET_TEMP and AMBIENT_TEMP are two's complement. -/
structure ClimateState where
  mode : BitVec 3
  acOn : Bool
  recircOn : Bool
  fanLevel : BitVec 8
  setTemp : BitVec 8
  ambientTemp : BitVec 8
  displayUnit : Bool
deriving DecidableEq, Repr

/-- The registers of agent SYNC (R38). -/
structure SyncRegs where
  phase : SyncPhase
  timer : Nat
  prev : Bool
deriving DecidableEq, Repr

/-- The state: the block's registers, and what the environment will present. The registers whose width depends on
a parameter (SER_WORD, TIMER, ACC, BITK, SYNC_TIMER) are natural numbers below the bound their width gives (log 7);
SER_WORD bit k is `serWord.testBit k`. `pending` and `tickNo` are the model's own (log 1): the input records of the
coming ticks, and the index of the free record drawn when none is pending. -/
structure State where
  climate : ClimateState
  lineMode : BitVec 6
  segWord : BitVec 32
  serWord : Nat
  phase : Phase
  timer : Nat
  wnext : WaitNext
  btn : BitVec 3
  ret : Ret
  cnt : BitVec 8
  acc : Nat
  bitk : Nat
  cmdStatus : Bool
  faultCause : FaultCause
  sync : SyncRegs
  pending : List Inputs
  tickNo : Nat
deriving DecidableEq, Repr

/-- The ways a step can stop with a fault: none. The block's fatal stop is a latched phase (R203, R204), which the
model enters as a next state, and every phase rule is total (log 9). -/
inductive Fault where
deriving DecidableEq, Repr

/-- The ways a step can refuse. -/
inductive Refusal where
  /-- Raised by an arm of exec for an instruction that has no meaning yet; no arm raises it now. Safe: the run stops
  where the hardware goes on. -/
  | notModelled (mnemonic : String)
deriving DecidableEq, Repr

/-- What one tick, one phase or one command answers. -/
abbrev Result := Host.Outcome State Fault Refusal

/-- The ClimateState registers after reset (R44). -/
def ClimateState.reset : ClimateState where
  mode := 4
  acOn := false
  recircOn := false
  fanLevel := 0
  setTemp := 60
  ambientTemp := 0
  displayUnit := false

/-- The SYNC registers after reset (R44): SYNC_PREV is 1 if SYNC_EDGE = RISING, else 0. -/
def SyncRegs.resetOf (p : Params) : SyncRegs where
  phase := .sIdle
  timer := 0
  prev := p.syncEdge == .rising

/-- RESET_STATE of a block with these parameters (R44); the model's own two fields are empty (log 1). -/
def State.resetOf (p : Params) : State where
  climate := ClimateState.reset
  lineMode := 0
  segWord := 0
  serWord := 0
  phase := .idle
  timer := p.nGap
  wnext := .scanSample
  btn := 0
  ret := .idle
  cnt := 0
  acc := 0
  bitk := 0
  cmdStatus := false
  faultCause := .none
  sync := SyncRegs.resetOf p
  pending := []
  tickNo := 0

/-- The machine right after reset (R44, R220). -/
def State.reset : State := State.resetOf Params.machine

/-- The input ports in the current tick: the first pending record, or a free one when none is pending (log 1). -/
def State.inputNow (s : State) : Inputs :=
  match s.pending with
  | [] => Config.freeInput s.tickNo
  | i :: _ => i

end Sys2Proof.Machine
end

