-- ==== Sys2Proof/Machine/Ops.lean ====
section
/-! DEFINITION. The shared operations on the registers: the pseudocode primitives of R14, the ClimateState
setters, the matrix lines, the frame registers, entering FATAL, and reset. The block has no addressed memory
(R47). -/

namespace Sys2Proof.Machine

/-- Go on with the next state, or stop where the first part stopped. -/
def Result.andThen (r : Result) (f : State → Result) : Result :=
  match r with
  | .next s => f s
  | .fault e => .fault e
  | .refused e => .refused e

/-- `goto P` (R14). -/
def State.goto (s : State) (ph : Phase) : State := { s with phase := ph }

/-- `TIMER <- n`. -/
def State.loadTimer (s : State) (n : Nat) : State := { s with timer := n }

/-- `wait(n, P)` (R101). -/
def State.startWait (s : State) (n : Nat) (next : WaitNext) : State :=
  { s with phase := .wait, timer := n, wnext := next }

/-- `MODE <- m`. -/
def State.writeMode (s : State) (m : BitVec 3) : State := { s with climate := { s.climate with mode := m } }

/-- `AC_ON <- b`. -/
def State.writeAc (s : State) (b : Bool) : State := { s with climate := { s.climate with acOn := b } }

/-- `RECIRC_ON <- b`. -/
def State.writeRecirc (s : State) (b : Bool) : State := { s with climate := { s.climate with recircOn := b } }

/-- `FAN_LEVEL <- v`. -/
def State.writeFan (s : State) (v : BitVec 8) : State := { s with climate := { s.climate with fanLevel := v } }

/-- `SET_TEMP <- v`. -/
def State.writeSetTemp (s : State) (v : BitVec 8) : State := { s with climate := { s.climate with setTemp := v } }

/-- `AMBIENT_TEMP <- t`, the write SETAMB and the temperature stage share (R93, R143). -/
def State.writeAmbient (s : State) (t : BitVec 8) : State :=
  { s with climate := { s.climate with ambientTemp := t } }

/-- `DISPLAY_UNIT <- u`. -/
def State.writeUnit (s : State) (u : Bool) : State := { s with climate := { s.climate with displayUnit := u } }

/-- The LINE_MODE value with only line i configured as output, driven low. -/
def lineBit (i : Fin 6) : BitVec 6 := 1#6 <<< i.val

/-- `LINE_MODE[i] <- 1` (R102): line i is driven low. -/
def State.driveLine (s : State) (i : Fin 6) : State := { s with lineMode := s.lineMode ||| lineBit i }

/-- `LINE_MODE[i] <- 0` (R110): line i is input-with-pull-up again. -/
def State.releaseLine (s : State) (i : Fin 6) : State := { s with lineMode := s.lineMode &&& ~~~(lineBit i) }

/-- `in(line_in)[i] == 0` (R104): the line reads low, which means pressed. -/
def readsLow (inp : Inputs) (i : Fin 6) : Bool := !(inp.lineIn.getLsbD i.val)

/-- `BTN <- b`. -/
def State.writeBtn (s : State) (b : BitVec 3) : State := { s with btn := b }

/-- `RET <- r`. -/
def State.writeRet (s : State) (r : Ret) : State := { s with ret := r }

/-- `SEG_WORD <- seg; SER_WORD <- ser`, written together (R58). -/
def State.latchFrame (s : State) (seg : BitVec 32) (ser : Nat) : State := { s with segWord := seg, serWord := ser }

/-- `BITK <- k`. -/
def State.writeBitk (s : State) (k : Nat) : State := { s with bitk := k }

/-- `CNT <- c; ACC <- a`. -/
def State.writeSum (s : State) (c : BitVec 8) (a : Nat) : State := { s with cnt := c, acc := a }

/-- `raise FATAL(cause)` (R203): the one way into the fatal stop. FAULT_CAUSE and PHASE are written, and no other
register of MAIN. -/
def State.raiseFatal (s : State) (cause : FaultCause) : State := { s with phase := .fatal, faultCause := cause }

/-- Reset, the one way out of the fatal stop (R205, R220): every register takes its reset value; the input records
still to come are not registers and stay. -/
def State.resetRegs (s : State) (p : Params) : State :=
  { State.resetOf p with pending := s.pending, tickNo := s.tickNo }

/-- `SYNC_regs <- r` (R192). -/
def State.writeSync (s : State) (r : SyncRegs) : State := { s with sync := r }

/-- The current tick is over: its input record is used up (log 1). -/
def State.nextTick (s : State) : State := { s with pending := s.pending.tail, tickNo := s.tickNo + 1 }

end Sys2Proof.Machine
end

