-- ==== Sys2Proof/Machine/Bus.lean ====
section
/-! DEFINITION. The segment-bus transaction, the serial bit-banger, the return from a display refresh, and agent
SYNC (R162 to R168, R172 to R176, R184). -/

namespace Sys2Proof.Machine

/-- SEG_TX (R163): seg_err is checked first (R164). -/
def stepSegTx (p : Params) (inp : Inputs) (s : State) : State :=
  if inp.segErr then s.raiseFatal .segWriteFail
  else if inp.segDone then ((s.writeBitk (p.serWidth - 1)).loadTimer p.nClkLow).goto .serLo
  else s

/-- SER_LO (R166). -/
def stepSerLo (p : Params) (s : State) : State :=
  if 1 < s.timer then s.loadTimer (s.timer - 1) else (s.loadTimer p.nClkHigh).goto .serHi

/-- `return_from_refresh(RET)` (R184): RET, BTN and LINE_MODE are unchanged. -/
def returnFromRefresh (p : Params) (s : State) : State :=
  match s.ret with
  | .idle => (s.loadTimer p.nGap).goto .idle
  | .rep => s.startWait p.nRepeat .scanRepchk

/-- SER_HI (R167). -/
def stepSerHi (p : Params) (s : State) : State :=
  if 1 < s.timer then s.loadTimer (s.timer - 1)
  else if 0 < s.bitk then ((s.writeBitk (s.bitk - 1)).loadTimer p.nClkLow).goto .serLo
  else returnFromRefresh p s

/-- An edge of the kind SYNC_EDGE between the previous level and this one (R172). -/
def syncEdgeSeen (p : Params) (prev now : Bool) : Bool :=
  match p.syncEdge with
  | .rising => !prev && now
  | .falling => prev && !now

/-- The SYNC step (R172): SYNC_PREV follows sync_in in both phases; an edge is acted on in S_IDLE only (R174). -/
def syncStep (p : Params) (inp : Inputs) (r : SyncRegs) : SyncRegs :=
  match r.phase with
  | .sIdle =>
    if syncEdgeSeen p r.prev inp.syncIn then { phase := .sPulse, timer := p.nSyncPulse, prev := inp.syncIn }
    else { r with prev := inp.syncIn }
  | .sPulse =>
    if 1 < r.timer then { r with timer := r.timer - 1, prev := inp.syncIn }
    else { r with phase := .sIdle, prev := inp.syncIn }

end Sys2Proof.Machine
end

