-- ==== Sys2Proof/Machine/Display.lean ====
section
/-! DEFINITION. The display encoder: pure functions from one ClimateState snapshot to the two frame words (R120 to
R134), with the seven-segment table (R81). -/

namespace Sys2Proof.Machine

/-- SEG7, the sixteen-entry table (R81): bit s is segment s, a to g. -/
def seg7 (n : BitVec 4) : BitVec 7 :=
  match n.toNat with
  | 0 => 0x3F
  | 1 => 0x06
  | 2 => 0x5B
  | 3 => 0x4F
  | 4 => 0x66
  | 5 => 0x6D
  | 6 => 0x7D
  | 7 => 0x07
  | 8 => 0x7F
  | 9 => 0x6F
  | 10 => 0x77
  | 11 => 0x7C
  | 12 => 0x39
  | 13 => 0x5E
  | 14 => 0x79
  | _ => 0x71

/-- bit(X) = 1 << POS(X) when the signal is lit, else 0 (R132). -/
def bitIf (lit : Bool) (pos : Nat) : Nat := if lit then 1 <<< pos else 0

/-- The OR of 1 << k over the positions whose flag is set. -/
def orBits : List (Nat × Bool) → Nat
  | [] => 0
  | e :: rest => bitIf e.2 e.1 ||| orBits rest

/-- The seven segment flags of a pattern, segment a first. -/
def segments (pat : BitVec 7) : List Bool := (List.range 7).map pat.getLsbD

/-- `place(P, p)` of R82, with the seven positions of digit position P. -/
def place (pos : Vector Nat 7) (pat : BitVec 7) : Nat := orBits (pos.toList.zip (segments pat))

/-- `digit(P, n)` of R122. -/
def digit (pos : Vector Nat 7) (n : Nat) : Nat := place pos (seg7 (BitVec.ofNat 4 n))

/-- What `decompose` returns (R123). -/
structure Digits where
  neg : Bool
  hund : Bool
  tens : Nat
  ones : Nat
deriving DecidableEq, Repr

/-- The magnitude with the hundred taken off: m - 100 when m >= 100 (R123). -/
def belowHundred (m : Nat) : Nat := if 100 ≤ m then m - 100 else m

/-- `decompose(v)` of R123, the magnitude in unbounded integers (R124). -/
def decompose (v : Int) : Digits where
  neg := decide (v < 0)
  hund := decide (100 ≤ v.natAbs)
  tens := belowHundred v.natAbs / 10
  ones := belowHundred v.natAbs % 10

/-- `gauge_level(s)` of R125; `none` is NONE. -/
def gaugeLevel (s : Int) : Option (Fin 11) :=
  if 60 ≤ s ∧ s ≤ 90 then some (Fin.ofNat 11 ((s - 60) * 10 / 30).toNat) else none

/-- `gauge_bits(s)` of R126: one position, or 0 for NONE. -/
def gaugeBits (l : SerLayout) (s : Int) : Nat :=
  match gaugeLevel s with
  | some k => 1 <<< l.gauge.get k
  | none => 0

/-- The code of port gauge_level (R84): the level, or 15 for NONE. -/
def gaugePort (s : Int) : BitVec 4 :=
  match gaugeLevel s with
  | some k => BitVec.ofNat 4 k.val
  | none => 15

/-- The MODE_MAP entry of a mode code; codes 5 to 7 have none (R127, R134). -/
def modeEntry (p : Params) (m : BitVec 3) : Option ModeLit := p.modeMap.toList[m.toNat]?

/-- The bits one MODE_MAP entry lights. -/
def litBits (l : SegLayout) (e : ModeLit) : Nat :=
  orBits [(l.face, e.face), (l.feet, e.feet), (l.defrost, e.defrost), (l.bg, e.bg), (l.defText, e.defText)]

/-- `mode_bits(m)` of R127: 0 for the codes 5 to 7. -/
def modeBits (p : Params) (m : BitVec 3) : Nat :=
  match modeEntry p m with
  | some e => litBits p.segLayout e
  | none => 0

/-- `recirc_bits(r)` of R128. -/
def recircBits (l : SegLayout) (r : Bool) : Nat := 1 <<< (if r then l.recircOn else l.freshAir)

/-- `ac_bits(a)` of R129. -/
def acBits (l : SegLayout) (a : Bool) : Nat := bitIf a l.ac

/-- `unit_bits(u)` of R130. -/
def unitBits (l : SegLayout) (u : Bool) : Nat := 1 <<< (if u then l.unitF else l.unitC)

/-- `seg_word(S)` of R131. -/
def segWordOf (p : Params) (c : ClimateState) : BitVec 32 :=
  BitVec.ofNat 32 (digit p.segLayout.setOnes (decompose c.setTemp.toInt).ones ||| modeBits p c.mode |||
    recircBits p.segLayout c.recircOn ||| acBits p.segLayout c.acOn ||| unitBits p.segLayout c.displayUnit)

/-- `ser_word(S)` of R132, SER_WIDTH bits. -/
def serWordOf (p : Params) (c : ClimateState) : Nat :=
  let l := p.serLayout
  let a := decompose c.ambientTemp.toInt
  let s := decompose c.setTemp.toInt
  (digit l.ambOnes a.ones ||| digit l.ambTens a.tens ||| bitIf a.neg l.ambSign ||| bitIf a.hund l.ambHundred |||
    digit l.setTens s.tens ||| bitIf s.neg l.setSign ||| bitIf s.hund l.setHundred |||
    gaugeBits l c.setTemp.toInt) % 2 ^ p.serWidth

/-- ENCODE (R133): both words from the ClimateState registers of this tick; RET is unchanged. -/
def stepEncode (p : Params) (s : State) : State :=
  (s.latchFrame (segWordOf p s.climate) (serWordOf p s.climate)).goto .segTx

end Sys2Proof.Machine
end

