-- ==== Sys2Proof/Syntax.lean ====
section
/-! DEFINITION. The ten host commands, one constructor per row of spec/opcode_table.json (R66, R68). -/

namespace Sys2Proof

/-- The ClimateState operations a host command names. An operand is the 12-bit field IMM12 as it stands in
the word; R67 says which operations read it unsigned (SETFAN, SETUNIT) and which signed (ADJSET, SETSET, SETAMB). -/
inductive Instr where
  /-- NOP, R86. -/
  | nop
  /-- CYCMODE, R87. -/
  | cycmode
  /-- TGLAC, R88. -/
  | tglac
  /-- TGLREC, R89. -/
  | tglrec
  /-- SETFAN v, R90. -/
  | setfan (v : Imm12)
  /-- ADJSET d, R91. -/
  | adjset (d : Imm12)
  /-- SETSET v, R92. -/
  | setset (v : Imm12)
  /-- SETAMB t, R93. -/
  | setamb (t : Imm12)
  /-- SETUNIT u, R94. -/
  | setunit (u : Imm12)
  /-- TGLUNIT, R95. -/
  | tglunit
deriving DecidableEq, Repr

end Sys2Proof
end

