-- ==== Sys2Proof/WellFormed.lean ====
section
/-! DEFINITION. The legal operand values of each command (the column "legal operand values" of R68). -/

namespace Sys2Proof

/-- The operand check of R68 and R69: SETFAN takes 0, 50 or 100, SETAMB takes -128 to 127, SETUNIT takes 0 or 1;
ADJSET and SETSET take every signed 12-bit value, and the other commands have no operand. -/
def Instr.wf : Instr → Bool
  | .nop => true
  | .cycmode => true
  | .tglac => true
  | .tglrec => true
  | .setfan v => v.toNat == 0 || v.toNat == 50 || v.toNat == 100
  | .adjset _ => true
  | .setset _ => true
  | .setamb t => decide (-128 ≤ t.toInt) && decide (t.toInt ≤ 127)
  | .setunit u => u.toNat == 0 || u.toNat == 1
  | .tglunit => true

/-- The command is legal (R69). -/
abbrev Instr.WellFormed (i : Instr) : Prop := i.wf = true

end Sys2Proof
end

