-- ==== Sys2Proof/Decode.lean ====
section
/-! DEFINITION. The decoder of host command words, total over all 65536 words, and after it the encoder. -/

namespace Sys2Proof

/-- Why a word is illegal, one name per clause of R69. -/
inductive Reject where
  /-- OP is one of 0xA to 0xF (R70). -/
  | reservedOpcode
  /-- OP is 0x0, 0x1, 0x2, 0x3 or 0x9 and w[11:0] is not 0. -/
  | unusedOperand
  /-- SETFAN with uimm outside 0, 50, 100. -/
  | fanValue
  /-- SETAMB with simm outside [-128, 127]. -/
  | ambientRange
  /-- SETUNIT with uimm outside 0, 1. -/
  | unitValue
deriving DecidableEq, Repr

/-- OP = w[15:12] (R65). -/
def opField (w : Word) : OpCode := w.extractLsb' 12 4

/-- IMM12 = w[11:0] (R65). -/
def immField (w : Word) : Imm12 := w.extractLsb' 0 12

/-- A command without an operand requires w[11:0] = 0 (R67). -/
def requireZero (imm : Imm12) (i : Instr) : Except Reject Instr :=
  if imm = 0 then .ok i else .error .unusedOperand

/-- A command with an operand requires a legal operand value (R69). -/
def requireLegal (i : Instr) (why : Reject) : Except Reject Instr :=
  if i.wf then .ok i else .error why

/-- The opcode map R68, read as R71 says: OP first, then IMM12 against the row. ADJSET and SETSET take every
operand. -/
def decodeFields (op : OpCode) (imm : Imm12) : Except Reject Instr :=
  match op.toNat with
  | 0 => requireZero imm .nop
  | 1 => requireZero imm .cycmode
  | 2 => requireZero imm .tglac
  | 3 => requireZero imm .tglrec
  | 4 => requireLegal (.setfan imm) .fanValue
  | 5 => .ok (.adjset imm)
  | 6 => .ok (.setset imm)
  | 7 => requireLegal (.setamb imm) .ambientRange
  | 8 => requireLegal (.setunit imm) .unitValue
  | 9 => requireZero imm .tglunit
  | _ => .error .reservedOpcode

/-- The decoder: total over all words; an illegal word is rejected by name (R69). -/
def decode (w : Word) : Except Reject Instr := decodeFields (opField w) (immField w)

/-- The word with these two fields (R65). -/
def wordOf (op : OpCode) (imm : Imm12) : Word := op ++ imm

/-- The word of a command, from the match column of R68. -/
def encode : Instr → Word
  | .nop => wordOf 0x0 0
  | .cycmode => wordOf 0x1 0
  | .tglac => wordOf 0x2 0
  | .tglrec => wordOf 0x3 0
  | .setfan v => wordOf 0x4 v
  | .adjset d => wordOf 0x5 d
  | .setset v => wordOf 0x6 v
  | .setamb t => wordOf 0x7 t
  | .setunit u => wordOf 0x8 u
  | .tglunit => wordOf 0x9 0

/-- A word whose low `nbits` bits are those of `w` and whose other bits are 0. Every command is one 16-bit
word (R65). -/
def tableWord (nbits w : Nat) : Word := BitVec.ofNat 16 (w % 2 ^ nbits)

/-- The instruction the decoder reads from a word of spec/opcode_table.json. -/
def decodeTableWord (nbits w : Nat) : Option Instr :=
  match decode (tableWord nbits w) with
  | .ok i => some i
  | .error _ => none

end Sys2Proof
end

