-- ==== Sys2Proof/Machine/Operands.lean ====
section
/-! DEFINITION. The readings of a command's operand (R67) and the exact integer arithmetic of the family (R99). -/

namespace Sys2Proof.Machine

/-- uimm = zext_12(w[11:0]), 0 to 4095 (R67). -/
def uimm (v : Imm12) : Nat := v.toNat

/-- simm = sext_12(w[11:0]), -2048 to 2047 (R67). -/
def simm (v : Imm12) : Int := v.toInt

/-- clamp(x, lo, hi) of R12. -/
def clamp (x lo hi : Int) : Int := if x < lo then lo else if hi < x then hi else x

/-- The register value of clamp(x, 60, 90): SET_MIN and SET_MAX of R6. -/
def clampedSetTemp (x : Int) : BitVec 8 := BitVec.ofInt 8 (clamp x 60 90)

/-- (MODE + 1) mod 5 (R77, R87). -/
def nextMode (m : BitVec 3) : BitVec 3 := BitVec.ofNat 3 ((m.toNat + 1) % 5)

end Sys2Proof.Machine
end

