-- ==== Sys2Proof/Machine/Flags.lean ====
section
/-! DEFINITION. CMD_STATUS, the block's only flag (R36): 0 after a legal host command, 1 after an illegal one. -/

namespace Sys2Proof.Machine

/-- `CMD_STATUS <- b`. -/
def State.writeStatus (s : State) (b : Bool) : State := { s with cmdStatus := b }

/-- A legal host command is done: CMD_STATUS <- 0 (R85). -/
def accepted (s : State) : Result := .next (s.writeStatus false)

/-- An illegal host command: CMD_STATUS <- 1, and no other register is written (R96). -/
def rejected (s : State) : Result := .next (s.writeStatus true)

end Sys2Proof.Machine
end

