-- ==== Sys2Proof/Machine/Climate.lean ====
section
/-! DEFINITION. The meanings of the ten host commands (R86 to R95), as performed with src = HOST (R85). An operand
the command does not allow makes the command illegal (R69, R96, log 3). -/

namespace Sys2Proof.Machine

/-- NOP (R86): no register write but CMD_STATUS. -/
def execNop (s : State) : Result := accepted s

/-- CYCMODE (R87): MODE <- (MODE + 1) mod 5. -/
def execCycmode (s : State) : Result := accepted (s.writeMode (nextMode s.climate.mode))

/-- TGLAC (R88): AC_ON <- 1 - AC_ON. -/
def execTglac (s : State) : Result := accepted (s.writeAc (!s.climate.acOn))

/-- TGLREC (R89): RECIRC_ON <- 1 - RECIRC_ON. -/
def execTglrec (s : State) : Result := accepted (s.writeRecirc (!s.climate.recircOn))

/-- SETFAN v (R90): FAN_LEVEL <- v, for v in 0, 50, 100. -/
def execSetfan (v : Imm12) (s : State) : Result :=
  if (Instr.setfan v).wf then accepted (s.writeFan (BitVec.ofNat 8 (uimm v))) else rejected s

/-- ADJSET d (R91): SET_TEMP <- clamp(SET_TEMP + d, 60, 90), the sum in unbounded integers. -/
def execAdjset (d : Imm12) (s : State) : Result :=
  accepted (s.writeSetTemp (clampedSetTemp (s.climate.setTemp.toInt + simm d)))

/-- SETSET v (R92): SET_TEMP <- clamp(v, 60, 90). -/
def execSetset (v : Imm12) (s : State) : Result := accepted (s.writeSetTemp (clampedSetTemp (simm v)))

/-- SETAMB t (R93): AMBIENT_TEMP <- t, unclamped, for t in [-128, 127]. -/
def execSetamb (t : Imm12) (s : State) : Result :=
  if (Instr.setamb t).wf then accepted (s.writeAmbient (BitVec.ofInt 8 (simm t))) else rejected s

/-- SETUNIT u (R94): DISPLAY_UNIT <- u, for u in 0, 1. -/
def execSetunit (u : Imm12) (s : State) : Result :=
  if (Instr.setunit u).wf then accepted (s.writeUnit (uimm u == 1)) else rejected s

/-- TGLUNIT (R95): DISPLAY_UNIT <- 1 - DISPLAY_UNIT. -/
def execTglunit (s : State) : Result := accepted (s.writeUnit (!s.climate.displayUnit))

end Sys2Proof.Machine
end

