-- ==== Sys2Proof/Machine/Dispatch.lean ====
section
/-! DEFINITION. exec: the case of R85, one arm per command. -/

namespace Sys2Proof.Machine

/-- `exec(w, HOST)` of R85 for a decoded command. -/
def exec (i : Instr) (s : State) : Host.Outcome State Fault Refusal :=
  match i with
  | .nop => Sys2Proof.Machine.execNop s
  | .cycmode => Sys2Proof.Machine.execCycmode s
  | .tglac => Sys2Proof.Machine.execTglac s
  | .tglrec => Sys2Proof.Machine.execTglrec s
  | .setfan v => Sys2Proof.Machine.execSetfan v s
  | .adjset d => Sys2Proof.Machine.execAdjset d s
  | .setset v => Sys2Proof.Machine.execSetset v s
  | .setamb t => Sys2Proof.Machine.execSetamb t s
  | .setunit u => Sys2Proof.Machine.execSetunit u s
  | .tglunit => Sys2Proof.Machine.execTglunit s

end Sys2Proof.Machine
end

