-- ==== Sys2Proof/Machine/Buttons.lean ====
section
/-! DEFINITION. Performing a command word for the host or for a button (R85), the button codes, the action table
and the two matrix lines of a button (R74 to R76), and the codes of the climate modes (R77). -/

namespace Sys2Proof.Machine

/-- The source of a command word (R85). -/
inductive Source where
  | host
  | button
deriving DecidableEq, Repr

/-- The same answer with CMD_STATUS as it was in `s`: a button action does not write CMD_STATUS (R36, R111). -/
def keepStatus (s : State) (r : Result) : Result := r.andThen fun t => .next (t.writeStatus s.cmdStatus)

/-- What an illegal word does: CMD_STATUS <- 1 from HOST, nothing from BUTTON (R85, R96). -/
def performIllegal (src : Source) (s : State) : Result :=
  match src with
  | .host => rejected s
  | .button => .next s

/-- What a legal command does: its meaning from HOST, its meaning without the CMD_STATUS write from BUTTON (R85,
R111, log 2). -/
def performLegal (src : Source) (i : Instr) (s : State) : Result :=
  match src with
  | .host => exec i s
  | .button => keepStatus s (exec i s)

/-- `exec(w, src)` of R85, over all words. -/
def perform (src : Source) (w : Word) (s : State) : Result :=
  match decode w with
  | .ok i => performLegal src i s
  | .error _ => performIllegal src s

/-- LogicalButton, in the order of R74. -/
inductive Button where
  | auto
  | demist
  | tempUp
  | off
  | fanLow
  | fanHigh
  | recirc
  | tempDown
deriving DecidableEq, Repr

/-- The code of a button (R74). -/
def Button.code : Button → BitVec 3
  | .auto => 0
  | .demist => 1
  | .tempUp => 2
  | .off => 3
  | .fanLow => 4
  | .fanHigh => 5
  | .recirc => 6
  | .tempDown => 7

/-- The button a value of BTN stands for (R74). -/
def buttonOf (b : BitVec 3) : Button :=
  match b.toNat with
  | 0 => .auto
  | 1 => .demist
  | 2 => .tempUp
  | 3 => .off
  | 4 => .fanLow
  | 5 => .fanHigh
  | 6 => .recirc
  | _ => .tempDown

/-- ACTION(b), the action table of R76. -/
def Button.action : Button → Word
  | .auto => 0x2000
  | .demist => 0x1000
  | .tempUp => 0x5001
  | .off => 0x4000
  | .fanLow => 0x4032
  | .fanHigh => 0x4064
  | .recirc => 0x3000
  | .tempDown => 0x5FFF

/-- `exec(ACTION(b), BUTTON)` (R111). -/
def applyAction (b : BitVec 3) (s : State) : Result := perform .button (buttonOf b).action s

/-- The BUTTON_LINES entry of a button (R75). -/
def linesOf (p : Params) (b : BitVec 3) : LinePair := p.buttonLines.get ⟨b.toNat, b.isLt⟩

/-- DRIVE(b) (R75). -/
def driveOf (p : Params) (b : BitVec 3) : Fin 6 := (linesOf p b).drive

/-- SENSE(b) (R75). -/
def senseOf (p : Params) (b : BitVec 3) : Fin 6 := (linesOf p b).sense

/-- ClimateMode, in the order of R77. -/
inductive ClimateMode where
  | face
  | feet
  | faceFeet
  | feetDef
  | defrost
deriving DecidableEq, Repr

/-- The MODE code of a climate mode (R77). -/
def ClimateMode.code : ClimateMode → BitVec 3
  | .face => 0
  | .feet => 1
  | .faceFeet => 2
  | .feetDef => 3
  | .defrost => 4

/-- The source's cycle Face, Feet, FaceFeet, FeetDef, Defrost, Face (R77). -/
def ClimateMode.succ : ClimateMode → ClimateMode
  | .face => .feet
  | .feet => .faceFeet
  | .faceFeet => .feetDef
  | .feetDef => .defrost
  | .defrost => .face

end Sys2Proof.Machine
end

