-- ==== Sys2Proof/Machine/Scanner.lean ====
section
/-! DEFINITION. The button-matrix scanner and the auto-repeat loop: the timed wait and the six scan phases (R100 to
R111). -/

namespace Sys2Proof.Machine

/-- WAIT (R101). -/
def stepWait (s : State) : State :=
  if 1 < s.timer then s.loadTimer (s.timer - 1) else s.goto s.wnext.phase

/-- The sense line of button BTN reads low in this tick (R104). -/
def pressed (p : Params) (inp : Inputs) (s : State) : Bool := readsLow inp (senseOf p s.btn)

/-- SCAN_DRIVE (R102). -/
def stepScanDrive (p : Params) (s : State) : State :=
  (s.driveLine (driveOf p s.btn)).startWait p.nSettle .scanSample

/-- SCAN_SAMPLE (R104). -/
def stepScanSample (p : Params) (inp : Inputs) (s : State) : State :=
  if pressed p inp s then s.startWait p.nDebounce .scanConfirm else s.goto .scanRestore

/-- SCAN_CONFIRM (R106): the action is applied whatever the confirm sample reads, and BTN is not touched by it. -/
def stepScanConfirm (p : Params) (inp : Inputs) (s : State) : Result :=
  (applyAction s.btn s).andThen fun t =>
    .next (if pressed p inp s then t.startWait p.nHold .scanHoldchk else t.goto .scanRestore)

/-- SCAN_HOLDCHK (R107): no action is performed. -/
def stepScanHoldchk (p : Params) (inp : Inputs) (s : State) : State :=
  if pressed p inp s then s.startWait p.nRepeat .scanRepchk else s.goto .scanRestore

/-- SCAN_REPCHK (R108): one re-application and a display refresh, or the end of the loop. -/
def stepScanRepchk (p : Params) (inp : Inputs) (s : State) : Result :=
  if pressed p inp s then
    (applyAction s.btn s).andThen fun t => .next ((t.writeRet .rep).goto .encode)
  else .next (s.goto .scanRestore)

/-- SCAN_RESTORE (R110): the drive line is released; the next button, or the end-of-pass refresh. -/
def stepScanRestore (p : Params) (s : State) : State :=
  let t := s.releaseLine (driveOf p s.btn)
  if s.btn.toNat < 7 then (t.writeBtn (s.btn + 1)).goto .scanDrive else (t.writeRet .idle).goto .encode

end Sys2Proof.Machine
end

