-- ==== Sys2Proof/Machine/Temperature.lean ====
section
/-! DEFINITION. The temperature stage of agent MAIN: TEMP_SAMPLE, the average, TEMP_CONVERT (R140 to R143, R154). -/

namespace Sys2Proof.Machine

/-- AVG_N of R6. -/
def avgN : Nat := 128

/-- `in(adc_code)[ADC_BITS-1:0]`: the higher bits are ignored (R154). -/
def adcReading (p : Params) (inp : Inputs) : Nat := inp.adcCode.toNat % 2 ^ p.adcBits

/-- `average(ACC)` of R142: round half up, saturating at 0xFFFF. -/
def average (acc : Nat) : Nat := min ((acc + 64) / avgN) 0xFFFF

/-- A reading is accumulated; the 128th ends the phase (R141). CNT is the value at the start of the tick (R192). -/
def acceptReading (p : Params) (inp : Inputs) (s : State) : State :=
  (s.writeSum (s.cnt + 1) (s.acc + adcReading p inp)).goto (if s.cnt.toNat + 1 = avgN then .tempConvert else s.phase)

/-- TEMP_SAMPLE (R141): adc_err is checked first (R161). -/
def stepTempSample (p : Params) (inp : Inputs) (s : State) : State :=
  if inp.adcErr then s.raiseFatal .adcFail
  else if inp.adcValid then acceptReading p inp s
  else s

/-- TEMP_CONVERT (R143): DOMAIN is fatal; a value is written to AMBIENT_TEMP without touching CMD_STATUS. -/
def stepTempConvert (p : Params) (s : State) : State :=
  match p.thermFn (average s.acc) with
  | none => s.raiseFatal .thermDomain
  | some t => ((s.writeAmbient t).writeBtn 0).goto .scanDrive

end Sys2Proof.Machine
end

