-- ==== Sys2Proof/Machine/Cycle.lean ====
section
/-! DEFINITION. The update cycle: IDLE with the host command port (R181, R182), one phase of MAIN per tick (R191), and
the step of the whole block in one tick (R192). -/

namespace Sys2Proof.Machine

/-- The host command of an IDLE tick, if one is offered (R182). -/
def acceptCommand (inp : Inputs) (s : State) : Result :=
  if inp.cmdValid then perform .host inp.cmdWord s else .next s

/-- The sequencing of an IDLE tick (R181): count, or start the temperature stage or the scan pass. -/
def idleAdvance (p : Params) (s : State) : State :=
  if 1 < s.timer then s.loadTimer (s.timer - 1)
  else if p.tempStageEn then (s.writeSum 0 0).goto .tempSample
  else (s.writeBtn 0).goto .scanDrive

/-- IDLE (R181): the command and the sequencing both take effect. -/
def stepIdle (p : Params) (inp : Inputs) (s : State) : Result :=
  (acceptCommand inp s).andThen fun t => .next (idleAdvance p t)

/-- MAIN_step of R192: the rule of the current phase. -/
def mainStep (p : Params) (inp : Inputs) (s : State) : Result :=
  match s.phase with
  | .idle => stepIdle p inp s
  | .tempSample => .next (stepTempSample p inp s)
  | .tempConvert => .next (stepTempConvert p s)
  | .scanDrive => .next (stepScanDrive p s)
  | .wait => .next (stepWait s)
  | .scanSample => .next (stepScanSample p inp s)
  | .scanConfirm => stepScanConfirm p inp s
  | .scanHoldchk => .next (stepScanHoldchk p inp s)
  | .scanRepchk => stepScanRepchk p inp s
  | .scanRestore => .next (stepScanRestore p s)
  | .encode => .next (stepEncode p s)
  | .segTx => .next (stepSegTx p inp s)
  | .serLo => .next (stepSerLo p s)
  | .serHi => .next (stepSerHi p s)
  | .fatal => .next s

/-- `step(state, inputs)` of R192: reset first, then nothing in FATAL, else MAIN and SYNC, both from the registers at
the start of the tick. -/
def tick (p : Params) (inp : Inputs) (s : State) : Result :=
  if inp.rst then .next (s.resetRegs p)
  else if s.phase = .fatal then .next s
  else (mainStep p inp s).andThen fun t => .next (t.writeSync (syncStep p inp s.sync))

end Sys2Proof.Machine
end

