-- ==== Sys2Proof/Machine/Step.lean ====
section
/-! DEFINITION. One step of the machine: the tick of R192 with the machine's parameters and the input record of this
tick. -/

namespace Sys2Proof.Machine

/-- One tick of the block. The inputs are the first pending record, or a free one (log 1). -/
def step (s : State) : Host.Outcome State Fault Refusal :=
  (tick Params.machine s.inputNow s).andThen fun t => .next t.nextTick

/-- An input record with nothing offered: lines pulled up, no answers, sync_in at a given level. -/
def quietInputs (syncLevel : Bool) : Inputs where
  rst := false
  lineIn := BitVec.allOnes 6
  adcValid := false
  adcCode := 0
  adcErr := false
  segDone := false
  segErr := false
  syncIn := syncLevel
  cmdValid := false
  cmdWord := 0
  dieCode := 0

/-- The record with a host command offered in it (R182). -/
def offerWord (w : Word) (i : Inputs) : Inputs := { i with rst := false, cmdValid := true, cmdWord := w }

/-- The host offers this word in the next tick, and MAIN is in IDLE, where a word is accepted (R182, log 8). The
record of the next tick is changed in rst, cmd_valid and cmd_word only; when none is pending it is a quiet one. -/
def State.withFetchWord (s : State) (nbits w : Nat) : State :=
  { s with
    phase := .idle
    pending := offerWord (tableWord nbits w) (s.pending.headD (quietInputs s.sync.prev)) :: s.pending.tail }

end Sys2Proof.Machine
end

