-- ==== Sys2Proof/Machine/Assembler.lean ====
section
/-! DEFINITION. The assembler of R72 and the pseudo-instructions of R73: a line of text to the words it stands for.
Text is a list of characters (log 11). -/

namespace Sys2Proof.Machine

/-- The command whose operand v is legal, or nothing: the assembler refuses an operand outside R68. -/
def operandIn (legal : Bool) (i : Imm12 → Instr) (v : Int) : Option Instr :=
  if legal then some (i (BitVec.ofInt 12 v)) else none

/-- The command of a mnemonic without an operand (R68), or of a pseudo-instruction without one (R73). -/
def plainCommand (name : List Char) : Option Instr :=
  if name = "NOP".toList then some .nop
  else if name = "CYCMODE".toList then some .cycmode
  else if name = "TGLAC".toList then some .tglac
  else if name = "TGLREC".toList then some .tglrec
  else if name = "TGLUNIT".toList then some .tglunit
  else if name = "FANOFF".toList then some (.setfan 0)
  else if name = "FANLOW".toList then some (.setfan 50)
  else if name = "FANHIGH".toList then some (.setfan 100)
  else if name = "TEMPUP".toList then some (.adjset 1)
  else if name = "TEMPDOWN".toList then some (.adjset (-1))
  else if name = "CELSIUS".toList then some (.setunit 0)
  else if name = "FAHRENHEIT".toList then some (.setunit 1)
  else none

/-- The word of a mnemonic with an operand (R68), or of `PRESS b` with b a button code (R73). DESIGN CHOICE (log 11): a
mnemonic whose operand R68 gives as none takes no operand, so `NOP 0` is refused, though IMM12 = 0 is the value R68 calls legal
for it. The same holds for the pseudo-instructions but PRESS, and a mnemonic with an operand is refused without one. -/
def operandWord (name : List Char) (v : Int) : Option Word :=
  if name = "SETFAN".toList then (operandIn (v == 0 || v == 50 || v == 100) .setfan v).map encode
  else if name = "ADJSET".toList then (operandIn (decide (-2048 ≤ v ∧ v ≤ 2047)) .adjset v).map encode
  else if name = "SETSET".toList then (operandIn (decide (-2048 ≤ v ∧ v ≤ 2047)) .setset v).map encode
  else if name = "SETAMB".toList then (operandIn (decide (-128 ≤ v ∧ v ≤ 127)) .setamb v).map encode
  else if name = "SETUNIT".toList then (operandIn (v == 0 || v == 1) .setunit v).map encode
  else if name = "PRESS".toList then
    if 0 ≤ v ∧ v ≤ 7 then some (buttonOf (BitVec.ofInt 3 v)).action else none
  else none

/-- The value of a decimal digit. -/
def decimalDigit (c : Char) : Option Nat := if '0' ≤ c ∧ c ≤ '9' then some (c.toNat - 48) else none

/-- The value of a hexadecimal digit. -/
def hexDigit (c : Char) : Option Nat :=
  if '0' ≤ c ∧ c ≤ '9' then some (c.toNat - 48)
  else if 'A' ≤ c ∧ c ≤ 'F' then some (c.toNat - 55)
  else if 'a' ≤ c ∧ c ≤ 'f' then some (c.toNat - 87)
  else none

/-- The digits of a number after the value read so far. -/
def moreDigits (base : Nat) (digit : Char → Option Nat) : Nat → List Char → Option Nat
  | value, [] => some value
  | value, c :: rest =>
    match digit c with
    | some d => moreDigits base digit (base * value + d) rest
    | none => none

/-- A number of at least one digit. -/
def number (base : Nat) (digit : Char → Option Nat) (text : List Char) : Option Nat :=
  match text with
  | [] => none
  | _ :: _ => moreDigits base digit 0 text

/-- An operand: a decimal integer, optionally signed, or a 0x hexadecimal literal (R72) that gives the operand's
value, so `SETSET 0xFFB` is the value 4091, which R68 does not allow. DESIGN CHOICE (log 11): the literal has no sign. -/
def operandValue : List Char → Option Int
  | '0' :: 'x' :: rest => (number 16 hexDigit rest).map Int.ofNat
  | '-' :: rest => (number 10 decimalDigit rest).map fun n => -(Int.ofNat n)
  | '+' :: rest => (number 10 decimalDigit rest).map Int.ofNat
  | text => (number 10 decimalDigit text).map Int.ofNat

/-- The literal of `.word 0xNNNN`: four hexadecimal digits (R72). -/
def wordLiteral (text : List Char) : Option Word :=
  match text with
  | ['0', 'x', a, b, c, d] => (number 16 hexDigit [a, b, c, d]).map (BitVec.ofNat 16)
  | _ => none

/-- The line up to its comment (R72). -/
def dropComment (line : List Char) : List Char := line.takeWhile (· ≠ ';')

/-- A blank between the tokens of a line. -/
def isBlank (c : Char) : Bool := c == ' ' || c == '\t'

/-- The tokens of a line after a token begun as `cur`. -/
def tokensFrom : List Char → List Char → List (List Char)
  | cur, [] => if cur.isEmpty then [] else [cur]
  | cur, c :: rest =>
    if isBlank c then
      if cur.isEmpty then tokensFrom [] rest else cur :: tokensFrom [] rest
    else tokensFrom (cur ++ [c]) rest

/-- The words of one line: one for a command; nothing at all when the assembler refuses the line (R72, R73). DESIGN CHOICE
(log 11): an empty line, or one with a comment only, gives no word. -/
def assembleLine (line : List Char) : Option (List Word) :=
  match tokensFrom [] (dropComment line) with
  | [] => some []
  | [name] => (plainCommand name).map fun i => [encode i]
  | [name, operand] =>
    if name = ".word".toList then (wordLiteral operand).map fun w => [w]
    else ((operandValue operand).bind (operandWord name)).map fun w => [w]
  | _ => none

/-- The words of a program, one command per line; nothing when a line is refused. -/
def assemble : List (List Char) → Option (List Word)
  | [] => some []
  | line :: rest =>
    match assembleLine line, assemble rest with
    | some ws, some more => some (ws ++ more)
    | _, _ => none

end Sys2Proof.Machine
end

