-- ==== Sys2Proof/Machine/Thermistor.lean ====
section
/-! DEFINITION. The reference definitions of the thermistor converter in exact real arithmetic (R144 to R149), and the
named properties a conforming THERM_FN and DIE_FN have (R151). The step function does not evaluate them: a model
takes THERM_FN and DIE_FN as configuration functions (R10), and a proof that needs one of these properties names it. -/

namespace Sys2Proof.Machine

/-- DIVIDER (R144): the orientation of the thermistor divider. -/
inductive Divider where
  | divA
  | divB
deriving DecidableEq, Repr

/-- The calibration of R9: OPEN parameters with no default. -/
structure Calibration where
  rPullup : ℝ
  r0 : ℝ
  t0 : ℝ
  beta : ℝ
  adcFull : Nat
  divider : Divider

/-- The ranges of R9. -/
def Calibration.Legal (cal : Calibration) : Prop :=
  0 < cal.rPullup ∧ 0 < cal.r0 ∧ 0 < cal.t0 ∧ 0 < cal.beta ∧ 1 < cal.adcFull

/-- `resistance(c)` of R144. -/
noncomputable def resistance (cal : Calibration) (c : Nat) : ℝ :=
  match cal.divider with
  | .divA => cal.rPullup / ((cal.adcFull : ℝ) / c - 1)
  | .divB => cal.rPullup * ((cal.adcFull : ℝ) / c - 1)

/-- `invT` of R145, 1/T0 + ln(R / R0) / BETA. -/
noncomputable def inverseKelvin (cal : Calibration) (r : ℝ) : ℝ := 1 / cal.t0 + Real.log (r / cal.r0) / cal.beta

/-- `kelvin(R)` of R145; meaningful when invT > 0. -/
noncomputable def kelvin (cal : Calibration) (r : ℝ) : ℝ := 1 / inverseKelvin cal r

/-- `celsius(T)` of R146. -/
noncomputable def celsius (t : ℝ) : ℝ := t - 273.15

/-- `fahrenheit(C)` of R147: defined for completeness, written to no register and no port. -/
noncomputable def fahrenheit (c : ℝ) : ℝ := c * 1.8 + 32

/-- `rnd_half_away(r)` of R12. -/
noncomputable def rndHalfAway (r : ℝ) : Int := if 0 ≤ r then ⌊r + 1 / 2⌋ else -⌊-r + 1 / 2⌋

/-- `quantize(C)` of R148. -/
noncomputable def quantize (c : ℝ) : Int := clamp (rndHalfAway c) (-128) 127

/-- The exact Celsius value of an averaged code in the domain. -/
noncomputable def exactCelsius (cal : Calibration) (c : Nat) : ℝ := celsius (kelvin cal (resistance cal c))

/-- The three DOMAIN cases of R149: code 0, a code of at least ADC_FULL, and invT <= 0. -/
def OutOfDomain (cal : Calibration) (c : Nat) : Prop :=
  c = 0 ∨ cal.adcFull ≤ c ∨ inverseKelvin cal (resistance cal c) ≤ 0

open Classical in
/-- The reference THERM_FN of R149; `none` is DOMAIN. -/
noncomputable def thermReference (cal : Calibration) (c : Nat) : Option Int :=
  if OutOfDomain cal c then none else some (quantize (exactCelsius cal c))

/-- The value is at least 0.01 from every half-integer (R151). -/
def AwayFromTies (x : ℝ) : Prop := ∀ k : Int, 0.01 ≤ |x - ((k : ℝ) + 1 / 2)|

/-- `therm_domain` of R151 (a). -/
def ThermDomain (cal : Calibration) (f : Nat → Option (BitVec 8)) : Prop :=
  ∀ c, f c = none ↔ thermReference cal c = none

/-- `therm_close` of R151 (b). -/
def ThermClose (cal : Calibration) (f : Nat → Option (BitVec 8)) : Prop :=
  ∀ c v r, f c = some v → thermReference cal c = some r →
    |v.toInt - r| ≤ 1 ∧ (AwayFromTies (exactCelsius cal c) → v.toInt = r)

/-- The exact value of R150 in tenths of a degree, as R150 writes it. -/
noncomputable def exactDie (c : Nat) : ℝ := 10 * (27.0 - ((c : ℝ) * 3.3 / 4096 - 0.706) / 0.001721)

/-- `die_close` of R151 (c). -/
def DieClose (f : BitVec 12 → Int) : Prop :=
  ∀ c : BitVec 12, |f c - rndHalfAway (exactDie c.toNat)| ≤ 1 ∧
    (AwayFromTies (exactDie c.toNat) → f c = rndHalfAway (exactDie c.toNat))

end Sys2Proof.Machine
end

