-- ==== Sys2Proof/Machine/Outputs.lean ====
section
/-! DEFINITION. The output ports (R40 to R43): Moore outputs of the registers, and die_temp, a function of die_code
(R152). -/

namespace Sys2Proof.Machine

/-- The output ports of R40. -/
structure Outputs where
  lineDrive : BitVec 6
  adcReq : Bool
  adcCh : BitVec 4
  segReq : Bool
  segData : BitVec 32
  segLen : BitVec 3
  serClk : Bool
  serData : Bool
  syncOut : Bool
  cmdReady : Bool
  cmdStatus : Bool
  ledMode : BitVec 5
  ledAc : Bool
  ledRecirc : Bool
  ledFan : BitVec 3
  stMode : BitVec 3
  stAc : Bool
  stRecirc : Bool
  stFan : BitVec 8
  stSet : BitVec 8
  stAmb : BitVec 8
  stUnit : Bool
  gaugeLevel : BitVec 4
  fatal : Bool
  faultCause : BitVec 2
  dieTemp : BitVec 16
deriving DecidableEq, Repr

/-- The code of FAULT_CAUSE (R37, R201). -/
def FaultCause.code : FaultCause → BitVec 2
  | .none => 0
  | .adcFail => 1
  | .segWriteFail => 2
  | .thermDomain => 3

/-- led_mode (R41): bit k is MODE = k, for k in 0..4. -/
def ledModeOf (m : BitVec 3) : BitVec 5 := if m.toNat < 5 then 1#5 <<< m.toNat else 0

/-- led_fan (R41): bit 0, 1, 2 for FAN_LEVEL = 0, 50, 100. -/
def ledFanOf (v : BitVec 8) : BitVec 3 := if v = 0 then 1 else if v = 50 then 2 else if v = 100 then 4 else 0

/-- ser_clk (R43, R168): low in SER_LO only. -/
def serClkOf (s : State) : Bool := !(s.phase == .serLo)

/-- ser_data (R43, R168): SER_WORD[BITK] while a frame is shifted, else 0. -/
def serDataOf (s : State) : Bool := (s.phase == .serLo || s.phase == .serHi) && s.serWord.testBit s.bitk

/-- die_temp (R152): DIE_FN(die_code) in 16-bit two's complement. -/
def dieTempOf (p : Params) (dieCode : BitVec 12) : BitVec 16 := BitVec.ofInt 16 (p.dieFn dieCode)

/-- Every output port in one tick (R40 to R43). -/
def outputs (p : Params) (s : State) (dieCode : BitVec 12) : Outputs where
  lineDrive := s.lineMode
  adcReq := s.phase == .tempSample
  adcCh := p.thermCh
  segReq := s.phase == .segTx
  segData := s.segWord
  segLen := BitVec.ofNat 3 p.segBytes
  serClk := serClkOf s
  serData := serDataOf s
  syncOut := s.sync.phase == .sPulse
  cmdReady := s.phase == .idle
  cmdStatus := s.cmdStatus
  ledMode := ledModeOf s.climate.mode
  ledAc := s.climate.acOn
  ledRecirc := s.climate.recircOn
  ledFan := ledFanOf s.climate.fanLevel
  stMode := s.climate.mode
  stAc := s.climate.acOn
  stRecirc := s.climate.recircOn
  stFan := s.climate.fanLevel
  stSet := s.climate.setTemp
  stAmb := s.climate.ambientTemp
  stUnit := s.climate.displayUnit
  gaugeLevel := gaugePort s.climate.setTemp.toInt
  fatal := s.phase == .fatal
  faultCause := s.faultCause.code
  dieTemp := dieTempOf p dieCode

/-- Byte j of a segment write, SEG_WORD[8j+7:8j] (R52). -/
def segByte (w : BitVec 32) (j : Nat) : BitVec 8 := w.extractLsb' (8 * j) 8

/-- The bytes of a segment write in the order they are sent, least significant first (R52, R162). -/
def segBytesSent (p : Params) (s : State) : List (BitVec 8) := (List.range p.segBytes).map (segByte s.segWord)

end Sys2Proof.Machine
end

