-- ==== Sys2Proof/Machine/Run.lean ====
section
/-! DEFINITION. Runs over a stream of input records, one per tick (R193), the waveform they produce at the output
ports, and the receiver of the serial bus (R177). -/

namespace Sys2Proof.Machine

/-- The state after these input records (R193). -/
def run (p : Params) : List Inputs → State → Result
  | [], s => .next s
  | i :: rest, s => (tick p i s).andThen (run p rest)

/-- The output ports in each tick of the stream, the first those of `s` itself (Moore outputs, R13). -/
def waveform (p : Params) : List Inputs → State → List Outputs
  | [], _ => []
  | i :: rest, s =>
    outputs p s i.dieCode ::
      (match tick p i s with
      | .next t => waveform p rest t
      | .fault _ => []
      | .refused _ => [])

/-- What a receiver latches: ser_data in each tick in which ser_clk has risen (R177). `before` is the level of
ser_clk in the tick before. -/
def latchedBits : Bool → List Outputs → List Bool
  | _, [] => []
  | before, o :: rest =>
    if !before && o.serClk then o.serData :: latchedBits o.serClk rest else latchedBits o.serClk rest

/-- The word of latched bits, the first one most significant (R177). -/
def receivedWord (bits : List Bool) : Nat := bits.foldl (fun w b => 2 * w + b.toNat) 0

end Sys2Proof.Machine
end

