-- ==== Sys2Proof/Safety.lean ====
section
/-! DEFINITION. What counts as a good state of the block: the invariant of R45 with the register bounds of R31, R34,
R35 and R38, the reachable states, and the terms the statements use. -/

namespace Sys2Proof.Machine

/-- The ClimateState part of R45: SET_TEMP in [60, 90], MODE at most 4, FAN_LEVEL one of 0, 50, 100. -/
def ClimateLegal (c : ClimateState) : Prop :=
  60 ≤ c.setTemp.toInt ∧ c.setTemp.toInt ≤ 90 ∧ c.mode.toNat ≤ 4 ∧
    (c.fanLevel = 0 ∨ c.fanLevel = 50 ∨ c.fanLevel = 100)

/-- Whether the drive line of BTN is held low (R45, R109, R115, R204): from SCAN_DRIVE's write to SCAN_RESTORE's, which
takes in a refresh with RET = RET_REPEAT and the fatal stop entered from one. -/
def lineHeld (s : State) : Bool :=
  match s.phase with
  | .idle => false
  | .tempSample => false
  | .tempConvert => false
  | .scanDrive => false
  | .wait => true
  | .scanSample => true
  | .scanConfirm => true
  | .scanHoldchk => true
  | .scanRepchk => true
  | .scanRestore => true
  | .encode => s.ret == .rep
  | .segTx => s.ret == .rep
  | .serLo => s.ret == .rep
  | .serHi => s.ret == .rep
  | .fatal => s.faultCause == .segWriteFail && s.ret == .rep

/-- The LINE_MODE part of R45 and R115: all lines released, or DRIVE(BTN) alone driven low. -/
def LinesOk (p : Params) (s : State) : Prop :=
  s.lineMode = if lineHeld s then lineBit (driveOf p s.btn) else 0

/-- The FAULT_CAUSE part of R45. -/
def FaultOk (s : State) : Prop := s.faultCause ≠ .none ↔ s.phase = .fatal

/-- The phases in which TIMER counts (R31). -/
def timed (ph : Phase) : Bool := ph == .idle || ph == .wait || ph == .serLo || ph == .serHi

/-- The largest value TIMER is loaded with (R31). -/
def maxTimer (p : Params) : Nat :=
  max p.nGap (max p.nSettle (max p.nDebounce (max p.nHold (max p.nRepeat (max p.nClkLow p.nClkHigh)))))

/-- The bounds of TIMER (R31), CNT and ACC (R34), BITK (R35), SER_WORD (R29) and SYNC_TIMER (R38). -/
structure CountersOk (p : Params) (s : State) : Prop where
  timer_le : s.timer ≤ maxTimer p
  timer_pos : timed s.phase = true → 1 ≤ s.timer
  cnt_le : s.cnt.toNat ≤ 128
  cnt_lt : s.phase = .tempSample → s.cnt.toNat < 128
  acc_le : s.acc ≤ s.cnt.toNat * (2 ^ p.adcBits - 1)
  bitk_lt : s.bitk < p.serWidth
  serWord_lt : s.serWord < 2 ^ p.serWidth
  syncTimer_le : s.sync.timer ≤ p.nSyncPulse
  syncTimer_pos : s.sync.phase = .sPulse → 1 ≤ s.sync.timer

/-- The invariant of the block (R45 and the register bounds). -/
structure Inv (p : Params) (s : State) : Prop where
  climate : ClimateLegal s.climate
  lines : LinesOk p s
  fault : FaultOk s
  counters : CountersOk p s

/-- The states of a run from reset, over every stream of inputs (R193, R220). -/
inductive Reachable (p : Params) : State → Prop where
  | reset : Reachable p (State.resetOf p)
  | tick {s t : State} (inp : Inputs) : Reachable p s → tick p inp s = .next t → Reachable p t

/-- Commands performed one after another, in successive IDLE ticks (R62). -/
def execAll : List Instr → State → Result
  | [], s => .next s
  | i :: rest, s => Result.andThen (exec i s) (execAll rest)

/-- No reset in this stream of inputs. -/
def NoReset (ins : List Inputs) : Prop := ∀ i ∈ ins, i.rst = false

/-- The phases of a display refresh (R183). -/
def inRefresh (ph : Phase) : Bool := ph == .encode || ph == .segTx || ph == .serLo || ph == .serHi

/-- MAIN is in the scan of one held button, from its SCAN_CONFIRM on (R113): the hold wait and check, the repeat wait
and check, or a repeat refresh. -/
def HeldScan (s : State) : Prop :=
  s.phase = .scanConfirm ∨ s.phase = .scanHoldchk ∨ s.phase = .scanRepchk ∨
    (s.phase = .wait ∧ (s.wnext = .scanHoldchk ∨ s.wnext = .scanRepchk)) ∨
    (inRefresh s.phase = true ∧ s.ret = .rep)

/-- The phases that sample the sense line of BTN (R104, R106, R107, R108). -/
def samplesLine (ph : Phase) : Bool :=
  ph == .scanSample || ph == .scanConfirm || ph == .scanHoldchk || ph == .scanRepchk

/-- The scan phases that can start a timed wait themselves (R102, R104, R106, R107). -/
def scanStartsWait (ph : Phase) : Bool :=
  ph == .scanDrive || ph == .scanSample || ph == .scanConfirm || ph == .scanHoldchk

/-- The ticks of one serial frame, SER_WIDTH * (N_CLK_LOW + N_CLK_HIGH) (R170). -/
def frameTicks (p : Params) : Nat := p.serWidth * (p.nClkLow + p.nClkHigh)

/-- The ticks of one repetition of a held button b (R108, R117, R183, R184): a SCAN_REPCHK tick that reads pressed, ENCODE,
a segment write of `seg` ticks, the serial frame, and the repeat wait, without reset. -/
def Repetition (p : Params) (b : BitVec 3) (seg : Nat) (ins : List Inputs) : Prop :=
  ∃ (check enc : Inputs) (waits : List Inputs) (done : Inputs) (rest : List Inputs),
    ins = check :: enc :: (waits ++ done :: rest) ∧ NoReset ins ∧ check.lineIn.getLsbD (senseOf p b).val = false ∧
    waits.length + 1 = seg ∧ (∀ i ∈ waits, i.segErr = false ∧ i.segDone = false) ∧
    done.segErr = false ∧ done.segDone = true ∧ rest.length = frameTicks p + p.nRepeat

/-- The SYNC agent alone over a stream of inputs (R175). -/
def syncRun (p : Params) : List Inputs → SyncRegs → SyncRegs
  | [], r => r
  | i :: rest, r => syncRun p rest (syncStep p i r)

/-- Two input records agree on every port MAIN reads in this phase (R190, R204): line_in at the sample phases,
the ADC ports in TEMP_SAMPLE, the segment ports in SEG_TX, the host port in IDLE. -/
def SameForMain (ph : Phase) (i j : Inputs) : Prop :=
  match ph with
  | .idle => i.cmdValid = j.cmdValid ∧ i.cmdWord = j.cmdWord
  | .tempSample => i.adcErr = j.adcErr ∧ i.adcValid = j.adcValid ∧ i.adcCode = j.adcCode
  | .tempConvert => True
  | .scanDrive => True
  | .wait => True
  | .scanSample => i.lineIn = j.lineIn
  | .scanConfirm => i.lineIn = j.lineIn
  | .scanHoldchk => i.lineIn = j.lineIn
  | .scanRepchk => i.lineIn = j.lineIn
  | .scanRestore => True
  | .encode => True
  | .segTx => i.segErr = j.segErr ∧ i.segDone = j.segDone
  | .serLo => True
  | .serHi => True
  | .fatal => True

/-- A stream in which nothing happens: no reset, no button pressed, no host command, and every ADC request and
segment write answered at once (R222). -/
def Undisturbed (ins : List Inputs) : Prop :=
  ∀ i ∈ ins, i.rst = false ∧ i.lineIn = BitVec.allOnes 6 ∧ i.cmdValid = false ∧ i.adcErr = false ∧
    i.adcValid = true ∧ i.segErr = false ∧ i.segDone = true

end Sys2Proof.Machine
end

