-- ==== Sys2Proof/Certificates/Slice0/Obligations.lean ====
section
/-! DEFINITION. The statements about the block, one `def Obligations.<Name> : Prop` each, from the numbered rules of the
spec. Where a statement takes parameters `p`, it holds for every parameter set, or for every one that meets the
constraint it names. -/

open Sys2Proof Sys2Proof.Machine

/-! ## Encoding -/

/-- Words written out from R68: OP in bits 15:12, IMM12 in bits 11:0. -/
def Obligations.TableWordsDecode : Prop :=
  decode 0b0000000000000000#16 = .ok .nop ∧ decode 0b0001000000000000#16 = .ok .cycmode ∧
    decode 0b0010000000000000#16 = .ok .tglac ∧ decode 0b0011000000000000#16 = .ok .tglrec ∧
    decode 0b0100000000110010#16 = .ok (.setfan 50) ∧ decode 0b0101111111111111#16 = .ok (.adjset (-1)) ∧
    decode 0b0110000011001000#16 = .ok (.setset 200) ∧ decode 0b0111111110000000#16 = .ok (.setamb (-128)) ∧
    decode 0b1000000000000001#16 = .ok (.setunit 1) ∧ decode 0b1001000000000000#16 = .ok .tglunit

/-- Decoding and encoding agree in both directions: a word decodes to i exactly when i is well formed and the word is
i's encoding. So every well-formed command survives the round trip with every operand, and every legal word has one
meaning and one encoding (R68). -/
def Obligations.DecodeAndEncodeAgree : Prop :=
  ∀ (w : Word) (i : Instr), decode w = .ok i ↔ i.WellFormed ∧ encode i = w

/-- R69: which words are illegal, in terms of OP = w div 4096, uimm = w mod 4096 and simm its signed reading; and R69's
effect of an illegal host word, which is CMD_STATUS = 1 and no other write. -/
def Obligations.IllegalWordsOfRule69 : Prop :=
  (∀ w : Word,
    let op := w.toNat / 4096
    let u := w.toNat % 4096
    let v : Int := if u < 2048 then u else (u : Int) - 4096
    (∃ why, decode w = .error why) ↔
      (10 ≤ op ∨ ((op ≤ 3 ∨ op = 9) ∧ u ≠ 0) ∨ (op = 4 ∧ u ≠ 0 ∧ u ≠ 50 ∧ u ≠ 100) ∨
        (op = 7 ∧ (v < -128 ∨ 127 < v)) ∨ (op = 8 ∧ u ≠ 0 ∧ u ≠ 1))) ∧
  ∀ (w : Word) (why : Reject) (s : State), decode w = .error why →
    perform .host w s = .next { s with cmdStatus := true }

/-! ## The ten commands: result, frame and completion in one equation each, for every state. Where a rule names the
button that issues the command, the button's word is stated too. -/

/-- R86. -/
def Obligations.NopWritesStatusOnly : Prop :=
  decode 0x0000#16 = .ok .nop ∧
    (∀ imm : Imm12, imm ≠ 0 → decode (wordOf 0x0 imm) = .error .unusedOperand) ∧
    ∀ s : State, exec .nop s = .next { s with cmdStatus := false }

/-- R87: the mode advances in the fixed cycle, in numbers and in names; five applications of CYCMODE return a legal
MODE to its start value; the Demist button issues it. -/
def Obligations.CycmodeAdvancesTheMode : Prop :=
  decode 0x1000#16 = .ok .cycmode ∧ Button.demist.action = encode .cycmode ∧
    (∀ s : State, ∃ m : BitVec 3, m.toNat = (s.climate.mode.toNat + 1) % 5 ∧
      exec .cycmode s = .next { s with climate := { s.climate with mode := m }, cmdStatus := false }) ∧
    (∀ (s : State) (m : ClimateMode), s.climate.mode = m.code →
      exec .cycmode s = .next { s with climate := { s.climate with mode := m.succ.code }, cmdStatus := false }) ∧
    ∀ s : State, s.climate.mode.toNat ≤ 4 →
      execAll [.cycmode, .cycmode, .cycmode, .cycmode, .cycmode] s = .next { s with cmdStatus := false }

/-- R88: AC_ON is inverted; two applications restore it; the Auto button issues it. -/
def Obligations.TglacInvertsAc : Prop :=
  decode 0x2000#16 = .ok .tglac ∧ Button.auto.action = encode .tglac ∧
    (∀ s : State, exec .tglac s =
      .next { s with climate := { s.climate with acOn := !s.climate.acOn }, cmdStatus := false }) ∧
    ∀ s : State, execAll [.tglac, .tglac] s = .next { s with cmdStatus := false }

/-- R89: RECIRC_ON is inverted; two applications restore it; the Recirc button issues it. -/
def Obligations.TglrecInvertsRecirc : Prop :=
  decode 0x3000#16 = .ok .tglrec ∧ Button.recirc.action = encode .tglrec ∧
    (∀ s : State, exec .tglrec s =
      .next { s with climate := { s.climate with recircOn := !s.climate.recircOn }, cmdStatus := false }) ∧
    ∀ s : State, execAll [.tglrec, .tglrec] s = .next { s with cmdStatus := false }

/-- R90: FAN_LEVEL takes the operand for 0, 50 and 100, and SETFAN 50 lights led_fan = 0b010; a word with any other operand
is illegal; the three fan buttons issue it. -/
def Obligations.SetfanStoresLegalLevels : Prop :=
  Button.off.action = 0x4000#16 ∧ Button.fanLow.action = 0x4032#16 ∧ Button.fanHigh.action = 0x4064#16 ∧
    (∀ (v : Imm12) (s : State), (v.toNat = 0 ∨ v.toNat = 50 ∨ v.toNat = 100) →
      decode (0x4000#16 ||| v.setWidth 16) = .ok (.setfan v) ∧
      ∃ f : BitVec 8, f.toNat = v.toNat ∧
        exec (.setfan v) s = .next { s with climate := { s.climate with fanLevel := f }, cmdStatus := false }) ∧
    (∀ (p : Params) (s : State) (d : BitVec 12), ∃ t, exec (.setfan 50) s = .next t ∧ (outputs p t d).ledFan = 0b010) ∧
    ∀ v : Imm12, v.toNat ≠ 0 → v.toNat ≠ 50 → v.toNat ≠ 100 →
      decode (0x4000#16 ||| v.setWidth 16) = .error .fanValue

/-- R91: SET_TEMP becomes the exact sum clamped to [60, 90], for every SET_TEMP and every operand; TempUp and TempDown
issue it with +1 and -1. -/
def Obligations.AdjsetClampsTheExactSum : Prop :=
  Button.tempUp.action = 0x5001#16 ∧ Button.tempDown.action = 0x5FFF#16 ∧ (0xFFF#12).toInt = -1 ∧
    ∀ (d : Imm12) (s : State),
      decode (0x5000#16 ||| d.setWidth 16) = .ok (.adjset d) ∧
      ∃ v : BitVec 8,
        v.toInt = max 60 (min 90 (s.climate.setTemp.toInt + d.toInt)) ∧
        exec (.adjset d) s = .next { s with climate := { s.climate with setTemp := v }, cmdStatus := false }

/-- R92: SET_TEMP becomes the operand clamped to [60, 90], for every operand; no button issues it. -/
def Obligations.SetsetClampsTheOperand : Prop :=
  (∀ (v : Imm12) (s : State),
    decode (0x6000#16 ||| v.setWidth 16) = .ok (.setset v) ∧
    ∃ t : BitVec 8, t.toInt = max 60 (min 90 v.toInt) ∧
      exec (.setset v) s = .next { s with climate := { s.climate with setTemp := t }, cmdStatus := false }) ∧
  ∀ (b : Button) (v : Imm12), b.action ≠ encode (.setset v)

/-- R93: AMBIENT_TEMP takes every operand in [-128, 127] unclamped, with the hundred flag from magnitude 100 on; a word with
any other operand is illegal; the temperature stage makes the same write with its converted value, whatever AMBIENT_TEMP was,
and does not write CMD_STATUS. -/
def Obligations.SetambStoresUnclamped : Prop :=
  (∀ (t : Imm12) (s : State), -128 ≤ t.toInt → t.toInt ≤ 127 →
    decode (0x7000#16 ||| t.setWidth 16) = .ok (.setamb t) ∧
    ∃ a : BitVec 8, a.toInt = t.toInt ∧
      exec (.setamb t) s = .next { s with climate := { s.climate with ambientTemp := a }, cmdStatus := false }) ∧
  (∀ t : Imm12, (t.toInt < -128 ∨ 127 < t.toInt) → decode (0x7000#16 ||| t.setWidth 16) = .error .ambientRange) ∧
  (∀ a : BitVec 8, (decompose a.toInt).hund = true ↔ a.toInt ≤ -100 ∨ 100 ≤ a.toInt) ∧
  ∀ (p : Params) (inp : Inputs) (s : State) (v : BitVec 8), inp.rst = false → s.phase = .tempConvert →
    p.thermFn (average s.acc) = some v →
    ∃ t, tick p inp s = .next t ∧ t.climate = { s.climate with ambientTemp := v } ∧ t.cmdStatus = s.cmdStatus

/-- R94: DISPLAY_UNIT takes the operand 0 or 1; a word with u >= 2 is illegal; the next encoded segment word shows the
unit, with UNIT_F set and UNIT_C clear for u = 1 in the default layout (bits 17 and 16). -/
def Obligations.SetunitStoresTheUnit : Prop :=
  (∀ s : State, decode 0x8000#16 = .ok (.setunit 0) ∧
    exec (.setunit 0) s = .next { s with climate := { s.climate with displayUnit := false }, cmdStatus := false }) ∧
  (∀ s : State, decode 0x8001#16 = .ok (.setunit 1) ∧
    exec (.setunit 1) s = .next { s with climate := { s.climate with displayUnit := true }, cmdStatus := false }) ∧
  (∀ u : Imm12, 2 ≤ u.toNat → decode (0x8000#16 ||| u.setWidth 16) = .error .unitValue) ∧
  ∀ (f : Nat → Option (BitVec 8)) (g : BitVec 12 → Int) (c : ClimateState), c.displayUnit = true →
    (segWordOf (Params.standard f g) c).getLsbD 17 = true ∧ (segWordOf (Params.standard f g) c).getLsbD 16 = false

/-- R95: DISPLAY_UNIT is inverted; two applications restore it. -/
def Obligations.TglunitInvertsTheUnit : Prop :=
  decode 0x9000#16 = .ok .tglunit ∧
    (∀ s : State, exec .tglunit s =
      .next { s with climate := { s.climate with displayUnit := !s.climate.displayUnit }, cmdStatus := false }) ∧
    ∀ s : State, execAll [.tglunit, .tglunit] s = .next { s with cmdStatus := false }

/-- The frame of the whole family, for every command and operand: no register but the one the rule names and CMD_STATUS
is written, so none of MAIN's sequencing or frame registers, no line, no SYNC register (R98). -/
def Obligations.CommandFamilyFrame : Prop :=
  ∀ (i : Instr) (s t : State), exec i s = .next t →
    t = { s with climate := t.climate, cmdStatus := t.cmdStatus } ∧
    match i with
    | .nop => t.climate = s.climate
    | .cycmode => t.climate = { s.climate with mode := t.climate.mode }
    | .tglac => t.climate = { s.climate with acOn := t.climate.acOn }
    | .tglrec => t.climate = { s.climate with recircOn := t.climate.recircOn }
    | .setfan _ => t.climate = { s.climate with fanLevel := t.climate.fanLevel }
    | .adjset _ => t.climate = { s.climate with setTemp := t.climate.setTemp }
    | .setset _ => t.climate = { s.climate with setTemp := t.climate.setTemp }
    | .setamb _ => t.climate = { s.climate with ambientTemp := t.climate.ambientTemp }
    | .setunit _ => t.climate = { s.climate with displayUnit := t.climate.displayUnit }
    | .tglunit => t.climate = { s.climate with displayUnit := t.climate.displayUnit }

/-- R111, R85: a button's action is the host command of the same word, but CMD_STATUS is not written; every action word
is legal (R76). -/
def Obligations.ButtonActionIsTheHostCommand : Prop :=
  ∀ (b : Button) (s : State), ∃ (i : Instr) (t : State),
    decode b.action = .ok i ∧ perform .host b.action s = .next t ∧ exec i s = .next t ∧ t.cmdStatus = false ∧
      perform .button b.action s = .next { t with cmdStatus := s.cmdStatus } ∧ buttonOf b.code = b

/-! ## Who writes which register, over all ticks -/

/-- R97: every path that writes SET_TEMP clamps: in any tick from any state, SET_TEMP is kept or lands in [60, 90]; reset
loads 60, and in a tick without reset only an ADJSET or SETSET word, offered by the host in IDLE or issued by a button, changes
it; SET_TEMP of a reachable state is in [60, 90]. -/
def Obligations.EverySetTempWriteClamps : Prop :=
  (∀ (p : Params) (inp : Inputs) (s t : State), tick p inp s = .next t →
    t.climate.setTemp = s.climate.setTemp ∨
      (60 ≤ t.climate.setTemp.toInt ∧ t.climate.setTemp.toInt ≤ 90)) ∧
  (∀ (p : Params) (inp : Inputs) (s t : State), tick p inp s = .next t →
    (inp.rst = true → t.climate.setTemp.toInt = 60) ∧
    (inp.rst = false → t.climate.setTemp ≠ s.climate.setTemp → ∃ (w : Word) (d : Imm12),
      (decode w = .ok (.adjset d) ∨ decode w = .ok (.setset d)) ∧
      ((s.phase = .idle ∧ inp.cmdValid = true ∧ inp.cmdWord = w) ∨
        ((s.phase = .scanConfirm ∨ s.phase = .scanRepchk) ∧ (buttonOf s.btn).action = w)))) ∧
  ∀ (p : Params) (s : State), Reachable p s → 60 ≤ s.climate.setTemp.toInt ∧ s.climate.setTemp.toInt ≤ 90

/-- The writers of the ClimateState registers (R20 to R27): in a tick without reset, a register changes only by the
operation its rule names, which a host command issues in IDLE, a button in SCAN_CONFIRM or SCAN_REPCHK, and the
temperature stage in TEMP_CONVERT for AMBIENT_TEMP. -/
def Obligations.ClimateRegisterWriters : Prop :=
  ∀ (p : Params) (inp : Inputs) (s t : State), inp.rst = false → tick p inp s = .next t →
    let issued : Instr → Prop := fun i =>
      (s.phase = .idle ∧ inp.cmdValid = true ∧ decode inp.cmdWord = .ok i) ∨
        ((s.phase = .scanConfirm ∨ s.phase = .scanRepchk) ∧ decode (buttonOf s.btn).action = .ok i)
    (t.climate.mode ≠ s.climate.mode → issued .cycmode) ∧
    (t.climate.acOn ≠ s.climate.acOn → issued .tglac) ∧
    (t.climate.recircOn ≠ s.climate.recircOn → issued .tglrec) ∧
    (t.climate.fanLevel ≠ s.climate.fanLevel → ∃ v, issued (.setfan v)) ∧
    (t.climate.setTemp ≠ s.climate.setTemp → ∃ v, issued (.adjset v) ∨ issued (.setset v)) ∧
    (t.climate.ambientTemp ≠ s.climate.ambientTemp → s.phase = .tempConvert ∨
      ∃ v, s.phase = .idle ∧ inp.cmdValid = true ∧ decode inp.cmdWord = .ok (.setamb v)) ∧
    (t.climate.displayUnit ≠ s.climate.displayUnit → s.phase = .idle ∧ inp.cmdValid = true ∧
      (decode inp.cmdWord = .ok .tglunit ∨ ∃ v, decode inp.cmdWord = .ok (.setunit v)))

/-- The writers of the other registers of MAIN (R28 to R37): in a tick without reset, a register changes only in the phases
its rule names, and is kept in every other (R30); TIMER and WNEXT only where a timed phase counts, ends or starts (R101, R163,
R166, R167, R181, R184). -/
def Obligations.SequencingRegisterWriters : Prop :=
  ∀ (p : Params) (inp : Inputs) (s t : State), inp.rst = false → tick p inp s = .next t →
    (t.lineMode ≠ s.lineMode → s.phase = .scanDrive ∨ s.phase = .scanRestore) ∧
    (t.segWord ≠ s.segWord ∨ t.serWord ≠ s.serWord → s.phase = .encode) ∧
    (t.btn ≠ s.btn → s.phase = .scanRestore ∨ s.phase = .tempConvert ∨ s.phase = .idle) ∧
    (t.ret ≠ s.ret → s.phase = .scanRestore ∨ s.phase = .scanRepchk) ∧
    (t.cnt ≠ s.cnt ∨ t.acc ≠ s.acc → s.phase = .tempSample ∨ (s.phase = .idle ∧ t.phase = .tempSample)) ∧
    (t.bitk ≠ s.bitk → s.phase = .segTx ∨ s.phase = .serHi) ∧
    (t.timer ≠ s.timer → ((s.phase = .idle ∨ s.phase = .wait) ∧ t.phase = s.phase ∧ t.timer + 1 = s.timer) ∨
      s.phase = .serLo ∨ s.phase = .serHi ∨ (s.phase = .segTx ∧ t.phase = .serLo) ∨
      (scanStartsWait s.phase = true ∧ t.phase = .wait)) ∧
    (t.wnext ≠ s.wnext → t.phase = .wait ∧ (scanStartsWait s.phase = true ∨
      (s.phase = .serHi ∧ s.timer ≤ 1 ∧ s.bitk = 0 ∧ s.ret = .rep))) ∧
    (t.cmdStatus ≠ s.cmdStatus → s.phase = .idle ∧ inp.cmdValid = true) ∧
    (t.faultCause ≠ s.faultCause → s.phase ≠ .fatal ∧ t.phase = .fatal)

/-! ## The step and the host port -/

/-- A step runs the decoded command: in IDLE, without reset, with a word offered that decodes to i, the step is exec of i
followed by IDLE's sequencing, with the SYNC step beside it (R181, R182, R192). And a word placed by withFetchWord is run so by
the very next step. What is the model's choice in it: the input record taken from `pending` and `tickNo` counted (log 1),
the parameter set Params.machine of `step` (log 4), and withFetchWord (log 8). -/
def Obligations.StepRunsTheOfferedCommand : Prop :=
  (∀ (i : Instr) (s : State) (inp : Inputs) (rest : List Inputs),
    s.phase = .idle → s.pending = inp :: rest → inp.rst = false → inp.cmdValid = true → decode inp.cmdWord = .ok i →
      ∃ u, exec i s = .next u ∧
        step s = .next { idleAdvance Params.machine u with
          sync := syncStep Params.machine inp s.sync, pending := rest, tickNo := s.tickNo + 1 }) ∧
  ∀ (i : Instr) (s : State) (w : Nat), decodeTableWord 16 w = some i →
    ∃ u t, exec i (s.withFetchWord 16 w) = .next u ∧ step (s.withFetchWord 16 w) = .next t ∧
      t.climate = u.climate ∧ t.cmdStatus = u.cmdStatus

/-- Every step answers a next state. The model's claim of log 9, read from the spec: R191 gives every phase a successor, R192
steps in every tick, and R204 makes the fatal stop a state in which nothing changes. -/
def Obligations.EveryStepAnswersANextState : Prop := ∀ s : State, ∃ t, step s = .next t

/-- R182: a word is accepted exactly in a tick with cmd_valid = 1 and cmd_ready = 1, where cmd_ready is PHASE = IDLE, and
performed in that tick; offered in any other tick it leaves no trace. -/
def Obligations.CommandsAcceptedOnlyInIdle : Prop :=
  (∀ (p : Params) (s : State) (d : BitVec 12), (outputs p s d).cmdReady = true ↔ s.phase = .idle) ∧
  (∀ (p : Params) (inp : Inputs) (s : State), inp.rst = false → s.phase = .idle → inp.cmdValid = true →
    ∃ u, perform .host inp.cmdWord s = .next u ∧
      tick p inp s = .next { idleAdvance p u with sync := syncStep p inp s.sync }) ∧
  ∀ (p : Params) (inp : Inputs) (s : State) (v : Bool) (w : Word), s.phase ≠ .idle ∨ inp.rst = true →
    tick p { inp with cmdValid := v, cmdWord := w } s = tick p inp s

/-- R181: IDLE entered with TIMER = n lasts exactly n ticks whatever is offered in them, and a command can be accepted in
each of them; it ends in the temperature stage with CNT and ACC cleared, or in the scan pass with BTN = 0. -/
def Obligations.IdleLastsItsTimer : Prop :=
  ∀ (p : Params) (s : State) (ins : List Inputs), s.phase = .idle → 1 ≤ s.timer → ins.length = s.timer → NoReset ins →
    (∀ k, k < ins.length → ∃ t, run p (ins.take k) s = .next t ∧ t.phase = .idle) ∧
    ∃ t, run p ins s = .next t ∧
      if p.tempStageEn then t.phase = .tempSample ∧ t.cnt = 0 ∧ t.acc = 0 else t.phase = .scanDrive ∧ t.btn = 0

/-! ## The scanner -/

/-- R101: a WAIT with TIMER = n lasts exactly n ticks, reads no input, and then phase WNEXT runs with every register of
MAIN as it was. -/
def Obligations.WaitLastsItsTimer : Prop :=
  (∀ (s : State) (n : Nat) (w : WaitNext), s.startWait n w = { s with phase := .wait, timer := n, wnext := w }) ∧
  ∀ (p : Params) (s : State) (ins : List Inputs), s.phase = .wait → 1 ≤ s.timer → ins.length = s.timer → NoReset ins →
    (∀ k, k < ins.length →
      run p (ins.take k) s = .next { s with timer := s.timer - k, sync := syncRun p (ins.take k) s.sync }) ∧
    run p ins s = .next { s with phase := s.wnext.phase, timer := 1, sync := syncRun p ins s.sync }

/-- R102, R110: SCAN_DRIVE drives DRIVE(BTN) low and starts the settle wait, and from released lines drives that line only;
SCAN_RESTORE releases it whatever branch was taken and goes to the next button or, after button 7, to the end-of-pass
refresh. -/
def Obligations.DriveAndRestoreTheLine : Prop :=
  (∀ (p : Params) (inp : Inputs) (s : State), inp.rst = false → s.phase = .scanDrive → ∃ l : BitVec 6,
    (∀ k : Fin 6, l.getLsbD k.val = (decide (k = driveOf p s.btn) || s.lineMode.getLsbD k.val)) ∧
    tick p inp s = .next { s with lineMode := l, phase := .wait, timer := p.nSettle, wnext := .scanSample, sync := syncStep p inp s.sync }) ∧
  ∀ (p : Params) (inp : Inputs) (s : State), inp.rst = false → s.phase = .scanRestore → ∃ l : BitVec 6,
    (∀ k : Fin 6, l.getLsbD k.val = (!decide (k = driveOf p s.btn) && s.lineMode.getLsbD k.val)) ∧
    (s.btn.toNat < 7 → ∃ b : BitVec 3, b.toNat = s.btn.toNat + 1 ∧
      tick p inp s = .next { s with lineMode := l, btn := b, phase := .scanDrive, sync := syncStep p inp s.sync }) ∧
    (s.btn.toNat = 7 →
      tick p inp s = .next { s with lineMode := l, ret := .idle, phase := .encode, sync := syncStep p inp s.sync })

/-- R104, R107: SCAN_SAMPLE and SCAN_HOLDCHK read SENSE(BTN) in their tick only; a low level starts the debounce or the
repeat wait, a high level restores the line; neither performs an action. -/
def Obligations.SampleAndHoldCheck : Prop :=
  ∀ (p : Params) (inp : Inputs) (s : State), inp.rst = false →
    let low := inp.lineIn.getLsbD (senseOf p s.btn).val = false
    (s.phase = .scanSample →
      (low → tick p inp s = .next { s with phase := .wait, timer := p.nDebounce, wnext := .scanConfirm, sync := syncStep p inp s.sync }) ∧
      (¬ low → tick p inp s = .next { s with phase := .scanRestore, sync := syncStep p inp s.sync })) ∧
    (s.phase = .scanHoldchk →
      (low → tick p inp s = .next { s with phase := .wait, timer := p.nRepeat, wnext := .scanRepchk, sync := syncStep p inp s.sync }) ∧
      (¬ low → tick p inp s = .next { s with phase := .scanRestore, sync := syncStep p inp s.sync }))

/-- R106: SCAN_CONFIRM applies the button's action exactly once whatever the confirm sample reads; the sample only
decides whether the hold wait is entered. -/
def Obligations.ConfirmAppliesTheActionOnce : Prop :=
  ∀ (p : Params) (inp : Inputs) (s : State), inp.rst = false → s.phase = .scanConfirm →
    ∃ (i : Instr) (u : State), decode (buttonOf s.btn).action = .ok i ∧ exec i s = .next u ∧
      (inp.lineIn.getLsbD (senseOf p s.btn).val = false →
        tick p inp s = .next { s with climate := u.climate, phase := .wait, timer := p.nHold, wnext := .scanHoldchk, sync := syncStep p inp s.sync }) ∧
      (inp.lineIn.getLsbD (senseOf p s.btn).val = true →
        tick p inp s = .next { s with climate := u.climate, phase := .scanRestore, sync := syncStep p inp s.sync })

/-- The SCAN_REPCHK tick of R108: one re-application and a refresh that returns to the loop while the line reads low,
and the end of the loop at the first released sample; the refresh started here comes back to wait(N_REPEAT,
SCAN_REPCHK) with BTN and LINE_MODE unchanged (R184). -/
def Obligations.RepeatCheckReapplies : Prop :=
  (∀ (p : Params) (inp : Inputs) (s : State), inp.rst = false → s.phase = .scanRepchk →
    (inp.lineIn.getLsbD (senseOf p s.btn).val = true →
      tick p inp s = .next { s with phase := .scanRestore, sync := syncStep p inp s.sync }) ∧
    (inp.lineIn.getLsbD (senseOf p s.btn).val = false →
      ∃ (i : Instr) (u : State), decode (buttonOf s.btn).action = .ok i ∧ exec i s = .next u ∧
        tick p inp s = .next { s with climate := u.climate, ret := .rep, phase := .encode, sync := syncStep p inp s.sync })) ∧
  ∀ (p : Params) (inp : Inputs) (s : State), inp.rst = false → s.phase = .serHi → s.timer ≤ 1 → s.bitk = 0 →
    (s.ret = .rep →
      tick p inp s = .next { s with phase := .wait, timer := p.nRepeat, wnext := .scanRepchk, sync := syncStep p inp s.sync }) ∧
    (s.ret = .idle →
      tick p inp s = .next { s with phase := .idle, timer := p.nGap, sync := syncStep p inp s.sync })

/-- The first row of R188's durations: from SCAN_DRIVE of button b with released lines, when the sample tick reads
released, N_SETTLE + 3 ticks lead to the next button's SCAN_DRIVE, or after button 7 to ENCODE, with no action and all
lines released. -/
def Obligations.UnpressedButtonTakesSettlePlusThree : Prop :=
  ∀ (p : Params) (s : State) (ins : List Inputs), 1 ≤ p.nSettle → s.phase = .scanDrive → s.lineMode = 0 →
    ins.length = p.nSettle + 3 → NoReset ins →
    (∀ i, ins[p.nSettle + 1]? = some i → i.lineIn.getLsbD (senseOf p s.btn).val = true) →
    ∃ t, run p ins s = .next t ∧ t.lineMode = 0 ∧ t.climate = s.climate ∧ t.cmdStatus = s.cmdStatus ∧
      (s.btn.toNat < 7 → t.phase = .scanDrive ∧ t.btn.toNat = s.btn.toNat + 1) ∧
      (s.btn.toNat = 7 → t.phase = .encode ∧ t.ret = .idle ∧ t.btn = s.btn)

/-- The second and third row of R188's durations, with R106, R107 and R112: a press that reads low at SCAN_SAMPLE and
released at SCAN_CONFIRM (the short press of the source's section 8), or low at both and released at SCAN_HOLDCHK, is applied
exactly once, and takes N_SETTLE + N_DEBOUNCE + 4 or N_SETTLE + N_DEBOUNCE + N_HOLD + 5 ticks. -/
def Obligations.ShortPressAppliesOnce : Prop :=
  ∀ (p : Params) (s : State) (ins : List Inputs), 1 ≤ p.nSettle → 1 ≤ p.nDebounce → 1 ≤ p.nHold → s.phase = .scanDrive →
    s.lineMode = 0 → NoReset ins →
    (∀ i, ins[p.nSettle + 1]? = some i → i.lineIn.getLsbD (senseOf p s.btn).val = false) →
    ((ins.length = p.nSettle + p.nDebounce + 4 ∧
        ∀ i, ins[p.nSettle + p.nDebounce + 2]? = some i → i.lineIn.getLsbD (senseOf p s.btn).val = true) ∨
      (ins.length = p.nSettle + p.nDebounce + p.nHold + 5 ∧
        (∀ i, ins[p.nSettle + p.nDebounce + 2]? = some i → i.lineIn.getLsbD (senseOf p s.btn).val = false) ∧
        ∀ i, ins[p.nSettle + p.nDebounce + p.nHold + 3]? = some i → i.lineIn.getLsbD (senseOf p s.btn).val = true)) →
    ∃ (i : Instr) (u t : State), decode (buttonOf s.btn).action = .ok i ∧ exec i s = .next u ∧
      run p ins s = .next t ∧ t.climate = u.climate ∧ t.cmdStatus = s.cmdStatus ∧ t.lineMode = 0 ∧
      (s.btn.toNat < 7 → t.phase = .scanDrive ∧ t.btn.toNat = s.btn.toNat + 1) ∧
      (s.btn.toNat = 7 → t.phase = .encode ∧ t.ret = .idle ∧ t.btn = s.btn)

/-- R113: when the sense line reads low at every sample from SCAN_CONFIRM on (and neither reset nor a segment failure
intervenes), MAIN stays in the scan of that button for ever: never IDLE, no host command accepted, the drive line and CMD_STATUS
as they were; and every pressed repeat sample is followed by a display refresh. -/
def Obligations.HeldButtonNeverReachesIdle : Prop :=
  (∀ (p : Params) (s : State) (ins : List Inputs), HeldScan s →
    (∀ (k : Nat) (i : Inputs) (u : State), ins[k]? = some i → run p (ins.take k) s = .next u →
      i.rst = false ∧ (u.phase = .segTx → i.segErr = false) ∧
      (samplesLine u.phase = true → i.lineIn.getLsbD (senseOf p s.btn).val = false)) →
    ∃ t, run p ins s = .next t ∧ HeldScan t ∧ t.phase ≠ .idle ∧ t.phase ≠ .scanRestore ∧ t.btn = s.btn ∧
      t.lineMode = s.lineMode ∧ t.cmdStatus = s.cmdStatus ∧ (outputs p t 0).cmdReady = false) ∧
  ∀ (p : Params) (s : State) (inp : Inputs), s.phase = .scanRepchk → inp.rst = false →
    inp.lineIn.getLsbD (senseOf p s.btn).val = false →
    ∃ t, tick p inp s = .next t ∧ t.phase = .encode ∧ t.ret = .rep

/-! ## The display encoder -/

/-- R123: the sign, the hundred flag and the two decimal digits of the magnitude, for every signed 8-bit value. -/
def Obligations.DecomposeIsThePositionalSplit : Prop :=
  ∀ v : Int, -128 ≤ v → v ≤ 127 →
    ((decompose v).neg = true ↔ v < 0) ∧ ((decompose v).hund = true ↔ 100 ≤ v.natAbs) ∧
      (decompose v).tens ≤ 9 ∧ (decompose v).ones ≤ 9 ∧
      v.natAbs = (if (decompose v).hund then 100 else 0) + 10 * (decompose v).tens + (decompose v).ones

/-- R125: the level is the truncated linear map of [60, 90] onto [0, 10], NONE outside; level 10 is shown only at 90. -/
def Obligations.GaugeLevelIsTheTruncatedMap : Prop :=
  (∀ s : Int, 60 ≤ s → s ≤ 90 → ∃ k : Fin 11, gaugeLevel s = some k ∧
    30 * (k.val : Int) ≤ (s - 60) * 10 ∧ (s - 60) * 10 < 30 * (k.val + 1) ∧ (k = 10 ↔ s = 90)) ∧
  (∀ s : Int, s < 60 ∨ 90 < s → gaugeLevel s = none) ∧
  gaugeLevel 60 = some 0 ∧ gaugeLevel 75 = some 5 ∧ gaugeLevel 90 = some 10

/-- The segment word of R131 in any layout that meets R53 and R139: every signal's bit shows that signal and no other, and
every other bit is 0. That a MODE_MAP entry names five indicator signals and can light no other bit is the model's choice
(log 13); the five clauses on them and the last clause rest on it. -/
def Obligations.SegmentWordCarriesEverySignal : Prop :=
  ∀ (p : Params) (c : ClimateState), p.SegLegal →
    let l := p.segLayout
    let w := segWordOf p c
    let lit : (ModeLit → Bool) → Bool := fun f => ((p.modeMap.toList[c.mode.toNat]?).map f).getD false
    (∀ k : Fin 7, w.getLsbD (l.setOnes.get k) =
      (seg7 (BitVec.ofNat 4 (decompose c.setTemp.toInt).ones)).getLsbD k.val) ∧
    w.getLsbD l.face = lit ModeLit.face ∧ w.getLsbD l.feet = lit ModeLit.feet ∧
    w.getLsbD l.defrost = lit ModeLit.defrost ∧ w.getLsbD l.bg = lit ModeLit.bg ∧
    w.getLsbD l.defText = lit ModeLit.defText ∧
    w.getLsbD l.recircOn = c.recircOn ∧ w.getLsbD l.freshAir = !c.recircOn ∧ w.getLsbD l.ac = c.acOn ∧
    w.getLsbD l.unitF = c.displayUnit ∧ w.getLsbD l.unitC = !c.displayUnit ∧
    ∀ k, k ∉ l.positions → w.getLsbD k = false

/-- The serial word of R132 in any layout that meets R139: every signal's bit shows that signal and no other, and every
other bit is 0. -/
def Obligations.SerialWordCarriesEverySignal : Prop :=
  ∀ (p : Params) (c : ClimateState), p.SerLegal →
    let l := p.serLayout
    let w := serWordOf p c
    let a := decompose c.ambientTemp.toInt
    let s := decompose c.setTemp.toInt
    (∀ k : Fin 7, w.testBit (l.ambOnes.get k) = (seg7 (BitVec.ofNat 4 a.ones)).getLsbD k.val) ∧
    (∀ k : Fin 7, w.testBit (l.ambTens.get k) = (seg7 (BitVec.ofNat 4 a.tens)).getLsbD k.val) ∧
    (∀ k : Fin 7, w.testBit (l.setTens.get k) = (seg7 (BitVec.ofNat 4 s.tens)).getLsbD k.val) ∧
    w.testBit l.ambSign = a.neg ∧ w.testBit l.ambHundred = a.hund ∧
    w.testBit l.setSign = s.neg ∧ w.testBit l.setHundred = s.hund ∧
    (∀ k : Fin 11, w.testBit (l.gauge.get k) = decide (gaugeLevel c.setTemp.toInt = some k)) ∧
    ∀ k, k ∉ l.positions → w.testBit k = false

/-- R135, for every reachable state and every layout that meets R139: SET_SIGN and SET_HUNDRED are 0, the SET_TENS digit
is 6, 7, 8 or 9, and exactly one gauge bit, one of RECIRC_ON and FRESH_AIR, and one of UNIT_C and UNIT_F is set. -/
def Obligations.ReachableFramesShowOneGauge : Prop :=
  ∀ (p : Params) (s : State), p.SegLegal → p.SerLegal → Reachable p s →
    let w := serWordOf p s.climate
    let g := segWordOf p s.climate
    w.testBit p.serLayout.setSign = false ∧ w.testBit p.serLayout.setHundred = false ∧
    (∃ n : Nat, 6 ≤ n ∧ n ≤ 9 ∧ (decompose s.climate.setTemp.toInt).tens = n ∧
      ∀ k : Fin 7, w.testBit (p.serLayout.setTens.get k) = (seg7 (BitVec.ofNat 4 n)).getLsbD k.val) ∧
    (∃ k : Fin 11, ∀ j : Fin 11, w.testBit (p.serLayout.gauge.get j) = decide (j = k)) ∧
    g.getLsbD p.segLayout.recircOn = !(g.getLsbD p.segLayout.freshAir) ∧
    g.getLsbD p.segLayout.unitC = !(g.getLsbD p.segLayout.unitF)

/-- R137: the sixteen SEG7 entries are nonzero and pairwise distinct. -/
def Obligations.SegmentPatternsAreDistinct : Prop :=
  (∀ n : BitVec 4, seg7 n ≠ 0) ∧ ∀ m n : BitVec 4, seg7 m = seg7 n → m = n

/-- The ENCODE tick of R133: both words are latched from the ClimateState registers of this tick, and SEG_TX follows with
RET unchanged; in the default layout and after TGLAC from reset the segment word is 0x0001CC3F. -/
def Obligations.EncodeLatchesOneSnapshot : Prop :=
  (∀ (p : Params) (inp : Inputs) (s : State), inp.rst = false → s.phase = .encode →
    tick p inp s = .next { s with
      segWord := segWordOf p s.climate, serWord := serWordOf p s.climate, phase := .segTx,
      sync := syncStep p inp s.sync }) ∧
  ∀ (f : Nat → Option (BitVec 8)) (g : BitVec 12 → Int),
    segWordOf (Params.standard f g) ClimateState.reset = 0x00014C3F#32 ∧
    serWordOf (Params.standard f g) ClimateState.reset = 0x00027D1FBF ∧
    segWordOf (Params.standard f g) { ClimateState.reset with acOn := true } = 0x0001CC3F#32

/-- R52: SEG_BYTES bytes are sent, byte j being SEG_WORD[8j+7:8j], so read least significant first they are the low
8 * SEG_BYTES bits of SEG_WORD. -/
def Obligations.SegmentBytesAreLittleEndian : Prop :=
  ∀ (p : Params) (s : State), p.segBytes ≤ 4 →
    (segBytesSent p s).length = p.segBytes ∧
    (∀ (j : Nat) (b : BitVec 8), (segBytesSent p s)[j]? = some b →
      ∀ k, k < 8 → b.getLsbD k = s.segWord.getLsbD (8 * j + k)) ∧
    (segBytesSent p s).foldr (fun b rest => b.toNat + 256 * rest) 0 = s.segWord.toNat % 256 ^ p.segBytes

/-! ## Output ports -/

/-- Every output port of R40 as a function of the registers. R41: the LEDs mirror the ClimateState. R42: so do the st_
ports. R84, R138: gauge_level is the level of SET_TEMP, or 15. R36, R37, R173, R182: cmd_status, fatal, fault_cause,
sync_out and cmd_ready show their registers. R43, R168: the serial lines idle at clock 1 and data 0 outside SER_LO and SER_HI.
R160, R162: the requests belong to their phases. R179: the ADC request, the segment request and the serial frame exclude one
another. R152: die_temp is DIE_FN(die_code) in 16-bit two's complement. -/
def Obligations.OutputsMirrorTheRegisters : Prop :=
  ∀ (p : Params) (s : State) (d : BitVec 12),
    let o := outputs p s d
    let v := s.climate.setTemp.toInt
    ((∀ k, k < 5 → (o.ledMode.getLsbD k = true ↔ s.climate.mode.toNat = k)) ∧ o.ledAc = s.climate.acOn ∧
      o.ledRecirc = s.climate.recircOn ∧ (o.ledFan.getLsbD 0 = true ↔ s.climate.fanLevel = 0) ∧
      (o.ledFan.getLsbD 1 = true ↔ s.climate.fanLevel = 50) ∧ (o.ledFan.getLsbD 2 = true ↔ s.climate.fanLevel = 100)) ∧
    (o.stMode = s.climate.mode ∧ o.stAc = s.climate.acOn ∧ o.stRecirc = s.climate.recircOn ∧
      o.stFan = s.climate.fanLevel ∧ o.stSet = s.climate.setTemp ∧ o.stAmb = s.climate.ambientTemp ∧
      o.stUnit = s.climate.displayUnit) ∧
    ((60 ≤ v → v ≤ 90 → (o.gaugeLevel.toNat : Int) = (v - 60) * 10 / 30) ∧ (v < 60 ∨ 90 < v → o.gaugeLevel = 15) ∧
      (o.gaugeLevel.toNat ≤ 10 ∨ o.gaugeLevel = 15)) ∧
    (o.cmdStatus = s.cmdStatus ∧ (o.cmdReady = true ↔ s.phase = .idle) ∧ (o.syncOut = true ↔ s.sync.phase = .sPulse) ∧
      (o.fatal = true ↔ s.phase = .fatal) ∧ (o.faultCause = 0 ↔ s.faultCause = .none) ∧
      (o.faultCause = 1 ↔ s.faultCause = .adcFail) ∧ (o.faultCause = 2 ↔ s.faultCause = .segWriteFail) ∧
      (o.faultCause = 3 ↔ s.faultCause = .thermDomain)) ∧
    ((o.serClk = false ↔ s.phase = .serLo) ∧
      (s.phase = .serLo ∨ s.phase = .serHi → o.serData = s.serWord.testBit s.bitk) ∧
      (s.phase ≠ .serLo → s.phase ≠ .serHi → o.serClk = true ∧ o.serData = false)) ∧
    ((o.adcReq = true ↔ s.phase = .tempSample) ∧ o.adcCh = p.thermCh ∧ (o.segReq = true ↔ s.phase = .segTx) ∧
      o.segData = s.segWord ∧ o.segLen = BitVec.ofNat 3 p.segBytes ∧ o.lineDrive = s.lineMode) ∧
    ((o.adcReq = true → o.segReq = false ∧ o.serClk = true ∧ o.serData = false) ∧
      (o.segReq = true → o.adcReq = false ∧ o.serClk = true ∧ o.serData = false)) ∧
    o.dieTemp = BitVec.ofInt 16 (p.dieFn d)

/-! ## The temperature stage -/

/-- R141: adc_err stops the block before anything else; an answered tick accumulates one reading and counts it; the 128th
ends the phase; an unanswered tick changes nothing of MAIN; adc_req is 1 and adc_ch is THERM_CH throughout. -/
def Obligations.TempSampleAccumulatesOneReading : Prop :=
  ∀ (p : Params) (inp : Inputs) (s : State), inp.rst = false → s.phase = .tempSample →
    (inp.adcErr = true →
      tick p inp s = .next { s with phase := .fatal, faultCause := .adcFail, sync := syncStep p inp s.sync }) ∧
    (inp.adcErr = false → inp.adcValid = true →
      tick p inp s = .next { s with
        acc := s.acc + inp.adcCode.toNat % 2 ^ p.adcBits, cnt := s.cnt + 1,
        phase := if s.cnt.toNat + 1 = 128 then .tempConvert else .tempSample, sync := syncStep p inp s.sync }) ∧
    (inp.adcErr = false → inp.adcValid = false → tick p inp s = .next { s with sync := syncStep p inp s.sync }) ∧
    ∀ d, (outputs p s d).adcReq = true ∧ (outputs p s d).adcCh = p.thermCh

/-- R142: the mean of 128 readings rounded half up, saturating at 0xFFFF, and never saturating for a sum of 128 codes of
at most 16 bits. -/
def Obligations.AverageRoundsHalfUp : Prop :=
  (∀ acc : Nat, average acc = min ((acc + 64) / 128) 0xFFFF) ∧
  (∀ acc : Nat, acc ≤ 128 * 0xFFFF → 128 * average acc ≤ acc + 64 ∧ acc < 128 * average acc + 64) ∧
  average 0 = 0 ∧ average 63 = 0 ∧ average 64 = 1 ∧ average (128 * 2048 + 64) = 2049 ∧ average (128 * 2048 + 63) = 2048 ∧
  average (128 * 4095) = 4095

/-- The stage takes exactly 128 readings (R140, R156): from CNT = ACC = 0, through any ticks without reset or adc_err in
which 128 are answered, the last one among them, MAIN is in TEMP_CONVERT with ACC the sum of the answered readings, and
it was in TEMP_SAMPLE before. -/
def Obligations.StageSums128Readings : Prop :=
  ∀ (p : Params) (s : State) (ins : List Inputs) (last : Inputs), s.phase = .tempSample → s.cnt = 0 → s.acc = 0 →
    NoReset (ins ++ [last]) → (∀ i ∈ ins ++ [last], i.adcErr = false) → last.adcValid = true →
    (ins.filter (·.adcValid)).length = 127 →
    (∃ t, run p ins s = .next t ∧ t.phase = .tempSample) ∧
    run p (ins ++ [last]) s = .next { s with
      phase := .tempConvert, cnt := 128,
      acc := (((ins ++ [last]).filter (·.adcValid)).map fun i => i.adcCode.toNat % 2 ^ p.adcBits).sum,
      sync := syncRun p (ins ++ [last]) s.sync }

/-- The TEMP_CONVERT tick of R143: DOMAIN is fatal with AMBIENT_TEMP not written; a value is written to AMBIENT_TEMP,
CMD_STATUS is not written, and the scan pass starts at button 0. -/
def Obligations.TempConvertWritesAmbient : Prop :=
  ∀ (p : Params) (inp : Inputs) (s : State), inp.rst = false → s.phase = .tempConvert →
    (p.thermFn (average s.acc) = none →
      tick p inp s = .next { s with phase := .fatal, faultCause := .thermDomain, sync := syncStep p inp s.sync }) ∧
    ∀ v : BitVec 8, p.thermFn (average s.acc) = some v →
      tick p inp s = .next { s with
        climate := { s.climate with ambientTemp := v }, btn := 0, phase := .scanDrive,
        sync := syncStep p inp s.sync }

/-- R149 and R151 (a), (b) at the machine's level: with a THERM_FN that conforms to a calibration, TEMP_CONVERT raises
THERM_DOMAIN exactly on the codes 0, at least ADC_FULL, or with invT <= 0, and otherwise writes a value within one of
the quantized Beta-equation temperature, which is that temperature itself when the exact Celsius value is at least 0.01 from
every half-integer. -/
def Obligations.ConformingConversion : Prop :=
  ∀ (p : Params) (cal : Calibration) (inp : Inputs) (s : State), ThermDomain cal p.thermFn → ThermClose cal p.thermFn →
    inp.rst = false → s.phase = .tempConvert →
    let c := average s.acc
    ∃ t, tick p inp s = .next t ∧
      ((c = 0 ∨ cal.adcFull ≤ c ∨ inverseKelvin cal (resistance cal c) ≤ 0) →
        t.phase = .fatal ∧ t.faultCause = .thermDomain ∧ t.climate = s.climate) ∧
      (c ≠ 0 → c < cal.adcFull → 0 < inverseKelvin cal (resistance cal c) →
        t.phase = .scanDrive ∧
        |t.climate.ambientTemp.toInt - quantize (1 / inverseKelvin cal (resistance cal c) - 273.15)| ≤ 1 ∧
        (AwayFromTies (1 / inverseKelvin cal (resistance cal c) - 273.15) →
          t.climate.ambientTemp.toInt = quantize (1 / inverseKelvin cal (resistance cal c) - 273.15)))

/-- R150 to R152. The rounded formula over the reals has the corner values R150 lists, is never halfway between two tenths, and
fits 16-bit two's complement; port die_temp, read as a signed number, is the value of every DIE_FN that conforms (R151 (c)); and
the machine's DIE_FN conforms, whatever its free rounding is (log 6). -/
def Obligations.DieFnConforms : Prop :=
  (rndHalfAway (exactDie 0) = 4372 ∧ rndHalfAway (exactDie 876) = 271 ∧ rndHalfAway (exactDie 877) = 267 ∧
    rndHalfAway (exactDie 4095) = -14798) ∧
  (∀ (c : BitVec 12) (k : Int), exactDie c.toNat ≠ (k : ℝ) + 1 / 2) ∧
  (∀ c : BitVec 12, -14798 ≤ rndHalfAway (exactDie c.toNat) ∧ rndHalfAway (exactDie c.toNat) ≤ 4372) ∧
  (∀ (p : Params) (s : State) (c : BitVec 12), DieClose p.dieFn → (outputs p s c).dieTemp.toInt = p.dieFn c) ∧
  DieClose Params.machine.dieFn

/-! ## The buses -/

/-- R163, R164: seg_err stops the block before anything else; seg_done starts the serial frame at bit SER_WIDTH - 1; a tick
with neither changes nothing of MAIN. -/
def Obligations.SegmentWriteStartsTheFrame : Prop :=
  ∀ (p : Params) (inp : Inputs) (s : State), inp.rst = false → s.phase = .segTx →
    (inp.segErr = true →
      tick p inp s = .next { s with phase := .fatal, faultCause := .segWriteFail, sync := syncStep p inp s.sync }) ∧
    (inp.segErr = false → inp.segDone = true →
      tick p inp s = .next { s with
        bitk := p.serWidth - 1, timer := p.nClkLow, phase := .serLo, sync := syncStep p inp s.sync }) ∧
    (inp.segErr = false → inp.segDone = false → tick p inp s = .next { s with sync := syncStep p inp s.sync }) ∧
    ∀ d, (outputs p s d).segReq = true ∧ (outputs p s d).segData = s.segWord ∧
      (outputs p s d).segLen = BitVec.ofNat 3 p.segBytes

/-- R169, R170: the waveform of a frame. In tick j * P + k, for j < SER_WIDTH and k < P, ser_clk is low exactly for
k < N_CLK_LOW and ser_data is SER_WORD bit SER_WIDTH - 1 - j. From the tick after the SER_WIDTH * P ticks on, ser_clk is 1 and
ser_data is 0 again: in every later tick outside SER_LO and SER_HI, and these are all ticks until a next segment write is done,
which starts the next frame. -/
def Obligations.SerialWaveform : Prop :=
  ∀ (p : Params) (s : State) (ins : List Inputs), 1 ≤ p.nClkLow → 1 ≤ p.nClkHigh → 1 ≤ p.serWidth →
    s.phase = .serLo → s.timer = p.nClkLow → s.bitk = p.serWidth - 1 → ins.length = frameTicks p → NoReset ins →
    (∀ j k, j < p.serWidth → k < p.nClkLow + p.nClkHigh →
      ∃ o, (waveform p ins s)[j * (p.nClkLow + p.nClkHigh) + k]? = some o ∧
        o.serClk = decide (p.nClkLow ≤ k) ∧ o.serData = s.serWord.testBit (p.serWidth - 1 - j)) ∧
    ∃ t, run p ins s = .next t ∧ t.phase ≠ .serLo ∧ t.phase ≠ .serHi ∧
      ∀ (more : List Inputs) (u : State) (d : BitVec 12), run p more t = .next u →
        ((u.phase ≠ .serLo → u.phase ≠ .serHi → (outputs p u d).serClk = true ∧ (outputs p u d).serData = false) ∧
        ((∀ (k : Nat) (i : Inputs) (v : State), more[k]? = some i → run p (more.take k) t = .next v →
            v.phase = .segTx → i.segDone = false) →
          u.phase ≠ .serLo ∧ u.phase ≠ .serHi))

/-- R183 with R58, R165 and R177: a display refresh of 1 + L_SEG + SER_WIDTH * P ticks sends both words of the snapshot
ENCODE saw: in every SEG_TX tick seg_data is seg_word(S), a receiver that latches at rising clock edges takes exactly
SER_WIDTH bits that make ser_word(S), and MAIN returns as RET says with the ClimateState, BTN and LINE_MODE unchanged. -/
def Obligations.RefreshSendsOneSnapshot : Prop :=
  ∀ (p : Params) (s : State) (first done : Inputs) (waits frame : List Inputs), 1 ≤ p.nClkLow → 1 ≤ p.nClkHigh →
    1 ≤ p.serWidth → s.phase = .encode → NoReset (first :: (waits ++ done :: frame)) →
    (∀ i ∈ waits, i.segErr = false ∧ i.segDone = false) → done.segErr = false → done.segDone = true →
    frame.length = frameTicks p →
    let ins := first :: (waits ++ done :: frame)
    let wave := waveform p ins s
    (∀ k o, 1 ≤ k → k ≤ waits.length + 1 → wave[k]? = some o → o.segReq = true ∧ o.segData = segWordOf p s.climate) ∧
    (latchedBits true wave).length = p.serWidth ∧ receivedWord (latchedBits true wave) = serWordOf p s.climate ∧
    ∃ t, run p ins s = .next t ∧ t.climate = s.climate ∧ t.btn = s.btn ∧ t.lineMode = s.lineMode ∧ t.ret = s.ret ∧
      (s.ret = .idle → t.phase = .idle ∧ t.timer = p.nGap) ∧
      (s.ret = .rep → t.phase = .wait ∧ t.timer = p.nRepeat ∧ t.wnext = .scanRepchk)

/-- R172, R173, R174, R176. An edge is SYNC_PREV = 0 and sync_in = 1 for SYNC_EDGE = RISING, SYNC_PREV = 1 and sync_in = 0 for
FALLING. An edge in S_IDLE gives S_PULSE in the next N_SYNC_PULSE ticks and S_IDLE in the one after, whatever sync_in does in
them; without that edge S_IDLE stays, with SYNC_TIMER kept; SYNC_PREV follows sync_in throughout; and these are SYNC's registers
in every tick of the block without reset in which PHASE is not FATAL. sync_out is 1 exactly in S_PULSE. -/
def Obligations.SyncPulseLastsItsWidth : Prop :=
  (∀ (p : Params) (r : SyncRegs) (first : Inputs) (rest : List Inputs),
    let edge : Prop := (p.syncEdge = .rising ∧ r.prev = false ∧ first.syncIn = true) ∨
      (p.syncEdge = .falling ∧ r.prev = true ∧ first.syncIn = false)
    (1 ≤ p.nSyncPulse → r.phase = .sIdle → edge → rest.length = p.nSyncPulse →
      (∀ k, k < p.nSyncPulse → (syncRun p (first :: rest.take k) r).phase = .sPulse ∧
        (syncRun p (first :: rest.take k) r).timer = p.nSyncPulse - k) ∧
      (syncRun p (first :: rest) r).phase = .sIdle) ∧
    (r.phase = .sIdle → ¬ edge → syncStep p first r = { phase := .sIdle, timer := r.timer, prev := first.syncIn }) ∧
    ∀ (ins : List Inputs) (last : Inputs), (syncRun p (ins ++ [last]) r).prev = last.syncIn) ∧
  ∀ (p : Params) (inp : Inputs) (s : State), inp.rst = false → s.phase ≠ .fatal →
    ∃ t, tick p inp s = .next t ∧ t.sync = syncStep p inp s.sync ∧
      ∀ d, (outputs p t d).syncOut = true ↔ t.sync.phase = .sPulse

/-- R175: MAIN's registers do not depend on sync_in or on SYNC's registers at all, and SYNC's registers depend on nothing
but sync_in, its own registers, reset and whether PHASE is FATAL. -/
def Obligations.MainAndSyncAreIndependent : Prop :=
  (∀ (p : Params) (inp : Inputs) (s : State) (level : Bool) (r : SyncRegs), ∃ t u,
    tick p inp s = .next t ∧ tick p { inp with syncIn := level } { s with sync := r } = .next u ∧
      u = { t with sync := u.sync }) ∧
  ∀ (p : Params) (i j : Inputs) (s t : State), i.rst = j.rst → i.syncIn = j.syncIn → s.sync = t.sync →
    (s.phase = .fatal ↔ t.phase = .fatal) →
    ∃ u v, tick p i s = .next u ∧ tick p j t = .next v ∧ u.sync = v.sync

/-! ## The cycle, the fatal stop and reset -/

/-- R190: no input except rst and the ports of the current phase has any effect on MAIN: two ticks that agree on these
give the same registers of MAIN; and the host port has no effect on the sequencing of an IDLE tick, only on the ClimateState and
CMD_STATUS. -/
def Obligations.MainReadsOnlyItsPorts : Prop :=
  (∀ (p : Params) (i j : Inputs) (s : State), i.rst = j.rst → SameForMain s.phase i j → ∃ t u,
    tick p i s = .next t ∧ tick p j s = .next u ∧ u = { t with sync := u.sync }) ∧
  ∀ (p : Params) (i j : Inputs) (s : State), i.rst = j.rst → s.phase = .idle → ∃ t u,
    tick p i s = .next t ∧ tick p j s = .next u ∧
      u = { t with climate := u.climate, cmdStatus := u.cmdStatus, sync := u.sync }

/-- The successor table of PHASE of R191 with its conditions, complete: no other transition exists in a tick without reset. R191
lists the end of a timed phase at TIMER = 1; that TIMER = 0 ends it too is the model's reading of the "else" branches of R101,
R166, R167 and R181 (log 14). -/
def Obligations.PhaseSuccessorTable : Prop :=
  ∀ (p : Params) (inp : Inputs) (s t : State), inp.rst = false → tick p inp s = .next t →
    let low := inp.lineIn.getLsbD (senseOf p s.btn).val = false
    match s.phase with
    | .idle => if 1 < s.timer then t.phase = .idle else if p.tempStageEn then t.phase = .tempSample else t.phase = .scanDrive
    | .tempSample => if inp.adcErr then t.phase = .fatal
        else if inp.adcValid = true ∧ s.cnt.toNat + 1 = 128 then t.phase = .tempConvert else t.phase = .tempSample
    | .tempConvert => if p.thermFn (average s.acc) = none then t.phase = .fatal else t.phase = .scanDrive
    | .scanDrive => t.phase = .wait ∧ t.wnext = .scanSample
    | .wait => if 1 < s.timer then t.phase = .wait else t.phase = s.wnext.phase
    | .scanSample => (low → t.phase = .wait ∧ t.wnext = .scanConfirm) ∧ (¬ low → t.phase = .scanRestore)
    | .scanConfirm => (low → t.phase = .wait ∧ t.wnext = .scanHoldchk) ∧ (¬ low → t.phase = .scanRestore)
    | .scanHoldchk => (low → t.phase = .wait ∧ t.wnext = .scanRepchk) ∧ (¬ low → t.phase = .scanRestore)
    | .scanRepchk => (low → t.phase = .encode ∧ t.ret = .rep) ∧ (¬ low → t.phase = .scanRestore)
    | .scanRestore => if s.btn.toNat < 7 then t.phase = .scanDrive else t.phase = .encode ∧ t.ret = .idle
    | .encode => t.phase = .segTx
    | .segTx => if inp.segErr then t.phase = .fatal else if inp.segDone then t.phase = .serLo else t.phase = .segTx
    | .serLo => if 1 < s.timer then t.phase = .serLo else t.phase = .serHi
    | .serHi => if 1 < s.timer then t.phase = .serHi else if 0 < s.bitk then t.phase = .serLo
        else if s.ret = .idle then t.phase = .idle else t.phase = .wait ∧ t.wnext = .scanRepchk
    | .fatal => t.phase = .fatal

/-- R201, R202, R203: only TEMP_SAMPLE with adc_err, SEG_TX with seg_err and TEMP_CONVERT on DOMAIN enter FATAL, each with
its cause; the entering tick writes PHASE and FAULT_CAUSE and no other register of MAIN, while SYNC still steps. -/
def Obligations.FatalEntryIsPrecise : Prop :=
  ∀ (p : Params) (inp : Inputs) (s t : State), s.phase ≠ .fatal → tick p inp s = .next t → t.phase = .fatal →
    t = { s with phase := .fatal, faultCause := t.faultCause, sync := syncStep p inp s.sync } ∧
    ((s.phase = .tempSample ∧ inp.adcErr = true ∧ t.faultCause = .adcFail ∧ (outputs p t 0).faultCause = 1) ∨
      (s.phase = .segTx ∧ inp.segErr = true ∧ t.faultCause = .segWriteFail ∧ (outputs p t 0).faultCause = 2) ∨
      (s.phase = .tempConvert ∧ p.thermFn (average s.acc) = none ∧ t.faultCause = .thermDomain ∧
        (outputs p t 0).faultCause = 3))

/-- R204, R205: through any ticks without reset a FATAL state does not change in any register, SYNC's included; its
outputs are those R204 lists; and one tick of reset leaves it. -/
def Obligations.FatalFreezesUntilReset : Prop :=
  (∀ (p : Params) (s : State) (ins : List Inputs), s.phase = .fatal → NoReset ins → run p ins s = .next s) ∧
  (∀ (p : Params) (s : State) (d : BitVec 12), s.phase = .fatal →
    let o := outputs p s d
    o.fatal = true ∧ o.faultCause = s.faultCause.code ∧ o.cmdReady = false ∧ o.adcReq = false ∧ o.segReq = false ∧
      o.serClk = true ∧ o.serData = false ∧ o.syncOut = (s.sync.phase == .sPulse) ∧ o.lineDrive = s.lineMode) ∧
  ∀ (p : Params) (inp : Inputs) (s : State), s.phase = .fatal → inp.rst = true →
    ∃ t, tick p inp s = .next t ∧ t.phase = .idle ∧ t.faultCause = .none

/-- R44: in a tick with rst = 1, whatever the state, every register takes the value of the reset table, and the outputs of
the next tick are those the rule lists. -/
def Obligations.ResetLoadsTheResetTable : Prop :=
  ∀ (p : Params) (inp : Inputs) (s : State), inp.rst = true → ∃ t, tick p inp s = .next t ∧
    t.climate.mode = 4 ∧ t.climate.acOn = false ∧ t.climate.recircOn = false ∧ t.climate.fanLevel = 0 ∧
    t.climate.setTemp.toInt = 60 ∧ t.climate.ambientTemp = 0 ∧ t.climate.displayUnit = false ∧ t.lineMode = 0 ∧
    t.segWord = 0 ∧ t.serWord = 0 ∧ t.phase = .idle ∧ t.timer = p.nGap ∧ t.wnext = .scanSample ∧ t.btn = 0 ∧
    t.ret = .idle ∧ t.cnt = 0 ∧ t.acc = 0 ∧ t.bitk = 0 ∧ t.cmdStatus = false ∧ t.faultCause = .none ∧
    t.sync.phase = .sIdle ∧ t.sync.timer = 0 ∧ (t.sync.prev = true ↔ p.syncEdge = .rising) ∧
    ∀ d, (outputs p t d).lineDrive = 0 ∧ (outputs p t d).adcReq = false ∧ (outputs p t d).segReq = false ∧
      (outputs p t d).serClk = true ∧ (outputs p t d).serData = false ∧ (outputs p t d).syncOut = false ∧
      (outputs p t d).cmdReady = true ∧ (outputs p t d).cmdStatus = false ∧ (outputs p t d).fatal = false ∧
      (outputs p t d).ledMode = 0b10000 ∧ (outputs p t d).ledAc = false ∧ (outputs p t d).ledRecirc = false ∧
      (outputs p t d).ledFan = 0b001 ∧ (outputs p t d).gaugeLevel = 0

/-- The invariant of R45 with the register bounds holds after reset, for every legal parameter set and for the machine. -/
def Obligations.ResetMeetsTheBlockInvariant : Prop :=
  (∀ p : Params, p.Legal → Inv p (State.resetOf p)) ∧ Inv Params.machine State.reset

/-- R45 with the register bounds, kept by every tick of every legal parameter set from every state that meets it, and
by every step of the machine. -/
def Obligations.StepKeepsTheBlockInvariant : Prop :=
  (∀ (p : Params) (inp : Inputs) (s t : State), p.Legal → Inv p s → tick p inp s = .next t → Inv p t) ∧
  ∀ s t : State, Inv Params.machine s → step s = .next t → Inv Params.machine t

/-- R188 for a cycle in which nothing happens: from the start of IDLE, T_cycle = N_GAP + TEMP_STAGE_EN * 129 +
8 * (N_SETTLE + 3) + 2 + SER_WIDTH * P ticks with no button, no command and every answer at once return MAIN to the start of
IDLE, with both frame words encoded from the ClimateState and CMD_STATUS kept. With TEMP_STAGE_EN = 1 AMBIENT_TEMP is the
converted mean of the readings and nothing else of the ClimateState changes; with TEMP_STAGE_EN = 0 none of it changes (R187).
With the defaults that is 1635 ticks (R222). -/
def Obligations.UndisturbedCycle : Prop :=
  (∀ (p : Params) (s : State) (ins : List Inputs) (v : BitVec 8), p.TimesPositive → 1 ≤ p.serWidth →
    p.tempStageEn = true → s.phase = .idle → s.timer = p.nGap → s.lineMode = 0 → Undisturbed ins →
    ins.length = p.nGap + 129 + 8 * (p.nSettle + 3) + 2 + frameTicks p →
    p.thermFn (average ((((ins.drop p.nGap).take 128).map (adcReading p)).sum)) = some v →
    let c := { s.climate with ambientTemp := v }
    ∃ t, run p ins s = .next t ∧ t.phase = .idle ∧ t.timer = p.nGap ∧ t.climate = c ∧ t.lineMode = 0 ∧
      t.segWord = segWordOf p c ∧ t.serWord = serWordOf p c ∧ t.cmdStatus = s.cmdStatus) ∧
  (∀ (p : Params) (s : State) (ins : List Inputs), p.TimesPositive → 1 ≤ p.serWidth →
    p.tempStageEn = false → s.phase = .idle → s.timer = p.nGap → s.lineMode = 0 → Undisturbed ins →
    ins.length = p.nGap + 8 * (p.nSettle + 3) + 2 + frameTicks p →
    ∃ t, run p ins s = .next t ∧ t.phase = .idle ∧ t.timer = p.nGap ∧ t.climate = s.climate ∧ t.lineMode = 0 ∧
      t.segWord = segWordOf p s.climate ∧ t.serWord = serWordOf p s.climate ∧ t.cmdStatus = s.cmdStatus) ∧
  Params.machine.nGap + 129 + 8 * (Params.machine.nSettle + 3) + 2 + frameTicks Params.machine = 1635

/-- R72: the assembler emits at most one word a line, and an illegal word only for a `.word` line. R73: each pseudo-instruction
stands for its word, `PRESS b` for the action word of R76 for each of the eight codes. The text format where R72 and R73 are
silent (capital letters, blanks between tokens, the operand of PRESS as a code, four digits after `.word`) is the model's
choice (log 11), and every clause about a line of text rests on it. -/
def Obligations.AssemblerNeverEmitsIllegalWords : Prop :=
  (∀ (line : List Char) (ws : List Word), assembleLine line = some ws → ws.length ≤ 1) ∧
  (∀ (line : List Char) (ws : List Word) (w : Word), assembleLine line = some ws → w ∈ ws →
    (∃ i, decode w = .ok i) ∨ (tokensFrom [] (dropComment line)).head? = some ".word".toList) ∧
  assembleLine "FANOFF".toList = some [0x4000#16] ∧ assembleLine "FANLOW".toList = some [0x4032#16] ∧
  assembleLine "FANHIGH".toList = some [0x4064#16] ∧ assembleLine "TEMPUP".toList = some [0x5001#16] ∧
  assembleLine "TEMPDOWN".toList = some [0x5FFF#16] ∧ assembleLine "CELSIUS".toList = some [0x8000#16] ∧
  assembleLine "FAHRENHEIT".toList = some [0x8001#16] ∧
  (assembleLine "PRESS 0".toList = some [0x2000#16] ∧ assembleLine "PRESS 1".toList = some [0x1000#16] ∧
    assembleLine "PRESS 2".toList = some [0x5001#16] ∧ assembleLine "PRESS 3".toList = some [0x4000#16] ∧
    assembleLine "PRESS 4".toList = some [0x4032#16] ∧ assembleLine "PRESS 5".toList = some [0x4064#16] ∧
    assembleLine "PRESS 6".toList = some [0x3000#16] ∧ assembleLine "PRESS 7 ; TempDown".toList = some [0x5FFF#16]) ∧
  (∀ b : Button, assembleLine ("PRESS ".toList ++ [Char.ofNat (48 + b.code.toNat)]) = some [b.action]) ∧
  assembleLine "ADJSET -200".toList = some [0x5F38#16] ∧ assembleLine "SETFAN 51".toList = none ∧
  assembleLine ".word 0x4033".toList = some [0x4033#16]

/-- The last row of R188's durations, with R108, R112 and R117: a press that reads low at SCAN_SAMPLE, SCAN_CONFIRM and
SCAN_HOLDCHK and at k SCAN_REPCHK samples, and then released, is applied exactly 1 + k times, with one display refresh after each
re-application, and takes N_SETTLE + N_DEBOUNCE + N_HOLD + N_REPEAT + 6 + k * (D_REF + N_REPEAT + 1) ticks, where D_REF =
1 + L_SEG + SER_WIDTH * P and L_SEG may differ between refreshes. -/
def Obligations.HeldPressAppliesOncePerRepeat : Prop :=
  ∀ (p : Params) (s : State) (lead : List Inputs) (reps : List (List Inputs)) (segs : List Nat) (last restore : Inputs),
    p.TimesPositive → 1 ≤ p.serWidth → s.phase = .scanDrive → s.lineMode = 0 → NoReset (lead ++ [last, restore]) →
    lead.length = p.nSettle + p.nDebounce + p.nHold + p.nRepeat + 4 →
    (∀ i, lead[p.nSettle + 1]? = some i → i.lineIn.getLsbD (senseOf p s.btn).val = false) →
    (∀ i, lead[p.nSettle + p.nDebounce + 2]? = some i → i.lineIn.getLsbD (senseOf p s.btn).val = false) →
    (∀ i, lead[p.nSettle + p.nDebounce + p.nHold + 3]? = some i → i.lineIn.getLsbD (senseOf p s.btn).val = false) →
    List.Forall₂ (Repetition p s.btn) segs reps → last.lineIn.getLsbD (senseOf p s.btn).val = true →
    let ins := lead ++ (reps.flatten ++ [last, restore])
    ins.length = p.nSettle + p.nDebounce + p.nHold + p.nRepeat + 6 +
      (segs.map fun seg => (1 + seg + frameTicks p) + p.nRepeat + 1).sum ∧
    ∃ (i : Instr) (u t : State), decode (buttonOf s.btn).action = .ok i ∧
      execAll (List.replicate (1 + reps.length) i) s = .next u ∧
      run p ins s = .next t ∧ t.climate = u.climate ∧ t.cmdStatus = s.cmdStatus ∧ t.lineMode = 0 ∧
      (s.btn.toNat < 7 → t.phase = .scanDrive ∧ t.btn.toNat = s.btn.toNat + 1) ∧
      (s.btn.toNat = 7 → t.phase = .encode ∧ t.ret = .idle ∧ t.btn = s.btn)
end

