-- ==== Sys2Proof/Laws/State.lean ====
section
/-! SUPPORT. One lemma per field per update of State, each true by rfl, so that no proof unfolds a record update. -/

namespace Sys2Proof.Machine

variable (s : State)

/-! goto -/

@[simp] theorem goto_climate (ph : Phase) : (s.goto ph).climate = s.climate := rfl
@[simp] theorem goto_lineMode (ph : Phase) : (s.goto ph).lineMode = s.lineMode := rfl
@[simp] theorem goto_segWord (ph : Phase) : (s.goto ph).segWord = s.segWord := rfl
@[simp] theorem goto_serWord (ph : Phase) : (s.goto ph).serWord = s.serWord := rfl
@[simp] theorem goto_phase (ph : Phase) : (s.goto ph).phase = ph := rfl
@[simp] theorem goto_timer (ph : Phase) : (s.goto ph).timer = s.timer := rfl
@[simp] theorem goto_wnext (ph : Phase) : (s.goto ph).wnext = s.wnext := rfl
@[simp] theorem goto_btn (ph : Phase) : (s.goto ph).btn = s.btn := rfl
@[simp] theorem goto_ret (ph : Phase) : (s.goto ph).ret = s.ret := rfl
@[simp] theorem goto_cnt (ph : Phase) : (s.goto ph).cnt = s.cnt := rfl
@[simp] theorem goto_acc (ph : Phase) : (s.goto ph).acc = s.acc := rfl
@[simp] theorem goto_bitk (ph : Phase) : (s.goto ph).bitk = s.bitk := rfl
@[simp] theorem goto_cmdStatus (ph : Phase) : (s.goto ph).cmdStatus = s.cmdStatus := rfl
@[simp] theorem goto_faultCause (ph : Phase) : (s.goto ph).faultCause = s.faultCause := rfl
@[simp] theorem goto_sync (ph : Phase) : (s.goto ph).sync = s.sync := rfl
@[simp] theorem goto_pending (ph : Phase) : (s.goto ph).pending = s.pending := rfl
@[simp] theorem goto_tickNo (ph : Phase) : (s.goto ph).tickNo = s.tickNo := rfl

/-! loadTimer -/

@[simp] theorem loadTimer_climate (n : Nat) : (s.loadTimer n).climate = s.climate := rfl
@[simp] theorem loadTimer_lineMode (n : Nat) : (s.loadTimer n).lineMode = s.lineMode := rfl
@[simp] theorem loadTimer_segWord (n : Nat) : (s.loadTimer n).segWord = s.segWord := rfl
@[simp] theorem loadTimer_serWord (n : Nat) : (s.loadTimer n).serWord = s.serWord := rfl
@[simp] theorem loadTimer_phase (n : Nat) : (s.loadTimer n).phase = s.phase := rfl
@[simp] theorem loadTimer_timer (n : Nat) : (s.loadTimer n).timer = n := rfl
@[simp] theorem loadTimer_wnext (n : Nat) : (s.loadTimer n).wnext = s.wnext := rfl
@[simp] theorem loadTimer_btn (n : Nat) : (s.loadTimer n).btn = s.btn := rfl
@[simp] theorem loadTimer_ret (n : Nat) : (s.loadTimer n).ret = s.ret := rfl
@[simp] theorem loadTimer_cnt (n : Nat) : (s.loadTimer n).cnt = s.cnt := rfl
@[simp] theorem loadTimer_acc (n : Nat) : (s.loadTimer n).acc = s.acc := rfl
@[simp] theorem loadTimer_bitk (n : Nat) : (s.loadTimer n).bitk = s.bitk := rfl
@[simp] theorem loadTimer_cmdStatus (n : Nat) : (s.loadTimer n).cmdStatus = s.cmdStatus := rfl
@[simp] theorem loadTimer_faultCause (n : Nat) : (s.loadTimer n).faultCause = s.faultCause := rfl
@[simp] theorem loadTimer_sync (n : Nat) : (s.loadTimer n).sync = s.sync := rfl
@[simp] theorem loadTimer_pending (n : Nat) : (s.loadTimer n).pending = s.pending := rfl
@[simp] theorem loadTimer_tickNo (n : Nat) : (s.loadTimer n).tickNo = s.tickNo := rfl

/-! startWait -/

@[simp] theorem startWait_climate (n : Nat) (w : WaitNext) : (s.startWait n w).climate = s.climate := rfl
@[simp] theorem startWait_lineMode (n : Nat) (w : WaitNext) : (s.startWait n w).lineMode = s.lineMode := rfl
@[simp] theorem startWait_segWord (n : Nat) (w : WaitNext) : (s.startWait n w).segWord = s.segWord := rfl
@[simp] theorem startWait_serWord (n : Nat) (w : WaitNext) : (s.startWait n w).serWord = s.serWord := rfl
@[simp] theorem startWait_phase (n : Nat) (w : WaitNext) : (s.startWait n w).phase = .wait := rfl
@[simp] theorem startWait_timer (n : Nat) (w : WaitNext) : (s.startWait n w).timer = n := rfl
@[simp] theorem startWait_wnext (n : Nat) (w : WaitNext) : (s.startWait n w).wnext = w := rfl
@[simp] theorem startWait_btn (n : Nat) (w : WaitNext) : (s.startWait n w).btn = s.btn := rfl
@[simp] theorem startWait_ret (n : Nat) (w : WaitNext) : (s.startWait n w).ret = s.ret := rfl
@[simp] theorem startWait_cnt (n : Nat) (w : WaitNext) : (s.startWait n w).cnt = s.cnt := rfl
@[simp] theorem startWait_acc (n : Nat) (w : WaitNext) : (s.startWait n w).acc = s.acc := rfl
@[simp] theorem startWait_bitk (n : Nat) (w : WaitNext) : (s.startWait n w).bitk = s.bitk := rfl
@[simp] theorem startWait_cmdStatus (n : Nat) (w : WaitNext) : (s.startWait n w).cmdStatus = s.cmdStatus := rfl
@[simp] theorem startWait_faultCause (n : Nat) (w : WaitNext) : (s.startWait n w).faultCause = s.faultCause := rfl
@[simp] theorem startWait_sync (n : Nat) (w : WaitNext) : (s.startWait n w).sync = s.sync := rfl
@[simp] theorem startWait_pending (n : Nat) (w : WaitNext) : (s.startWait n w).pending = s.pending := rfl
@[simp] theorem startWait_tickNo (n : Nat) (w : WaitNext) : (s.startWait n w).tickNo = s.tickNo := rfl

/-! writeMode -/

@[simp] theorem writeMode_climate (m : BitVec 3) : (s.writeMode m).climate = { s.climate with mode := m } := rfl
@[simp] theorem writeMode_lineMode (m : BitVec 3) : (s.writeMode m).lineMode = s.lineMode := rfl
@[simp] theorem writeMode_segWord (m : BitVec 3) : (s.writeMode m).segWord = s.segWord := rfl
@[simp] theorem writeMode_serWord (m : BitVec 3) : (s.writeMode m).serWord = s.serWord := rfl
@[simp] theorem writeMode_phase (m : BitVec 3) : (s.writeMode m).phase = s.phase := rfl
@[simp] theorem writeMode_timer (m : BitVec 3) : (s.writeMode m).timer = s.timer := rfl
@[simp] theorem writeMode_wnext (m : BitVec 3) : (s.writeMode m).wnext = s.wnext := rfl
@[simp] theorem writeMode_btn (m : BitVec 3) : (s.writeMode m).btn = s.btn := rfl
@[simp] theorem writeMode_ret (m : BitVec 3) : (s.writeMode m).ret = s.ret := rfl
@[simp] theorem writeMode_cnt (m : BitVec 3) : (s.writeMode m).cnt = s.cnt := rfl
@[simp] theorem writeMode_acc (m : BitVec 3) : (s.writeMode m).acc = s.acc := rfl
@[simp] theorem writeMode_bitk (m : BitVec 3) : (s.writeMode m).bitk = s.bitk := rfl
@[simp] theorem writeMode_cmdStatus (m : BitVec 3) : (s.writeMode m).cmdStatus = s.cmdStatus := rfl
@[simp] theorem writeMode_faultCause (m : BitVec 3) : (s.writeMode m).faultCause = s.faultCause := rfl
@[simp] theorem writeMode_sync (m : BitVec 3) : (s.writeMode m).sync = s.sync := rfl
@[simp] theorem writeMode_pending (m : BitVec 3) : (s.writeMode m).pending = s.pending := rfl
@[simp] theorem writeMode_tickNo (m : BitVec 3) : (s.writeMode m).tickNo = s.tickNo := rfl

/-! writeAc -/

@[simp] theorem writeAc_climate (b : Bool) : (s.writeAc b).climate = { s.climate with acOn := b } := rfl
@[simp] theorem writeAc_lineMode (b : Bool) : (s.writeAc b).lineMode = s.lineMode := rfl
@[simp] theorem writeAc_segWord (b : Bool) : (s.writeAc b).segWord = s.segWord := rfl
@[simp] theorem writeAc_serWord (b : Bool) : (s.writeAc b).serWord = s.serWord := rfl
@[simp] theorem writeAc_phase (b : Bool) : (s.writeAc b).phase = s.phase := rfl
@[simp] theorem writeAc_timer (b : Bool) : (s.writeAc b).timer = s.timer := rfl
@[simp] theorem writeAc_wnext (b : Bool) : (s.writeAc b).wnext = s.wnext := rfl
@[simp] theorem writeAc_btn (b : Bool) : (s.writeAc b).btn = s.btn := rfl
@[simp] theorem writeAc_ret (b : Bool) : (s.writeAc b).ret = s.ret := rfl
@[simp] theorem writeAc_cnt (b : Bool) : (s.writeAc b).cnt = s.cnt := rfl
@[simp] theorem writeAc_acc (b : Bool) : (s.writeAc b).acc = s.acc := rfl
@[simp] theorem writeAc_bitk (b : Bool) : (s.writeAc b).bitk = s.bitk := rfl
@[simp] theorem writeAc_cmdStatus (b : Bool) : (s.writeAc b).cmdStatus = s.cmdStatus := rfl
@[simp] theorem writeAc_faultCause (b : Bool) : (s.writeAc b).faultCause = s.faultCause := rfl
@[simp] theorem writeAc_sync (b : Bool) : (s.writeAc b).sync = s.sync := rfl
@[simp] theorem writeAc_pending (b : Bool) : (s.writeAc b).pending = s.pending := rfl
@[simp] theorem writeAc_tickNo (b : Bool) : (s.writeAc b).tickNo = s.tickNo := rfl

/-! writeRecirc -/

@[simp] theorem writeRecirc_climate (b : Bool) : (s.writeRecirc b).climate = { s.climate with recircOn := b } := rfl
@[simp] theorem writeRecirc_lineMode (b : Bool) : (s.writeRecirc b).lineMode = s.lineMode := rfl
@[simp] theorem writeRecirc_segWord (b : Bool) : (s.writeRecirc b).segWord = s.segWord := rfl
@[simp] theorem writeRecirc_serWord (b : Bool) : (s.writeRecirc b).serWord = s.serWord := rfl
@[simp] theorem writeRecirc_phase (b : Bool) : (s.writeRecirc b).phase = s.phase := rfl
@[simp] theorem writeRecirc_timer (b : Bool) : (s.writeRecirc b).timer = s.timer := rfl
@[simp] theorem writeRecirc_wnext (b : Bool) : (s.writeRecirc b).wnext = s.wnext := rfl
@[simp] theorem writeRecirc_btn (b : Bool) : (s.writeRecirc b).btn = s.btn := rfl
@[simp] theorem writeRecirc_ret (b : Bool) : (s.writeRecirc b).ret = s.ret := rfl
@[simp] theorem writeRecirc_cnt (b : Bool) : (s.writeRecirc b).cnt = s.cnt := rfl
@[simp] theorem writeRecirc_acc (b : Bool) : (s.writeRecirc b).acc = s.acc := rfl
@[simp] theorem writeRecirc_bitk (b : Bool) : (s.writeRecirc b).bitk = s.bitk := rfl
@[simp] theorem writeRecirc_cmdStatus (b : Bool) : (s.writeRecirc b).cmdStatus = s.cmdStatus := rfl
@[simp] theorem writeRecirc_faultCause (b : Bool) : (s.writeRecirc b).faultCause = s.faultCause := rfl
@[simp] theorem writeRecirc_sync (b : Bool) : (s.writeRecirc b).sync = s.sync := rfl
@[simp] theorem writeRecirc_pending (b : Bool) : (s.writeRecirc b).pending = s.pending := rfl
@[simp] theorem writeRecirc_tickNo (b : Bool) : (s.writeRecirc b).tickNo = s.tickNo := rfl

/-! writeFan -/

@[simp] theorem writeFan_climate (v : BitVec 8) : (s.writeFan v).climate = { s.climate with fanLevel := v } := rfl
@[simp] theorem writeFan_lineMode (v : BitVec 8) : (s.writeFan v).lineMode = s.lineMode := rfl
@[simp] theorem writeFan_segWord (v : BitVec 8) : (s.writeFan v).segWord = s.segWord := rfl
@[simp] theorem writeFan_serWord (v : BitVec 8) : (s.writeFan v).serWord = s.serWord := rfl
@[simp] theorem writeFan_phase (v : BitVec 8) : (s.writeFan v).phase = s.phase := rfl
@[simp] theorem writeFan_timer (v : BitVec 8) : (s.writeFan v).timer = s.timer := rfl
@[simp] theorem writeFan_wnext (v : BitVec 8) : (s.writeFan v).wnext = s.wnext := rfl
@[simp] theorem writeFan_btn (v : BitVec 8) : (s.writeFan v).btn = s.btn := rfl
@[simp] theorem writeFan_ret (v : BitVec 8) : (s.writeFan v).ret = s.ret := rfl
@[simp] theorem writeFan_cnt (v : BitVec 8) : (s.writeFan v).cnt = s.cnt := rfl
@[simp] theorem writeFan_acc (v : BitVec 8) : (s.writeFan v).acc = s.acc := rfl
@[simp] theorem writeFan_bitk (v : BitVec 8) : (s.writeFan v).bitk = s.bitk := rfl
@[simp] theorem writeFan_cmdStatus (v : BitVec 8) : (s.writeFan v).cmdStatus = s.cmdStatus := rfl
@[simp] theorem writeFan_faultCause (v : BitVec 8) : (s.writeFan v).faultCause = s.faultCause := rfl
@[simp] theorem writeFan_sync (v : BitVec 8) : (s.writeFan v).sync = s.sync := rfl
@[simp] theorem writeFan_pending (v : BitVec 8) : (s.writeFan v).pending = s.pending := rfl
@[simp] theorem writeFan_tickNo (v : BitVec 8) : (s.writeFan v).tickNo = s.tickNo := rfl

/-! writeSetTemp -/

@[simp] theorem writeSetTemp_climate (v : BitVec 8) : (s.writeSetTemp v).climate = { s.climate with setTemp := v } := rfl
@[simp] theorem writeSetTemp_lineMode (v : BitVec 8) : (s.writeSetTemp v).lineMode = s.lineMode := rfl
@[simp] theorem writeSetTemp_segWord (v : BitVec 8) : (s.writeSetTemp v).segWord = s.segWord := rfl
@[simp] theorem writeSetTemp_serWord (v : BitVec 8) : (s.writeSetTemp v).serWord = s.serWord := rfl
@[simp] theorem writeSetTemp_phase (v : BitVec 8) : (s.writeSetTemp v).phase = s.phase := rfl
@[simp] theorem writeSetTemp_timer (v : BitVec 8) : (s.writeSetTemp v).timer = s.timer := rfl
@[simp] theorem writeSetTemp_wnext (v : BitVec 8) : (s.writeSetTemp v).wnext = s.wnext := rfl
@[simp] theorem writeSetTemp_btn (v : BitVec 8) : (s.writeSetTemp v).btn = s.btn := rfl
@[simp] theorem writeSetTemp_ret (v : BitVec 8) : (s.writeSetTemp v).ret = s.ret := rfl
@[simp] theorem writeSetTemp_cnt (v : BitVec 8) : (s.writeSetTemp v).cnt = s.cnt := rfl
@[simp] theorem writeSetTemp_acc (v : BitVec 8) : (s.writeSetTemp v).acc = s.acc := rfl
@[simp] theorem writeSetTemp_bitk (v : BitVec 8) : (s.writeSetTemp v).bitk = s.bitk := rfl
@[simp] theorem writeSetTemp_cmdStatus (v : BitVec 8) : (s.writeSetTemp v).cmdStatus = s.cmdStatus := rfl
@[simp] theorem writeSetTemp_faultCause (v : BitVec 8) : (s.writeSetTemp v).faultCause = s.faultCause := rfl
@[simp] theorem writeSetTemp_sync (v : BitVec 8) : (s.writeSetTemp v).sync = s.sync := rfl
@[simp] theorem writeSetTemp_pending (v : BitVec 8) : (s.writeSetTemp v).pending = s.pending := rfl
@[simp] theorem writeSetTemp_tickNo (v : BitVec 8) : (s.writeSetTemp v).tickNo = s.tickNo := rfl

/-! writeAmbient -/

@[simp] theorem writeAmbient_climate (v : BitVec 8) : (s.writeAmbient v).climate = { s.climate with ambientTemp := v } := rfl
@[simp] theorem writeAmbient_lineMode (v : BitVec 8) : (s.writeAmbient v).lineMode = s.lineMode := rfl
@[simp] theorem writeAmbient_segWord (v : BitVec 8) : (s.writeAmbient v).segWord = s.segWord := rfl
@[simp] theorem writeAmbient_serWord (v : BitVec 8) : (s.writeAmbient v).serWord = s.serWord := rfl
@[simp] theorem writeAmbient_phase (v : BitVec 8) : (s.writeAmbient v).phase = s.phase := rfl
@[simp] theorem writeAmbient_timer (v : BitVec 8) : (s.writeAmbient v).timer = s.timer := rfl
@[simp] theorem writeAmbient_wnext (v : BitVec 8) : (s.writeAmbient v).wnext = s.wnext := rfl
@[simp] theorem writeAmbient_btn (v : BitVec 8) : (s.writeAmbient v).btn = s.btn := rfl
@[simp] theorem writeAmbient_ret (v : BitVec 8) : (s.writeAmbient v).ret = s.ret := rfl
@[simp] theorem writeAmbient_cnt (v : BitVec 8) : (s.writeAmbient v).cnt = s.cnt := rfl
@[simp] theorem writeAmbient_acc (v : BitVec 8) : (s.writeAmbient v).acc = s.acc := rfl
@[simp] theorem writeAmbient_bitk (v : BitVec 8) : (s.writeAmbient v).bitk = s.bitk := rfl
@[simp] theorem writeAmbient_cmdStatus (v : BitVec 8) : (s.writeAmbient v).cmdStatus = s.cmdStatus := rfl
@[simp] theorem writeAmbient_faultCause (v : BitVec 8) : (s.writeAmbient v).faultCause = s.faultCause := rfl
@[simp] theorem writeAmbient_sync (v : BitVec 8) : (s.writeAmbient v).sync = s.sync := rfl
@[simp] theorem writeAmbient_pending (v : BitVec 8) : (s.writeAmbient v).pending = s.pending := rfl
@[simp] theorem writeAmbient_tickNo (v : BitVec 8) : (s.writeAmbient v).tickNo = s.tickNo := rfl

/-! writeUnit -/

@[simp] theorem writeUnit_climate (b : Bool) : (s.writeUnit b).climate = { s.climate with displayUnit := b } := rfl
@[simp] theorem writeUnit_lineMode (b : Bool) : (s.writeUnit b).lineMode = s.lineMode := rfl
@[simp] theorem writeUnit_segWord (b : Bool) : (s.writeUnit b).segWord = s.segWord := rfl
@[simp] theorem writeUnit_serWord (b : Bool) : (s.writeUnit b).serWord = s.serWord := rfl
@[simp] theorem writeUnit_phase (b : Bool) : (s.writeUnit b).phase = s.phase := rfl
@[simp] theorem writeUnit_timer (b : Bool) : (s.writeUnit b).timer = s.timer := rfl
@[simp] theorem writeUnit_wnext (b : Bool) : (s.writeUnit b).wnext = s.wnext := rfl
@[simp] theorem writeUnit_btn (b : Bool) : (s.writeUnit b).btn = s.btn := rfl
@[simp] theorem writeUnit_ret (b : Bool) : (s.writeUnit b).ret = s.ret := rfl
@[simp] theorem writeUnit_cnt (b : Bool) : (s.writeUnit b).cnt = s.cnt := rfl
@[simp] theorem writeUnit_acc (b : Bool) : (s.writeUnit b).acc = s.acc := rfl
@[simp] theorem writeUnit_bitk (b : Bool) : (s.writeUnit b).bitk = s.bitk := rfl
@[simp] theorem writeUnit_cmdStatus (b : Bool) : (s.writeUnit b).cmdStatus = s.cmdStatus := rfl
@[simp] theorem writeUnit_faultCause (b : Bool) : (s.writeUnit b).faultCause = s.faultCause := rfl
@[simp] theorem writeUnit_sync (b : Bool) : (s.writeUnit b).sync = s.sync := rfl
@[simp] theorem writeUnit_pending (b : Bool) : (s.writeUnit b).pending = s.pending := rfl
@[simp] theorem writeUnit_tickNo (b : Bool) : (s.writeUnit b).tickNo = s.tickNo := rfl

/-! driveLine -/

@[simp] theorem driveLine_climate (i : Fin 6) : (s.driveLine i).climate = s.climate := rfl
@[simp] theorem driveLine_lineMode (i : Fin 6) : (s.driveLine i).lineMode = s.lineMode ||| lineBit i := rfl
@[simp] theorem driveLine_segWord (i : Fin 6) : (s.driveLine i).segWord = s.segWord := rfl
@[simp] theorem driveLine_serWord (i : Fin 6) : (s.driveLine i).serWord = s.serWord := rfl
@[simp] theorem driveLine_phase (i : Fin 6) : (s.driveLine i).phase = s.phase := rfl
@[simp] theorem driveLine_timer (i : Fin 6) : (s.driveLine i).timer = s.timer := rfl
@[simp] theorem driveLine_wnext (i : Fin 6) : (s.driveLine i).wnext = s.wnext := rfl
@[simp] theorem driveLine_btn (i : Fin 6) : (s.driveLine i).btn = s.btn := rfl
@[simp] theorem driveLine_ret (i : Fin 6) : (s.driveLine i).ret = s.ret := rfl
@[simp] theorem driveLine_cnt (i : Fin 6) : (s.driveLine i).cnt = s.cnt := rfl
@[simp] theorem driveLine_acc (i : Fin 6) : (s.driveLine i).acc = s.acc := rfl
@[simp] theorem driveLine_bitk (i : Fin 6) : (s.driveLine i).bitk = s.bitk := rfl
@[simp] theorem driveLine_cmdStatus (i : Fin 6) : (s.driveLine i).cmdStatus = s.cmdStatus := rfl
@[simp] theorem driveLine_faultCause (i : Fin 6) : (s.driveLine i).faultCause = s.faultCause := rfl
@[simp] theorem driveLine_sync (i : Fin 6) : (s.driveLine i).sync = s.sync := rfl
@[simp] theorem driveLine_pending (i : Fin 6) : (s.driveLine i).pending = s.pending := rfl
@[simp] theorem driveLine_tickNo (i : Fin 6) : (s.driveLine i).tickNo = s.tickNo := rfl

/-! releaseLine -/

@[simp] theorem releaseLine_climate (i : Fin 6) : (s.releaseLine i).climate = s.climate := rfl
@[simp] theorem releaseLine_lineMode (i : Fin 6) : (s.releaseLine i).lineMode = s.lineMode &&& ~~~(lineBit i) := rfl
@[simp] theorem releaseLine_segWord (i : Fin 6) : (s.releaseLine i).segWord = s.segWord := rfl
@[simp] theorem releaseLine_serWord (i : Fin 6) : (s.releaseLine i).serWord = s.serWord := rfl
@[simp] theorem releaseLine_phase (i : Fin 6) : (s.releaseLine i).phase = s.phase := rfl
@[simp] theorem releaseLine_timer (i : Fin 6) : (s.releaseLine i).timer = s.timer := rfl
@[simp] theorem releaseLine_wnext (i : Fin 6) : (s.releaseLine i).wnext = s.wnext := rfl
@[simp] theorem releaseLine_btn (i : Fin 6) : (s.releaseLine i).btn = s.btn := rfl
@[simp] theorem releaseLine_ret (i : Fin 6) : (s.releaseLine i).ret = s.ret := rfl
@[simp] theorem releaseLine_cnt (i : Fin 6) : (s.releaseLine i).cnt = s.cnt := rfl
@[simp] theorem releaseLine_acc (i : Fin 6) : (s.releaseLine i).acc = s.acc := rfl
@[simp] theorem releaseLine_bitk (i : Fin 6) : (s.releaseLine i).bitk = s.bitk := rfl
@[simp] theorem releaseLine_cmdStatus (i : Fin 6) : (s.releaseLine i).cmdStatus = s.cmdStatus := rfl
@[simp] theorem releaseLine_faultCause (i : Fin 6) : (s.releaseLine i).faultCause = s.faultCause := rfl
@[simp] theorem releaseLine_sync (i : Fin 6) : (s.releaseLine i).sync = s.sync := rfl
@[simp] theorem releaseLine_pending (i : Fin 6) : (s.releaseLine i).pending = s.pending := rfl
@[simp] theorem releaseLine_tickNo (i : Fin 6) : (s.releaseLine i).tickNo = s.tickNo := rfl

/-! writeBtn -/

@[simp] theorem writeBtn_climate (b : BitVec 3) : (s.writeBtn b).climate = s.climate := rfl
@[simp] theorem writeBtn_lineMode (b : BitVec 3) : (s.writeBtn b).lineMode = s.lineMode := rfl
@[simp] theorem writeBtn_segWord (b : BitVec 3) : (s.writeBtn b).segWord = s.segWord := rfl
@[simp] theorem writeBtn_serWord (b : BitVec 3) : (s.writeBtn b).serWord = s.serWord := rfl
@[simp] theorem writeBtn_phase (b : BitVec 3) : (s.writeBtn b).phase = s.phase := rfl
@[simp] theorem writeBtn_timer (b : BitVec 3) : (s.writeBtn b).timer = s.timer := rfl
@[simp] theorem writeBtn_wnext (b : BitVec 3) : (s.writeBtn b).wnext = s.wnext := rfl
@[simp] theorem writeBtn_btn (b : BitVec 3) : (s.writeBtn b).btn = b := rfl
@[simp] theorem writeBtn_ret (b : BitVec 3) : (s.writeBtn b).ret = s.ret := rfl
@[simp] theorem writeBtn_cnt (b : BitVec 3) : (s.writeBtn b).cnt = s.cnt := rfl
@[simp] theorem writeBtn_acc (b : BitVec 3) : (s.writeBtn b).acc = s.acc := rfl
@[simp] theorem writeBtn_bitk (b : BitVec 3) : (s.writeBtn b).bitk = s.bitk := rfl
@[simp] theorem writeBtn_cmdStatus (b : BitVec 3) : (s.writeBtn b).cmdStatus = s.cmdStatus := rfl
@[simp] theorem writeBtn_faultCause (b : BitVec 3) : (s.writeBtn b).faultCause = s.faultCause := rfl
@[simp] theorem writeBtn_sync (b : BitVec 3) : (s.writeBtn b).sync = s.sync := rfl
@[simp] theorem writeBtn_pending (b : BitVec 3) : (s.writeBtn b).pending = s.pending := rfl
@[simp] theorem writeBtn_tickNo (b : BitVec 3) : (s.writeBtn b).tickNo = s.tickNo := rfl

/-! writeRet -/

@[simp] theorem writeRet_climate (r : Ret) : (s.writeRet r).climate = s.climate := rfl
@[simp] theorem writeRet_lineMode (r : Ret) : (s.writeRet r).lineMode = s.lineMode := rfl
@[simp] theorem writeRet_segWord (r : Ret) : (s.writeRet r).segWord = s.segWord := rfl
@[simp] theorem writeRet_serWord (r : Ret) : (s.writeRet r).serWord = s.serWord := rfl
@[simp] theorem writeRet_phase (r : Ret) : (s.writeRet r).phase = s.phase := rfl
@[simp] theorem writeRet_timer (r : Ret) : (s.writeRet r).timer = s.timer := rfl
@[simp] theorem writeRet_wnext (r : Ret) : (s.writeRet r).wnext = s.wnext := rfl
@[simp] theorem writeRet_btn (r : Ret) : (s.writeRet r).btn = s.btn := rfl
@[simp] theorem writeRet_ret (r : Ret) : (s.writeRet r).ret = r := rfl
@[simp] theorem writeRet_cnt (r : Ret) : (s.writeRet r).cnt = s.cnt := rfl
@[simp] theorem writeRet_acc (r : Ret) : (s.writeRet r).acc = s.acc := rfl
@[simp] theorem writeRet_bitk (r : Ret) : (s.writeRet r).bitk = s.bitk := rfl
@[simp] theorem writeRet_cmdStatus (r : Ret) : (s.writeRet r).cmdStatus = s.cmdStatus := rfl
@[simp] theorem writeRet_faultCause (r : Ret) : (s.writeRet r).faultCause = s.faultCause := rfl
@[simp] theorem writeRet_sync (r : Ret) : (s.writeRet r).sync = s.sync := rfl
@[simp] theorem writeRet_pending (r : Ret) : (s.writeRet r).pending = s.pending := rfl
@[simp] theorem writeRet_tickNo (r : Ret) : (s.writeRet r).tickNo = s.tickNo := rfl

/-! latchFrame -/

@[simp] theorem latchFrame_climate (g : BitVec 32) (w : Nat) : (s.latchFrame g w).climate = s.climate := rfl
@[simp] theorem latchFrame_lineMode (g : BitVec 32) (w : Nat) : (s.latchFrame g w).lineMode = s.lineMode := rfl
@[simp] theorem latchFrame_segWord (g : BitVec 32) (w : Nat) : (s.latchFrame g w).segWord = g := rfl
@[simp] theorem latchFrame_serWord (g : BitVec 32) (w : Nat) : (s.latchFrame g w).serWord = w := rfl
@[simp] theorem latchFrame_phase (g : BitVec 32) (w : Nat) : (s.latchFrame g w).phase = s.phase := rfl
@[simp] theorem latchFrame_timer (g : BitVec 32) (w : Nat) : (s.latchFrame g w).timer = s.timer := rfl
@[simp] theorem latchFrame_wnext (g : BitVec 32) (w : Nat) : (s.latchFrame g w).wnext = s.wnext := rfl
@[simp] theorem latchFrame_btn (g : BitVec 32) (w : Nat) : (s.latchFrame g w).btn = s.btn := rfl
@[simp] theorem latchFrame_ret (g : BitVec 32) (w : Nat) : (s.latchFrame g w).ret = s.ret := rfl
@[simp] theorem latchFrame_cnt (g : BitVec 32) (w : Nat) : (s.latchFrame g w).cnt = s.cnt := rfl
@[simp] theorem latchFrame_acc (g : BitVec 32) (w : Nat) : (s.latchFrame g w).acc = s.acc := rfl
@[simp] theorem latchFrame_bitk (g : BitVec 32) (w : Nat) : (s.latchFrame g w).bitk = s.bitk := rfl
@[simp] theorem latchFrame_cmdStatus (g : BitVec 32) (w : Nat) : (s.latchFrame g w).cmdStatus = s.cmdStatus := rfl
@[simp] theorem latchFrame_faultCause (g : BitVec 32) (w : Nat) : (s.latchFrame g w).faultCause = s.faultCause := rfl
@[simp] theorem latchFrame_sync (g : BitVec 32) (w : Nat) : (s.latchFrame g w).sync = s.sync := rfl
@[simp] theorem latchFrame_pending (g : BitVec 32) (w : Nat) : (s.latchFrame g w).pending = s.pending := rfl
@[simp] theorem latchFrame_tickNo (g : BitVec 32) (w : Nat) : (s.latchFrame g w).tickNo = s.tickNo := rfl

/-! writeBitk -/

@[simp] theorem writeBitk_climate (k : Nat) : (s.writeBitk k).climate = s.climate := rfl
@[simp] theorem writeBitk_lineMode (k : Nat) : (s.writeBitk k).lineMode = s.lineMode := rfl
@[simp] theorem writeBitk_segWord (k : Nat) : (s.writeBitk k).segWord = s.segWord := rfl
@[simp] theorem writeBitk_serWord (k : Nat) : (s.writeBitk k).serWord = s.serWord := rfl
@[simp] theorem writeBitk_phase (k : Nat) : (s.writeBitk k).phase = s.phase := rfl
@[simp] theorem writeBitk_timer (k : Nat) : (s.writeBitk k).timer = s.timer := rfl
@[simp] theorem writeBitk_wnext (k : Nat) : (s.writeBitk k).wnext = s.wnext := rfl
@[simp] theorem writeBitk_btn (k : Nat) : (s.writeBitk k).btn = s.btn := rfl
@[simp] theorem writeBitk_ret (k : Nat) : (s.writeBitk k).ret = s.ret := rfl
@[simp] theorem writeBitk_cnt (k : Nat) : (s.writeBitk k).cnt = s.cnt := rfl
@[simp] theorem writeBitk_acc (k : Nat) : (s.writeBitk k).acc = s.acc := rfl
@[simp] theorem writeBitk_bitk (k : Nat) : (s.writeBitk k).bitk = k := rfl
@[simp] theorem writeBitk_cmdStatus (k : Nat) : (s.writeBitk k).cmdStatus = s.cmdStatus := rfl
@[simp] theorem writeBitk_faultCause (k : Nat) : (s.writeBitk k).faultCause = s.faultCause := rfl
@[simp] theorem writeBitk_sync (k : Nat) : (s.writeBitk k).sync = s.sync := rfl
@[simp] theorem writeBitk_pending (k : Nat) : (s.writeBitk k).pending = s.pending := rfl
@[simp] theorem writeBitk_tickNo (k : Nat) : (s.writeBitk k).tickNo = s.tickNo := rfl

/-! writeSum -/

@[simp] theorem writeSum_climate (c : BitVec 8) (a : Nat) : (s.writeSum c a).climate = s.climate := rfl
@[simp] theorem writeSum_lineMode (c : BitVec 8) (a : Nat) : (s.writeSum c a).lineMode = s.lineMode := rfl
@[simp] theorem writeSum_segWord (c : BitVec 8) (a : Nat) : (s.writeSum c a).segWord = s.segWord := rfl
@[simp] theorem writeSum_serWord (c : BitVec 8) (a : Nat) : (s.writeSum c a).serWord = s.serWord := rfl
@[simp] theorem writeSum_phase (c : BitVec 8) (a : Nat) : (s.writeSum c a).phase = s.phase := rfl
@[simp] theorem writeSum_timer (c : BitVec 8) (a : Nat) : (s.writeSum c a).timer = s.timer := rfl
@[simp] theorem writeSum_wnext (c : BitVec 8) (a : Nat) : (s.writeSum c a).wnext = s.wnext := rfl
@[simp] theorem writeSum_btn (c : BitVec 8) (a : Nat) : (s.writeSum c a).btn = s.btn := rfl
@[simp] theorem writeSum_ret (c : BitVec 8) (a : Nat) : (s.writeSum c a).ret = s.ret := rfl
@[simp] theorem writeSum_cnt (c : BitVec 8) (a : Nat) : (s.writeSum c a).cnt = c := rfl
@[simp] theorem writeSum_acc (c : BitVec 8) (a : Nat) : (s.writeSum c a).acc = a := rfl
@[simp] theorem writeSum_bitk (c : BitVec 8) (a : Nat) : (s.writeSum c a).bitk = s.bitk := rfl
@[simp] theorem writeSum_cmdStatus (c : BitVec 8) (a : Nat) : (s.writeSum c a).cmdStatus = s.cmdStatus := rfl
@[simp] theorem writeSum_faultCause (c : BitVec 8) (a : Nat) : (s.writeSum c a).faultCause = s.faultCause := rfl
@[simp] theorem writeSum_sync (c : BitVec 8) (a : Nat) : (s.writeSum c a).sync = s.sync := rfl
@[simp] theorem writeSum_pending (c : BitVec 8) (a : Nat) : (s.writeSum c a).pending = s.pending := rfl
@[simp] theorem writeSum_tickNo (c : BitVec 8) (a : Nat) : (s.writeSum c a).tickNo = s.tickNo := rfl

/-! raiseFatal -/

@[simp] theorem raiseFatal_climate (c : FaultCause) : (s.raiseFatal c).climate = s.climate := rfl
@[simp] theorem raiseFatal_lineMode (c : FaultCause) : (s.raiseFatal c).lineMode = s.lineMode := rfl
@[simp] theorem raiseFatal_segWord (c : FaultCause) : (s.raiseFatal c).segWord = s.segWord := rfl
@[simp] theorem raiseFatal_serWord (c : FaultCause) : (s.raiseFatal c).serWord = s.serWord := rfl
@[simp] theorem raiseFatal_phase (c : FaultCause) : (s.raiseFatal c).phase = .fatal := rfl
@[simp] theorem raiseFatal_timer (c : FaultCause) : (s.raiseFatal c).timer = s.timer := rfl
@[simp] theorem raiseFatal_wnext (c : FaultCause) : (s.raiseFatal c).wnext = s.wnext := rfl
@[simp] theorem raiseFatal_btn (c : FaultCause) : (s.raiseFatal c).btn = s.btn := rfl
@[simp] theorem raiseFatal_ret (c : FaultCause) : (s.raiseFatal c).ret = s.ret := rfl
@[simp] theorem raiseFatal_cnt (c : FaultCause) : (s.raiseFatal c).cnt = s.cnt := rfl
@[simp] theorem raiseFatal_acc (c : FaultCause) : (s.raiseFatal c).acc = s.acc := rfl
@[simp] theorem raiseFatal_bitk (c : FaultCause) : (s.raiseFatal c).bitk = s.bitk := rfl
@[simp] theorem raiseFatal_cmdStatus (c : FaultCause) : (s.raiseFatal c).cmdStatus = s.cmdStatus := rfl
@[simp] theorem raiseFatal_faultCause (c : FaultCause) : (s.raiseFatal c).faultCause = c := rfl
@[simp] theorem raiseFatal_sync (c : FaultCause) : (s.raiseFatal c).sync = s.sync := rfl
@[simp] theorem raiseFatal_pending (c : FaultCause) : (s.raiseFatal c).pending = s.pending := rfl
@[simp] theorem raiseFatal_tickNo (c : FaultCause) : (s.raiseFatal c).tickNo = s.tickNo := rfl

/-! writeSync -/

@[simp] theorem writeSync_climate (r : SyncRegs) : (s.writeSync r).climate = s.climate := rfl
@[simp] theorem writeSync_lineMode (r : SyncRegs) : (s.writeSync r).lineMode = s.lineMode := rfl
@[simp] theorem writeSync_segWord (r : SyncRegs) : (s.writeSync r).segWord = s.segWord := rfl
@[simp] theorem writeSync_serWord (r : SyncRegs) : (s.writeSync r).serWord = s.serWord := rfl
@[simp] theorem writeSync_phase (r : SyncRegs) : (s.writeSync r).phase = s.phase := rfl
@[simp] theorem writeSync_timer (r : SyncRegs) : (s.writeSync r).timer = s.timer := rfl
@[simp] theorem writeSync_wnext (r : SyncRegs) : (s.writeSync r).wnext = s.wnext := rfl
@[simp] theorem writeSync_btn (r : SyncRegs) : (s.writeSync r).btn = s.btn := rfl
@[simp] theorem writeSync_ret (r : SyncRegs) : (s.writeSync r).ret = s.ret := rfl
@[simp] theorem writeSync_cnt (r : SyncRegs) : (s.writeSync r).cnt = s.cnt := rfl
@[simp] theorem writeSync_acc (r : SyncRegs) : (s.writeSync r).acc = s.acc := rfl
@[simp] theorem writeSync_bitk (r : SyncRegs) : (s.writeSync r).bitk = s.bitk := rfl
@[simp] theorem writeSync_cmdStatus (r : SyncRegs) : (s.writeSync r).cmdStatus = s.cmdStatus := rfl
@[simp] theorem writeSync_faultCause (r : SyncRegs) : (s.writeSync r).faultCause = s.faultCause := rfl
@[simp] theorem writeSync_sync (r : SyncRegs) : (s.writeSync r).sync = r := rfl
@[simp] theorem writeSync_pending (r : SyncRegs) : (s.writeSync r).pending = s.pending := rfl
@[simp] theorem writeSync_tickNo (r : SyncRegs) : (s.writeSync r).tickNo = s.tickNo := rfl

/-! writeStatus -/

@[simp] theorem writeStatus_climate (b : Bool) : (s.writeStatus b).climate = s.climate := rfl
@[simp] theorem writeStatus_lineMode (b : Bool) : (s.writeStatus b).lineMode = s.lineMode := rfl
@[simp] theorem writeStatus_segWord (b : Bool) : (s.writeStatus b).segWord = s.segWord := rfl
@[simp] theorem writeStatus_serWord (b : Bool) : (s.writeStatus b).serWord = s.serWord := rfl
@[simp] theorem writeStatus_phase (b : Bool) : (s.writeStatus b).phase = s.phase := rfl
@[simp] theorem writeStatus_timer (b : Bool) : (s.writeStatus b).timer = s.timer := rfl
@[simp] theorem writeStatus_wnext (b : Bool) : (s.writeStatus b).wnext = s.wnext := rfl
@[simp] theorem writeStatus_btn (b : Bool) : (s.writeStatus b).btn = s.btn := rfl
@[simp] theorem writeStatus_ret (b : Bool) : (s.writeStatus b).ret = s.ret := rfl
@[simp] theorem writeStatus_cnt (b : Bool) : (s.writeStatus b).cnt = s.cnt := rfl
@[simp] theorem writeStatus_acc (b : Bool) : (s.writeStatus b).acc = s.acc := rfl
@[simp] theorem writeStatus_bitk (b : Bool) : (s.writeStatus b).bitk = s.bitk := rfl
@[simp] theorem writeStatus_cmdStatus (b : Bool) : (s.writeStatus b).cmdStatus = b := rfl
@[simp] theorem writeStatus_faultCause (b : Bool) : (s.writeStatus b).faultCause = s.faultCause := rfl
@[simp] theorem writeStatus_sync (b : Bool) : (s.writeStatus b).sync = s.sync := rfl
@[simp] theorem writeStatus_pending (b : Bool) : (s.writeStatus b).pending = s.pending := rfl
@[simp] theorem writeStatus_tickNo (b : Bool) : (s.writeStatus b).tickNo = s.tickNo := rfl

/-! nextTick -/

@[simp] theorem nextTick_climate : s.nextTick.climate = s.climate := rfl
@[simp] theorem nextTick_lineMode : s.nextTick.lineMode = s.lineMode := rfl
@[simp] theorem nextTick_segWord : s.nextTick.segWord = s.segWord := rfl
@[simp] theorem nextTick_serWord : s.nextTick.serWord = s.serWord := rfl
@[simp] theorem nextTick_phase : s.nextTick.phase = s.phase := rfl
@[simp] theorem nextTick_timer : s.nextTick.timer = s.timer := rfl
@[simp] theorem nextTick_wnext : s.nextTick.wnext = s.wnext := rfl
@[simp] theorem nextTick_btn : s.nextTick.btn = s.btn := rfl
@[simp] theorem nextTick_ret : s.nextTick.ret = s.ret := rfl
@[simp] theorem nextTick_cnt : s.nextTick.cnt = s.cnt := rfl
@[simp] theorem nextTick_acc : s.nextTick.acc = s.acc := rfl
@[simp] theorem nextTick_bitk : s.nextTick.bitk = s.bitk := rfl
@[simp] theorem nextTick_cmdStatus : s.nextTick.cmdStatus = s.cmdStatus := rfl
@[simp] theorem nextTick_faultCause : s.nextTick.faultCause = s.faultCause := rfl
@[simp] theorem nextTick_sync : s.nextTick.sync = s.sync := rfl
@[simp] theorem nextTick_pending : s.nextTick.pending = s.pending.tail := rfl
@[simp] theorem nextTick_tickNo : s.nextTick.tickNo = s.tickNo + 1 := rfl

/-! resetRegs -/

@[simp] theorem resetRegs_climate (p : Params) : (s.resetRegs p).climate = (State.resetOf p).climate := rfl
@[simp] theorem resetRegs_lineMode (p : Params) : (s.resetRegs p).lineMode = (State.resetOf p).lineMode := rfl
@[simp] theorem resetRegs_segWord (p : Params) : (s.resetRegs p).segWord = (State.resetOf p).segWord := rfl
@[simp] theorem resetRegs_serWord (p : Params) : (s.resetRegs p).serWord = (State.resetOf p).serWord := rfl
@[simp] theorem resetRegs_phase (p : Params) : (s.resetRegs p).phase = (State.resetOf p).phase := rfl
@[simp] theorem resetRegs_timer (p : Params) : (s.resetRegs p).timer = (State.resetOf p).timer := rfl
@[simp] theorem resetRegs_wnext (p : Params) : (s.resetRegs p).wnext = (State.resetOf p).wnext := rfl
@[simp] theorem resetRegs_btn (p : Params) : (s.resetRegs p).btn = (State.resetOf p).btn := rfl
@[simp] theorem resetRegs_ret (p : Params) : (s.resetRegs p).ret = (State.resetOf p).ret := rfl
@[simp] theorem resetRegs_cnt (p : Params) : (s.resetRegs p).cnt = (State.resetOf p).cnt := rfl
@[simp] theorem resetRegs_acc (p : Params) : (s.resetRegs p).acc = (State.resetOf p).acc := rfl
@[simp] theorem resetRegs_bitk (p : Params) : (s.resetRegs p).bitk = (State.resetOf p).bitk := rfl
@[simp] theorem resetRegs_cmdStatus (p : Params) : (s.resetRegs p).cmdStatus = (State.resetOf p).cmdStatus := rfl
@[simp] theorem resetRegs_faultCause (p : Params) : (s.resetRegs p).faultCause = (State.resetOf p).faultCause := rfl
@[simp] theorem resetRegs_sync (p : Params) : (s.resetRegs p).sync = (State.resetOf p).sync := rfl
@[simp] theorem resetRegs_pending (p : Params) : (s.resetRegs p).pending = s.pending := rfl
@[simp] theorem resetRegs_tickNo (p : Params) : (s.resetRegs p).tickNo = s.tickNo := rfl

end Sys2Proof.Machine
end

