-- ==== Sys2Proof/Laws/Climate.lean ====
section
/-! SUPPORT. What a command, an action and a host word can do, said once: each replaces the ClimateState registers by
a function of them that keeps them legal, and CMD_STATUS as its source says. -/

namespace Sys2Proof.Machine

@[simp] theorem andThen_next (s : State) (f : State → Result) : Result.andThen (.next s) f = f s := rfl

theorem clamp_bounds (x : Int) : 60 ≤ clamp x 60 90 ∧ clamp x 60 90 ≤ 90 := by
  unfold clamp; split <;> [omega; split <;> omega]

theorem clampedSetTemp_toInt (x : Int) : (clampedSetTemp x).toInt = clamp x 60 90 := by
  have h := clamp_bounds x
  unfold clampedSetTemp
  rw [BitVec.toInt_ofInt, Int.bmod_eq_of_le] <;> omega

theorem nextMode_toNat (m : BitVec 3) : (nextMode m).toNat = (m.toNat + 1) % 5 := by
  have h : (m.toNat + 1) % 5 < 8 := by omega
  simp [nextMode, Nat.mod_eq_of_lt h]

theorem fanOperand_cases {v : Imm12} (h : (Instr.setfan v).wf = true) :
    BitVec.ofNat 8 (uimm v) = 0 ∨ BitVec.ofNat 8 (uimm v) = 50 ∨ BitVec.ofNat 8 (uimm v) = 100 := by
  simp only [Instr.wf, Bool.or_eq_true, beq_iff_eq] at h
  unfold uimm
  obtain (h | h) | h := h <;> rw [h] <;> simp

/-- The one inversion of exec: the next state replaces the ClimateState registers by a function of them, which keeps
them legal, and writes CMD_STATUS. -/
theorem exec_of_climate (i : Instr) : ∃ (f : ClimateState → ClimateState) (b : Bool),
    (∀ c, ClimateLegal c → ClimateLegal (f c)) ∧
      ∀ s, exec i s = .next { s with climate := f s.climate, cmdStatus := b } := by
  have setTemp : ∀ g : ClimateState → Int, ∀ c, ClimateLegal c →
      ClimateLegal { c with setTemp := clampedSetTemp (g c) } := by
    intro g c h
    refine ⟨?_, ?_, h.2.2⟩ <;> simp only [clampedSetTemp_toInt] <;> have := clamp_bounds (g c) <;> omega
  cases i with
  | nop => exact ⟨id, false, fun _ h => h, fun _ => rfl⟩
  | cycmode =>
    refine ⟨fun c => { c with mode := nextMode c.mode }, false, fun c h => ?_, fun _ => rfl⟩
    refine ⟨h.1, h.2.1, ?_, h.2.2.2⟩
    simp only [nextMode_toNat]; omega
  | tglac => exact ⟨fun c => { c with acOn := !c.acOn }, false, fun _ h => h, fun _ => rfl⟩
  | tglrec => exact ⟨fun c => { c with recircOn := !c.recircOn }, false, fun _ h => h, fun _ => rfl⟩
  | setfan v =>
    by_cases hv : (Instr.setfan v).wf = true
    · refine ⟨fun c => { c with fanLevel := BitVec.ofNat 8 (uimm v) }, false,
        fun c h => ⟨h.1, h.2.1, h.2.2.1, fanOperand_cases hv⟩, fun s => ?_⟩
      simp [exec, execSetfan, hv, accepted, State.writeFan, State.writeStatus]
    · refine ⟨id, true, fun _ h => h, fun s => ?_⟩
      simp [exec, execSetfan, hv, rejected, State.writeStatus]
  | adjset d =>
    exact ⟨fun c => { c with setTemp := clampedSetTemp (c.setTemp.toInt + simm d) }, false,
      setTemp fun c => c.setTemp.toInt + simm d, fun _ => rfl⟩
  | setset v =>
    exact ⟨fun c => { c with setTemp := clampedSetTemp (simm v) }, false, setTemp fun _ => simm v, fun _ => rfl⟩
  | setamb t =>
    by_cases ht : (Instr.setamb t).wf = true
    · refine ⟨fun c => { c with ambientTemp := BitVec.ofInt 8 (simm t) }, false, fun _ h => h, fun s => ?_⟩
      simp [exec, execSetamb, ht, accepted, State.writeAmbient, State.writeStatus]
    · refine ⟨id, true, fun _ h => h, fun s => ?_⟩
      simp [exec, execSetamb, ht, rejected, State.writeStatus]
  | setunit u =>
    by_cases hu : (Instr.setunit u).wf = true
    · refine ⟨fun c => { c with displayUnit := uimm u == 1 }, false, fun _ h => h, fun s => ?_⟩
      simp [exec, execSetunit, hu, accepted, State.writeUnit, State.writeStatus]
    · refine ⟨id, true, fun _ h => h, fun s => ?_⟩
      simp [exec, execSetunit, hu, rejected, State.writeStatus]
  | tglunit => exact ⟨fun c => { c with displayUnit := !c.displayUnit }, false, fun _ h => h, fun _ => rfl⟩

/-- A host word: the ClimateState registers become a function of them, and CMD_STATUS is written. -/
theorem performHost_of_climate (w : Word) : ∃ (f : ClimateState → ClimateState) (b : Bool),
    (∀ c, ClimateLegal c → ClimateLegal (f c)) ∧
      ∀ s, perform .host w s = .next { s with climate := f s.climate, cmdStatus := b } := by
  unfold perform
  cases h : decode w with
  | ok i => simpa [performLegal] using exec_of_climate i
  | error e => exact ⟨id, true, fun _ h => h, fun _ => rfl⟩

/-- A button action: the ClimateState registers become a function of them, and nothing else changes. -/
theorem applyAction_of_climate (b : BitVec 3) : ∃ f : ClimateState → ClimateState,
    (∀ c, ClimateLegal c → ClimateLegal (f c)) ∧
      ∀ s, applyAction b s = .next { s with climate := f s.climate } := by
  unfold applyAction perform
  cases h : decode (buttonOf b).action with
  | ok i =>
    obtain ⟨f, c, hf, hx⟩ := exec_of_climate i
    exact ⟨f, hf, fun s => by simp [performLegal, keepStatus, hx, State.writeStatus]⟩
  | error e => exact ⟨id, fun _ h => h, fun _ => rfl⟩

@[simp] theorem execAll_nil (s : State) : execAll [] s = .next s := rfl

theorem execAll_cons (i : Instr) (rest : List Instr) (s : State) :
    execAll (i :: rest) s = Result.andThen (exec i s) (execAll rest) := rfl

/-- Commands one after another: the one inversion of execAll, as exec_of_climate is that of exec. -/
theorem execAll_of_climate (is : List Instr) : ∃ (f : ClimateState → ClimateState) (b : Bool → Bool),
    (∀ c, ClimateLegal c → ClimateLegal (f c)) ∧
      ∀ s, execAll is s = .next { s with climate := f s.climate, cmdStatus := b s.cmdStatus } := by
  induction is with
  | nil => exact ⟨id, id, fun _ h => h, fun _ => rfl⟩
  | cons i rest ih =>
    obtain ⟨f, b, hf, hx⟩ := exec_of_climate i
    obtain ⟨g, c, hg, hy⟩ := ih
    exact ⟨g ∘ f, fun _ => c b, fun k h => hg _ (hf k h), fun s => by simp [execAll_cons, hx, hy]⟩

/-- Two lists of commands are performed the one after the other. -/
theorem execAll_append (first rest : List Instr) (s : State) :
    execAll (first ++ rest) s = (execAll first s).andThen (execAll rest) := by
  induction first generalizing s with
  | nil => rfl
  | cons i more ih =>
    obtain ⟨f, b, -, hx⟩ := exec_of_climate i
    simp only [List.cons_append, execAll_cons, hx, andThen_next, ih]

/-- A button action in terms of exec: every action word is legal, and the ClimateState is that of its command. -/
theorem applyAction_exec (b : BitVec 3) (s : State) : ∃ (i : Instr) (u : State),
    decode (buttonOf b).action = .ok i ∧ exec i s = .next u ∧ applyAction b s = .next { s with climate := u.climate } := by
  have legal : ∃ i, decode (buttonOf b).action = .ok i := by cases buttonOf b <;> exact ⟨_, rfl⟩
  obtain ⟨i, hi⟩ := legal
  obtain ⟨f, c, -, hx⟩ := exec_of_climate i
  exact ⟨i, _, hi, hx s, by simp [applyAction, perform, hi, performLegal, keepStatus, hx, State.writeStatus]⟩

/-- The host port of an IDLE tick: the same, or nothing when no word is offered. -/
theorem acceptCommand_of_climate (inp : Inputs) : ∃ (f : ClimateState → ClimateState) (b : Bool → Bool),
    (∀ c, ClimateLegal c → ClimateLegal (f c)) ∧
      ∀ s, acceptCommand inp s = .next { s with climate := f s.climate, cmdStatus := b s.cmdStatus } := by
  unfold acceptCommand
  cases inp.cmdValid with
  | true =>
    obtain ⟨f, b, hf, hx⟩ := performHost_of_climate inp.cmdWord
    exact ⟨f, fun _ => b, hf, by simpa using hx⟩
  | false => exact ⟨id, id, fun _ h => h, fun _ => rfl⟩

end Sys2Proof.Machine
end

