-- ==== Sys2Proof/Laws/Decode.lean ====
section
/-! SUPPORT. The two fields of a word and the word of two fields: each determines the other. -/

namespace Sys2Proof

theorem opField_toNat (w : Word) : (opField w).toNat = w.toNat / 4096 := by
  simp only [opField, BitVec.extractLsb'_toNat, Nat.shiftRight_eq_div_pow]
  have := w.isLt
  omega

theorem immField_toNat (w : Word) : (immField w).toNat = w.toNat % 4096 := by
  simp [immField, BitVec.extractLsb'_toNat]

theorem wordOf_toNat (op : OpCode) (imm : Imm12) : (wordOf op imm).toNat = op.toNat * 4096 + imm.toNat := by
  unfold wordOf
  rw [BitVec.toNat_append, ← Nat.shiftLeft_add_eq_or_of_lt imm.isLt, Nat.shiftLeft_eq]

@[simp] theorem opField_wordOf (op : OpCode) (imm : Imm12) : opField (wordOf op imm) = op := by
  apply BitVec.eq_of_toNat_eq
  rw [opField_toNat, wordOf_toNat]
  have := imm.isLt
  omega

@[simp] theorem immField_wordOf (op : OpCode) (imm : Imm12) : immField (wordOf op imm) = imm := by
  apply BitVec.eq_of_toNat_eq
  rw [immField_toNat, wordOf_toNat]
  have := imm.isLt
  omega

theorem wordOf_fields (w : Word) : wordOf (opField w) (immField w) = w := by
  apply BitVec.eq_of_toNat_eq
  rw [wordOf_toNat, opField_toNat, immField_toNat]
  omega

theorem decode_wordOf (op : OpCode) (imm : Imm12) : decode (wordOf op imm) = decodeFields op imm := by
  simp [decode]

/-- The match value of a row with its operand put in: the same as the word of the two fields. -/
theorem matchWord_or_operand (op : OpCode) (imm : Imm12) : wordOf op 0 ||| imm.setWidth 16 = wordOf op imm := by
  apply BitVec.eq_of_toNat_eq
  have h := Nat.shiftLeft_add_eq_or_of_lt imm.isLt op.toNat
  rw [Nat.shiftLeft_eq] at h
  have := imm.isLt
  rw [BitVec.toNat_or, wordOf_toNat, wordOf_toNat, BitVec.toNat_setWidth, Nat.mod_eq_of_lt (by omega)]
  simpa using h.symm

end Sys2Proof
end

