-- ==== Sys2Proof/Laws/Display.lean ====
section
/-! SUPPORT. What the encoder's building blocks put in a word, said once: which bit each of them sets (R82, R122 to
R130), and what the two digit-splitting functions answer. -/

namespace Sys2Proof.Machine

theorem testBit_oneShift (pos k : Nat) : (1 <<< pos).testBit k = decide (pos = k) := by
  rw [Nat.one_shiftLeft, Nat.testBit_two_pow]

@[simp] theorem testBit_bitIf (lit : Bool) (pos k : Nat) : (bitIf lit pos).testBit k = (lit && decide (pos = k)) := by
  cases lit with
  | false => simp [bitIf]
  | true => exact (testBit_oneShift pos k).trans (Bool.true_and _).symm

/-- Bit k of an OR of signals is lit exactly when some lit signal has position k. -/
theorem testBit_orBits (l : List (Nat × Bool)) (k : Nat) :
    (orBits l).testBit k = l.any fun e => e.2 && decide (e.1 = k) := by
  induction l with
  | nil => simp [orBits]
  | cons e rest ih => simp [orBits, ih]

theorem orBits_append (l m : List (Nat × Bool)) : orBits (l ++ m) = orBits l ||| orBits m := by
  induction l with
  | nil => simp [orBits]
  | cons e rest ih => simp [orBits, ih, Nat.or_assoc]

/-- A signal with a bit of its own shows exactly its flag. -/
theorem testBit_orBits_of_mem {l : List (Nat × Bool)} (nd : (l.map Prod.fst).Nodup) {k : Nat} {b : Bool}
    (h : (k, b) ∈ l) : (orBits l).testBit k = b := by
  induction l with
  | nil => simp at h
  | cons e rest ih =>
    simp only [List.map_cons, List.nodup_cons] at nd
    obtain rfl | h := List.mem_cons.mp h
    · have : (orBits rest).testBit k = false := by
        rw [testBit_orBits, List.any_eq_false]
        intro e he
        have : e.1 ≠ k := fun hk => nd.1 (List.mem_map.mpr ⟨e, he, hk⟩)
        simp [this]
      simp [orBits, this]
    · have : e.1 ≠ k := fun hk => nd.1 (List.mem_map.mpr ⟨_, h, hk.symm⟩)
      simp [orBits, ih nd.2 h, this]

/-- A bit that is no signal's is 0. -/
theorem testBit_orBits_of_not_mem {l : List (Nat × Bool)} {k : Nat} (h : k ∉ l.map Prod.fst) :
    (orBits l).testBit k = false := by
  rw [testBit_orBits, List.any_eq_false]
  intro e he
  have : e.1 ≠ k := fun hk => h (List.mem_map.mpr ⟨e, he, hk⟩)
  simp [this]

/-- Every bit of the word lies below the bound of the positions. -/
theorem orBits_lt {l : List (Nat × Bool)} {n : Nat} (h : ∀ k ∈ l.map Prod.fst, k < n) : orBits l < 2 ^ n := by
  apply Nat.lt_pow_two_of_testBit
  intro k hk
  apply testBit_orBits_of_not_mem
  intro hm
  have := h k hm
  omega

/-- The pairs of segment position and segment flag, written out. -/
theorem place_eq (pos : Vector Nat 7) (pat : BitVec 7) :
    place pos pat = orBits ((List.finRange 7).map fun i => (pos.get i, pat.getLsbD i.val)) := by
  obtain ⟨⟨l⟩, hl⟩ := pos
  match l, hl with
  | [a, b, c, d, e, f, g], _ => rfl

theorem toList_eq_map_get {n : Nat} (v : Vector Nat n) : v.toList = (List.finRange n).map v.get := by
  apply List.ext_getElem <;> simp [Vector.get]

/-- Bit k of a placed pattern is lit exactly when some lit segment has position k. -/
theorem testBit_place (pos : Vector Nat 7) (pat : BitVec 7) (k : Nat) :
    (place pos pat).testBit k = true ↔ ∃ i : Fin 7, pat.getLsbD i.val = true ∧ pos.get i = k := by
  simp [place_eq, testBit_orBits]

/-- The one gauge signal of a level, or none. -/
theorem testBit_gaugeBits (l : SerLayout) (v : Int) (k : Nat) :
    (gaugeBits l v).testBit k = true ↔ ∃ i, gaugeLevel v = some i ∧ l.gauge.get i = k := by
  unfold gaugeBits
  cases gaugeLevel v with
  | none => simp
  | some i => simp only [testBit_oneShift, decide_eq_true_eq]; simp

theorem gaugeBits_eq (l : SerLayout) (v : Int) :
    gaugeBits l v = orBits ((List.finRange 11).map fun i => (l.gauge.get i, decide (gaugeLevel v = some i))) := by
  apply Nat.eq_of_testBit_eq
  intro k
  rw [Bool.eq_iff_iff, testBit_gaugeBits, testBit_orBits]
  simp

/-- The signals of the segment word with what lights them. -/
def segSignals (p : Params) (c : ClimateState) : List (Nat × Bool) :=
  let l := p.segLayout
  let pat := seg7 (BitVec.ofNat 4 (decompose c.setTemp.toInt).ones)
  let lit : (ModeLit → Bool) → Bool := fun f => ((modeEntry p c.mode).map f).getD false
  ((List.finRange 7).map fun i => (l.setOnes.get i, pat.getLsbD i.val)) ++
    [(l.face, lit ModeLit.face), (l.feet, lit ModeLit.feet), (l.defrost, lit ModeLit.defrost), (l.bg, lit ModeLit.bg),
      (l.defText, lit ModeLit.defText), (l.recircOn, c.recircOn), (l.freshAir, !c.recircOn), (l.ac, c.acOn),
      (l.unitC, !c.displayUnit), (l.unitF, c.displayUnit)]

theorem segSignals_positions (p : Params) (c : ClimateState) :
    (segSignals p c).map Prod.fst = p.segLayout.positions := by
  simp [segSignals, SegLayout.positions, toList_eq_map_get, Function.comp_def]

/-- seg_word(S) is the OR of its signals (R131). -/
theorem segWordOf_eq (p : Params) (c : ClimateState) : segWordOf p c = BitVec.ofNat 32 (orBits (segSignals p c)) := by
  unfold segWordOf segSignals
  congr 1
  simp only [orBits_append, digit, ← place_eq, Nat.or_assoc]
  congr 1
  have hm : modeBits p c.mode = orBits ([(p.segLayout.face, ((modeEntry p c.mode).map ModeLit.face).getD false),
      (p.segLayout.feet, ((modeEntry p c.mode).map ModeLit.feet).getD false),
      (p.segLayout.defrost, ((modeEntry p c.mode).map ModeLit.defrost).getD false),
      (p.segLayout.bg, ((modeEntry p c.mode).map ModeLit.bg).getD false),
      (p.segLayout.defText, ((modeEntry p c.mode).map ModeLit.defText).getD false)]) := by
    unfold modeBits
    cases modeEntry p c.mode <;> simp [litBits, orBits, bitIf]
  rw [hm]
  cases c.recircOn <;> cases c.displayUnit <;>
    simp [orBits, recircBits, acBits, unitBits, bitIf, Nat.or_assoc]

/-- The signals of the serial word with what lights them. -/
def serSignals (p : Params) (c : ClimateState) : List (Nat × Bool) :=
  let l := p.serLayout
  let a := decompose c.ambientTemp.toInt
  let s := decompose c.setTemp.toInt
  ((List.finRange 7).map fun i => (l.ambOnes.get i, (seg7 (BitVec.ofNat 4 a.ones)).getLsbD i.val)) ++
    ((List.finRange 7).map fun i => (l.ambTens.get i, (seg7 (BitVec.ofNat 4 a.tens)).getLsbD i.val)) ++
    [(l.ambSign, a.neg), (l.ambHundred, a.hund)] ++
    ((List.finRange 7).map fun i => (l.setTens.get i, (seg7 (BitVec.ofNat 4 s.tens)).getLsbD i.val)) ++
    [(l.setSign, s.neg), (l.setHundred, s.hund)] ++
    ((List.finRange 11).map fun i => (l.gauge.get i, decide (gaugeLevel c.setTemp.toInt = some i)))

theorem serSignals_positions (p : Params) (c : ClimateState) :
    (serSignals p c).map Prod.fst = p.serLayout.positions := by
  simp [serSignals, SerLayout.positions, toList_eq_map_get, Function.comp_def]

/-- ser_word(S) is the OR of its signals (R132). -/
theorem serWordOf_eq (p : Params) (c : ClimateState) :
    serWordOf p c = orBits (serSignals p c) % 2 ^ p.serWidth := by
  simp only [serWordOf, serSignals, orBits_append, digit, ← place_eq, gaugeBits_eq, orBits, Nat.or_zero, Nat.or_assoc]

theorem decompose_bounds (v : Int) (h : v.natAbs ≤ 199) : (decompose v).tens ≤ 9 ∧ (decompose v).ones ≤ 9 := by
  unfold decompose belowHundred
  simp only
  split <;> omega

end Sys2Proof.Machine
end

