-- ==== Sys2Proof/Laws/Parameters.lean ====
section
/-! SUPPORT. The default parameters field by field, that they meet the constraints of R7, R53, R75, R139 and R238, and what
those constraints say of the timers and the serial word. -/

namespace Sys2Proof

section

variable (f : Nat → Option (BitVec 8)) (g : BitVec 12 → Int)

@[simp] theorem standard_tickNs : (Params.standard f g).tickNs = 1000 := rfl
@[simp] theorem standard_nSettle : (Params.standard f g).nSettle = 10 := rfl
@[simp] theorem standard_nDebounce : (Params.standard f g).nDebounce = 10000 := rfl
@[simp] theorem standard_nHold : (Params.standard f g).nHold = 50000 := rfl
@[simp] theorem standard_nRepeat : (Params.standard f g).nRepeat = 50000 := rfl
@[simp] theorem standard_nClkLow : (Params.standard f g).nClkLow = 8 := rfl
@[simp] theorem standard_nClkHigh : (Params.standard f g).nClkHigh = 2 := rfl
@[simp] theorem standard_nGap : (Params.standard f g).nGap = 1000 := rfl
@[simp] theorem standard_nSyncPulse : (Params.standard f g).nSyncPulse = 10 := rfl
@[simp] theorem standard_segBytes : (Params.standard f g).segBytes = 3 := rfl
@[simp] theorem standard_segLayout : (Params.standard f g).segLayout = defaultSegLayout := rfl
@[simp] theorem standard_serWidth : (Params.standard f g).serWidth = 40 := rfl
@[simp] theorem standard_serLayout : (Params.standard f g).serLayout = defaultSerLayout := rfl
@[simp] theorem standard_modeMap : (Params.standard f g).modeMap = defaultModeMap := rfl
@[simp] theorem standard_buttonLines : (Params.standard f g).buttonLines = defaultButtonLines := rfl
@[simp] theorem standard_adcBits : (Params.standard f g).adcBits = 12 := rfl
@[simp] theorem standard_thermCh : (Params.standard f g).thermCh = 0 := rfl
@[simp] theorem standard_tempStageEn : (Params.standard f g).tempStageEn = true := rfl
@[simp] theorem standard_syncEdge : (Params.standard f g).syncEdge = .rising := rfl
@[simp] theorem standard_thermFn : (Params.standard f g).thermFn = f := rfl
@[simp] theorem standard_dieFn : (Params.standard f g).dieFn = g := rfl

end

theorem machine_eq : Params.machine = Params.standard Config.thermFn Config.dieFn := by unfold Params.machine; rfl

@[simp] theorem machine_thermFn : Params.machine.thermFn = Config.thermFn := by rw [machine_eq, standard_thermFn]

@[simp] theorem machine_dieFn : Params.machine.dieFn = Config.dieFn := by rw [machine_eq, standard_dieFn]

/-- The defaults of R7 and R8 are a legal parameter set, whatever the two OPEN functions are. -/
theorem standard_legal (f : Nat → Option (BitVec 8)) (g : BitVec 12 → Int) : (Params.standard f g).Legal :=
  (by decide : (Params.standard (fun _ => none) (fun _ => 0)).Legal)

theorem machine_legal : Params.machine.Legal := by rw [machine_eq]; exact standard_legal _ _

/-- A layout that meets R139 needs a serial word of at least one bit. -/
theorem serWidth_pos {p : Params} (h : p.SerLegal) : 1 ≤ p.serWidth := by
  have := h.2 p.serLayout.ambSign (by simp [SerLayout.positions])
  omega

end Sys2Proof
end

