-- ==== Sys2Proof/Laws/PerInstr.lean ====
section
/-! SUPPORT. The family WordFields: for every command, the two fields of its encoding and what its decoding is a function
of (R65, R68). One lemma per constructor. -/

namespace Sys2Proof.Laws.WordFields

/-- The OP value of the command's row in R68. -/
def opOf : Instr → Nat
  | .nop => 0
  | .cycmode => 1
  | .tglac => 2
  | .tglrec => 3
  | .setfan _ => 4
  | .adjset _ => 5
  | .setset _ => 6
  | .setamb _ => 7
  | .setunit _ => 8
  | .tglunit => 9

/-- The operand field of the command, 0 where it has none. -/
def operandOf : Instr → Imm12
  | .nop => 0
  | .cycmode => 0
  | .tglac => 0
  | .tglrec => 0
  | .setfan v => v
  | .adjset d => d
  | .setset v => v
  | .setamb t => t
  | .setunit u => u
  | .tglunit => 0

/-- The encoding of `i` has the OP value of its row and the operand of `i` in its two fields. -/
def Statement (i : Instr) : Prop :=
  (opField (encode i)).toNat = opOf i ∧ immField (encode i) = operandOf i

theorem nop : Statement .nop :=
  ⟨congrArg BitVec.toNat (opField_wordOf _ _), immField_wordOf _ _⟩

theorem cycmode : Statement .cycmode :=
  ⟨congrArg BitVec.toNat (opField_wordOf _ _), immField_wordOf _ _⟩

theorem tglac : Statement .tglac :=
  ⟨congrArg BitVec.toNat (opField_wordOf _ _), immField_wordOf _ _⟩

theorem tglrec : Statement .tglrec :=
  ⟨congrArg BitVec.toNat (opField_wordOf _ _), immField_wordOf _ _⟩

theorem setfan (v : Imm12) : Statement (.setfan v) :=
  ⟨congrArg BitVec.toNat (opField_wordOf _ _), immField_wordOf _ _⟩

theorem adjset (d : Imm12) : Statement (.adjset d) :=
  ⟨congrArg BitVec.toNat (opField_wordOf _ _), immField_wordOf _ _⟩

theorem setset (v : Imm12) : Statement (.setset v) :=
  ⟨congrArg BitVec.toNat (opField_wordOf _ _), immField_wordOf _ _⟩

theorem setamb (t : Imm12) : Statement (.setamb t) :=
  ⟨congrArg BitVec.toNat (opField_wordOf _ _), immField_wordOf _ _⟩

theorem setunit (u : Imm12) : Statement (.setunit u) :=
  ⟨congrArg BitVec.toNat (opField_wordOf _ _), immField_wordOf _ _⟩

theorem tglunit : Statement .tglunit :=
  ⟨congrArg BitVec.toNat (opField_wordOf _ _), immField_wordOf _ _⟩

end Sys2Proof.Laws.WordFields
end

