-- ==== Sys2Proof/Laws/Tick.lean ====
section
/-! SUPPORT. What one tick can do, said once per phase: the next state of MAIN, the frame of the environment's fields,
and how a tick is put together from MAIN and SYNC (R192). -/

namespace Sys2Proof.Machine

/-- Every phase rule answers a next state, and leaves SYNC's registers and the environment's fields alone. -/
theorem mainStep_next (p : Params) (inp : Inputs) (s : State) :
    ∃ u, mainStep p inp s = .next u ∧ u.sync = s.sync ∧ u.pending = s.pending ∧ u.tickNo = s.tickNo := by
  unfold mainStep
  split
  · obtain ⟨f, b, -, hx⟩ := acceptCommand_of_climate inp
    simp only [stepIdle, hx, andThen_next]
    refine ⟨_, rfl, ?_⟩
    unfold idleAdvance; split <;> [skip; split] <;> simp
  · refine ⟨_, rfl, ?_⟩
    unfold stepTempSample; split <;> [skip; split] <;> simp [acceptReading]
  · refine ⟨_, rfl, ?_⟩
    unfold stepTempConvert; split <;> simp
  · refine ⟨_, rfl, ?_⟩
    simp [stepScanDrive]
  · refine ⟨_, rfl, ?_⟩
    unfold stepWait; split <;> simp
  · refine ⟨_, rfl, ?_⟩
    unfold stepScanSample; split <;> simp
  · obtain ⟨f, -, hx⟩ := applyAction_of_climate s.btn
    simp only [stepScanConfirm, hx, andThen_next]
    refine ⟨_, rfl, ?_⟩
    split <;> simp
  · refine ⟨_, rfl, ?_⟩
    unfold stepScanHoldchk; split <;> simp
  · obtain ⟨f, -, hx⟩ := applyAction_of_climate s.btn
    simp only [stepScanRepchk, hx, andThen_next]
    split <;> exact ⟨_, rfl, by simp⟩
  · refine ⟨_, rfl, ?_⟩
    unfold stepScanRestore; split <;> simp
  · refine ⟨_, rfl, ?_⟩
    simp [stepEncode]
  · refine ⟨_, rfl, ?_⟩
    unfold stepSegTx; split <;> [skip; split] <;> simp
  · refine ⟨_, rfl, ?_⟩
    unfold stepSerLo; split <;> simp
  · refine ⟨_, rfl, ?_⟩
    unfold stepSerHi returnFromRefresh; split <;> [skip; split <;> [skip; split]] <;> simp
  · exact ⟨_, rfl, by simp⟩

theorem tick_reset (p : Params) {inp : Inputs} (s : State) (h : inp.rst = true) :
    tick p inp s = .next (s.resetRegs p) := by simp [tick, h]

theorem tick_fatal (p : Params) {inp : Inputs} {s : State} (h : inp.rst = false) (hf : s.phase = .fatal) :
    tick p inp s = .next s := by simp [tick, h, hf]

/-- A tick that is neither reset nor FATAL: MAIN's step, with SYNC's step beside it. -/
theorem tick_main (p : Params) {inp : Inputs} {s u : State} (h : inp.rst = false) (hf : s.phase ≠ .fatal)
    (hu : mainStep p inp s = .next u) : tick p inp s = .next (u.writeSync (syncStep p inp s.sync)) := by
  simp [tick, h, hf, hu]

/-- The same before MAIN's step is known. -/
theorem tick_running (p : Params) {inp : Inputs} {s : State} (h : inp.rst = false) (hf : s.phase ≠ .fatal) :
    tick p inp s = (mainStep p inp s).andThen fun u => .next (u.writeSync (syncStep p inp s.sync)) := by
  simp [tick, h, hf]

@[simp] theorem idleAdvance_climate (p : Params) (s : State) : (idleAdvance p s).climate = s.climate := by
  unfold idleAdvance; split <;> [skip; split] <;> simp

@[simp] theorem idleAdvance_cmdStatus (p : Params) (s : State) : (idleAdvance p s).cmdStatus = s.cmdStatus := by
  unfold idleAdvance; split <;> [skip; split] <;> simp

@[simp] theorem idleAdvance_pending (p : Params) (s : State) : (idleAdvance p s).pending = s.pending := by
  unfold idleAdvance; split <;> [skip; split] <;> simp

@[simp] theorem idleAdvance_tickNo (p : Params) (s : State) : (idleAdvance p s).tickNo = s.tickNo := by
  unfold idleAdvance; split <;> [skip; split] <;> simp

/-- An IDLE tick: the command, then the sequencing, with SYNC beside them. -/
theorem tick_idle (p : Params) {inp : Inputs} {s u : State} (h : inp.rst = false) (hp : s.phase = .idle)
    (hu : acceptCommand inp s = .next u) :
    tick p inp s = .next ((idleAdvance p u).writeSync (syncStep p inp s.sync)) := by
  rw [tick_running p h (by simp [hp])]
  unfold mainStep
  rw [hp]
  simp only [stepIdle, hu, andThen_next]

/-- A low sense line is a press, in the words of R104. -/
theorem pressed_of_low {p : Params} {inp : Inputs} {s : State}
    (h : inp.lineIn.getLsbD (senseOf p s.btn).val = false) : pressed p inp s = true := by
  rw [pressed, readsLow, h]; rfl

theorem not_pressed_of_high {p : Params} {inp : Inputs} {s : State}
    (h : inp.lineIn.getLsbD (senseOf p s.btn).val = true) : pressed p inp s = false := by
  rw [pressed, readsLow, h]; rfl

/-- The three forms of a tick. -/
theorem tick_cases {p : Params} {inp : Inputs} {s t : State} (h : tick p inp s = .next t) :
    (inp.rst = true ∧ t = s.resetRegs p) ∨ (inp.rst = false ∧ s.phase = .fatal ∧ t = s) ∨
      (inp.rst = false ∧ s.phase ≠ .fatal ∧
        ∃ u, mainStep p inp s = .next u ∧ t = u.writeSync (syncStep p inp s.sync)) := by
  cases hr : inp.rst with
  | true =>
    rw [tick_reset p s hr, Host.Outcome.next.injEq] at h
    exact .inl ⟨rfl, h.symm⟩
  | false =>
    by_cases hf : s.phase = .fatal
    · rw [tick_fatal p hr hf, Host.Outcome.next.injEq] at h
      exact .inr (.inl ⟨rfl, hf, h.symm⟩)
    · obtain ⟨u, hu, -⟩ := mainStep_next p inp s
      rw [tick_main p hr hf hu, Host.Outcome.next.injEq] at h
      exact .inr (.inr ⟨rfl, hf, u, hu, h.symm⟩)

end Sys2Proof.Machine
end

