-- ==== Sys2Proof/Laws/Run.lean ====
section
/-! SUPPORT. How runs are put together, what a run of SYNC alone does at its end, and the timed phases one tick at a
time. -/

namespace Sys2Proof.Machine

/-- Every tick answers a next state. -/
theorem tick_next (p : Params) (inp : Inputs) (s : State) : ∃ t, tick p inp s = .next t := by
  cases hr : inp.rst with
  | true => exact ⟨_, tick_reset p s hr⟩
  | false =>
    by_cases hf : s.phase = .fatal
    · exact ⟨_, tick_fatal p hr hf⟩
    · obtain ⟨u, hu, -⟩ := mainStep_next p inp s
      exact ⟨_, tick_main p hr hf hu⟩

@[simp] theorem run_nil (p : Params) (s : State) : run p [] s = .next s := rfl

theorem run_cons (p : Params) (i : Inputs) (rest : List Inputs) (s : State) :
    run p (i :: rest) s = (tick p i s).andThen (run p rest) := rfl

/-- A run over two streams is the one run after the other. -/
theorem run_append (p : Params) (first rest : List Inputs) (s : State) :
    run p (first ++ rest) s = (run p first s).andThen (run p rest) := by
  induction first generalizing s with
  | nil => rfl
  | cons i more ih =>
    obtain ⟨t, ht⟩ := tick_next p i s
    simp only [List.cons_append, run_cons, ht, andThen_next, ih]

/-- Every run answers a next state. -/
theorem run_next (p : Params) (ins : List Inputs) (s : State) : ∃ t, run p ins s = .next t := by
  induction ins generalizing s with
  | nil => exact ⟨s, rfl⟩
  | cons i rest ih =>
    obtain ⟨t, ht⟩ := tick_next p i s
    simpa only [run_cons, ht, andThen_next] using ih t

@[simp] theorem syncRun_nil (p : Params) (r : SyncRegs) : syncRun p [] r = r := rfl

theorem syncRun_append (p : Params) (first rest : List Inputs) (r : SyncRegs) :
    syncRun p (first ++ rest) r = syncRun p rest (syncRun p first r) := by
  induction first generalizing r with
  | nil => rfl
  | cons i more ih => exact ih _

/-- SYNC_PREV follows sync_in in both phases (R172). -/
@[simp] theorem syncStep_prev (p : Params) (inp : Inputs) (r : SyncRegs) : (syncStep p inp r).prev = inp.syncIn := by
  unfold syncStep; split <;> split <;> rfl

/-- The edge of R172 in its own words. -/
theorem syncEdgeSeen_iff (p : Params) (prev now : Bool) : syncEdgeSeen p prev now = true ↔
    (p.syncEdge = .rising ∧ prev = false ∧ now = true) ∨ (p.syncEdge = .falling ∧ prev = true ∧ now = false) := by
  unfold syncEdgeSeen; cases p.syncEdge <;> simp

/-- An edge in S_IDLE starts a pulse (R172). -/
theorem syncStep_edge (p : Params) (inp : Inputs) {r : SyncRegs} (h : r.phase = .sIdle)
    (he : syncEdgeSeen p r.prev inp.syncIn = true) :
    syncStep p inp r = { phase := .sPulse, timer := p.nSyncPulse, prev := inp.syncIn } := by
  simp only [syncStep, h, he, if_true]

/-- S_IDLE without an edge only samples sync_in (R172). -/
theorem syncStep_no_edge (p : Params) (inp : Inputs) {r : SyncRegs} (h : r.phase = .sIdle)
    (he : syncEdgeSeen p r.prev inp.syncIn = false) :
    syncStep p inp r = { phase := .sIdle, timer := r.timer, prev := inp.syncIn } := by
  simp only [syncStep, h, he, Bool.false_eq_true, if_false]

/-- A pulse under way counts its ticks whatever sync_in does (R174). -/
theorem syncStep_pulse (p : Params) (inp : Inputs) {r : SyncRegs} (h : r.phase = .sPulse) :
    syncStep p inp r =
      if 1 < r.timer then { r with timer := r.timer - 1, prev := inp.syncIn }
      else { r with phase := .sIdle, prev := inp.syncIn } := by
  simp only [syncStep, h]

/-- One tick of a wait that goes on (R101). -/
theorem tick_wait_count (p : Params) {inp : Inputs} {s : State} (hr : inp.rst = false) (hp : s.phase = .wait)
    (ht : 1 < s.timer) :
    tick p inp s = .next ((s.loadTimer (s.timer - 1)).writeSync (syncStep p inp s.sync)) := by
  refine tick_main p hr (by simp [hp]) ?_
  rw [mainStep, hp]
  simp [stepWait, ht]

/-- The last tick of a wait (R101). -/
theorem tick_wait_end (p : Params) {inp : Inputs} {s : State} (hr : inp.rst = false) (hp : s.phase = .wait)
    (ht : s.timer ≤ 1) :
    tick p inp s = .next ((s.goto s.wnext.phase).writeSync (syncStep p inp s.sync)) := by
  refine tick_main p hr (by simp [hp]) ?_
  rw [mainStep, hp]
  simp [stepWait, Nat.not_lt.mpr ht]

/-- One tick of SER_LO (R166). -/
theorem tick_serLo (p : Params) {inp : Inputs} {s : State} (hr : inp.rst = false) (hp : s.phase = .serLo) :
    tick p inp s = .next ((stepSerLo p s).writeSync (syncStep p inp s.sync)) :=
  tick_main p hr (by simp [hp]) (by rw [mainStep, hp])

/-- One tick of SER_HI (R167). -/
theorem tick_serHi (p : Params) {inp : Inputs} {s : State} (hr : inp.rst = false) (hp : s.phase = .serHi) :
    tick p inp s = .next ((stepSerHi p s).writeSync (syncStep p inp s.sync)) :=
  tick_main p hr (by simp [hp]) (by rw [mainStep, hp])

end Sys2Proof.Machine
end

