-- ==== Sys2Proof/Laws/Temperature.lean ====
section
/-! SUPPORT. The average's range, and the die-sensor formula in integers against the formula over the reals (R12, R142,
R150). -/

namespace Sys2Proof.Machine

/-- The mean of 128 codes of at most 16 bits is below 2^16 before it saturates (R142). -/
theorem average_of_codes {acc : Nat} (h : acc ≤ 128 * 0xFFFF) : average acc = (acc + 64) / 128 := by
  unfold average avgN; omega

/-- rnd_half_away of a ratio, over the reals and over the integers. -/
theorem rndHalfAway_ratio (n : Int) {d : Nat} (h : 0 < d) : rndHalfAway ((n : ℝ) / d) = rndHalfAwayRatio n d := by
  have hd : (0 : ℝ) < d := by exact_mod_cast h
  have key : ∀ m : Int, ⌊(m : ℝ) / d + 1 / 2⌋ = (2 * m + d) / (2 * d) := by
    intro m
    have e : (m : ℝ) / d + 1 / 2 = ((2 * m + d : Int) : ℝ) / ((2 * d : Nat) : ℝ) := by
      push_cast; field_simp
    rw [e, Int.floor_div_natCast, Int.floor_intCast]
    push_cast
    rfl
  unfold rndHalfAway rndHalfAwayRatio
  by_cases hn : 0 ≤ n
  · rw [if_pos (by positivity : 0 ≤ (n : ℝ) / d), if_pos hn, key]
  · rw [if_neg (by rw [not_le]; exact div_neg_of_neg_of_pos (by exact_mod_cast not_le.mp hn) hd), if_neg hn]
    have e : -((n : ℝ) / d) = ((-n : Int) : ℝ) / d := by push_cast; ring
    rw [e, key]
    congr 2
    ring

/-- The exact value of R150 is the ratio of DieSensor.lean. -/
theorem exactDie_eq (c : BitVec 12) : exactDie c.toNat = (dieNumerator c : ℝ) / dieDenominator := by
  unfold exactDie dieNumerator dieDenominator
  push_cast
  norm_num
  ring

/-- The reference DIE_FN in integers is that over the reals. -/
theorem dieReference_eq (c : BitVec 12) : dieReference c = rndHalfAway (exactDie c.toNat) := by
  rw [exactDie_eq, rndHalfAway_ratio _ (by decide), dieReference]

end Sys2Proof.Machine
end

