-- ==== Sys2Proof/Tests/Slice0.lean ====
section
/-! SUPPORT. The model's own tests. Expected results come from spec/95_test_vectors.md (its section is named) or from the
rule's own example. The second half gives, for every statement that has hypotheses, a concrete instance that meets them
together. -/

namespace Sys2Proof.Tests

open Sys2Proof Sys2Proof.Machine

/-- The next state of an answer. -/
def stateOf : Result → Option State
  | .next s => some s
  | .fault _ => none
  | .refused _ => none

/-- The spec's defaults with a THERM_FN that always answers 25 (the value of code 2048 in the example calibration). -/
def standard : Params := Params.standard (fun _ => some 25) dieReference

/-- The layouts of the defaults with every time one tick, so that a run of a few ticks shows a phase's end. -/
def quick : Params :=
  { standard with
    nSettle := 1, nDebounce := 1, nHold := 1, nRepeat := 1, nClkLow := 1, nClkHigh := 1, nGap := 1, nSyncPulse := 1 }

/-- A tick with nothing offered and every line high. -/
def quiet : Inputs := quietInputs true

/-- A tick with every matrix line low. -/
def low : Inputs := { quiet with lineIn := 0 }

/-- A tick in which the host offers a word. -/
def offer (w : Word) : Inputs := offerWord w quiet

/-- The ClimateState after reset with one field changed, in a state otherwise reset. -/
def withClimate (c : ClimateState) : State := { State.resetOf quick with climate := c }

/-- A state of a phase, otherwise reset. -/
def inPhase (ph : Phase) : State := { State.resetOf quick with phase := ph, timer := 1 }

/-- A state of a phase with this button under scan. -/
def scanning (ph : Phase) (b : BitVec 3) : State := { inPhase ph with btn := b }

/-- The phase after one tick. -/
def phaseAfter (p : Params) (inp : Inputs) (s : State) : Option Phase := (stateOf (tick p inp s)).map State.phase

/-- The ClimateState after one tick. -/
def climateAfter (p : Params) (inp : Inputs) (s : State) : Option ClimateState :=
  (stateOf (tick p inp s)).map State.climate

/-! ## WellFormed: each check refuses an ill-formed term, and the decoder refuses its word -/

theorem test_wf_setfan : (Instr.setfan 51).wf = false ∧ (Instr.setfan 50).wf = true := by decide

theorem test_wf_setamb :
    (Instr.setamb 128).wf = false ∧ (Instr.setamb (-129)).wf = false ∧ (Instr.setamb (-128)).wf = true := by decide

theorem test_wf_setunit : (Instr.setunit 2).wf = false ∧ (Instr.setunit 1).wf = true := by decide

theorem test_wf_ill_formed_words_refused :
    decode (encode (.setfan 51)) = .error .fanValue ∧ decode (encode (.setamb 128)) = .error .ambientRange ∧
      decode (encode (.setunit 2)) = .error .unitValue := by decide

/-! ## Decode: every row's word written out from R65 and R68, OP then IMM12 -/

theorem test_decode_nop : decode 0b0000000000000000#16 = .ok .nop := by decide

theorem test_decode_cycmode : decode 0b0001000000000000#16 = .ok .cycmode := by decide

theorem test_decode_tglac : decode 0b0010000000000000#16 = .ok .tglac := by decide

theorem test_decode_tglrec : decode 0b0011000000000000#16 = .ok .tglrec := by decide

/-- IMM12 = 0000 0110 0100 = 100. -/
theorem test_decode_setfan : decode 0b0100000001100100#16 = .ok (.setfan 100) := by decide

/-- IMM12 = 0111 1111 1111 = 2047 (section 2.1, word 0x57FF). -/
theorem test_decode_adjset : decode 0b0101011111111111#16 = .ok (.adjset 2047) := by decide

/-- IMM12 = 1111 1111 1011 = -5 (section 2.1, word 0x6FFB). -/
theorem test_decode_setset : decode 0b0110111111111011#16 = .ok (.setset (-5)) := by decide

/-- IMM12 = 0000 0111 1111 = 127 (section 2.1, word 0x707F). -/
theorem test_decode_setamb : decode 0b0111000001111111#16 = .ok (.setamb 127) := by decide

theorem test_decode_setunit : decode 0b1000000000000001#16 = .ok (.setunit 1) := by decide

theorem test_decode_tglunit : decode 0b1001000000000000#16 = .ok .tglunit := by decide

/-- The illegal words of section 2.1, each clause of R69 at its boundary. -/
theorem test_decode_rejects :
    decode 0x0001 = .error .unusedOperand ∧ decode 0x1001 = .error .unusedOperand ∧
      decode 0x3800 = .error .unusedOperand ∧ decode 0x9001 = .error .unusedOperand ∧
      decode 0x4001 = .error .fanValue ∧ decode 0x4033 = .error .fanValue ∧ decode 0x4FFF = .error .fanValue ∧
      decode 0x7080 = .error .ambientRange ∧ decode 0x7F7F = .error .ambientRange ∧
      decode 0x8002 = .error .unitValue ∧ decode 0xA000 = .error .reservedOpcode ∧
      decode 0xF000 = .error .reservedOpcode ∧ decode 0xFFFF = .error .reservedOpcode := by decide

theorem test_decodeTableWord :
    decodeTableWord 16 0x4032 = some (.setfan 50) ∧ decodeTableWord 16 0x4033 = none := by decide

/-! ## The commands (sections 1.1, 1.2 and 2.2) -/

theorem test_nop_clears_status :
    (stateOf (exec .nop { State.resetOf quick with cmdStatus := true })) = some (State.resetOf quick) := by decide

theorem test_cycmode_wraps : (stateOf (exec .cycmode (State.resetOf quick))).map (·.climate.mode) = some 0 := by decide

theorem test_tglac_on : (stateOf (exec .tglac (State.resetOf quick))).map (·.climate.acOn) = some true := by decide

theorem test_tglrec_off :
    (stateOf (exec .tglrec (withClimate { ClimateState.reset with recircOn := true }))).map (·.climate.recircOn) =
      some false := by decide

theorem test_setfan_low : (stateOf (exec (.setfan 50) (State.resetOf quick))).map (·.climate.fanLevel) = some 50 := by decide

theorem test_adjset_saturates_up :
    (stateOf (exec (.adjset 2047) (State.resetOf quick))).map (·.climate.setTemp) = some 90 := by decide

theorem test_adjset_saturates_down :
    (stateOf (exec (.adjset (-2048)) (withClimate { ClimateState.reset with setTemp := 90 }))).map (·.climate.setTemp) =
      some 60 := by decide

theorem test_setset_in_range :
    (stateOf (exec (.setset 75) (State.resetOf quick))).map (·.climate.setTemp) = some 75 := by decide

theorem test_setset_clamps :
    (stateOf (exec (.setset (-5)) (withClimate { ClimateState.reset with setTemp := 70 }))).map (·.climate.setTemp) =
      some 60 := by decide

theorem test_setamb_lowest :
    (stateOf (exec (.setamb (-128)) (State.resetOf quick))).map (·.climate.ambientTemp) = some 0x80 := by decide

theorem test_setunit_fahrenheit :
    (stateOf (exec (.setunit 1) (State.resetOf quick))).map (·.climate.displayUnit) = some true := by decide

theorem test_tglunit_on :
    (stateOf (exec .tglunit (State.resetOf quick))).map (·.climate.displayUnit) = some true := by decide

/-- Section 2.2, word 0x4033 with FAN_LEVEL 50. -/
theorem test_illegal_word_sets_status_only :
    (stateOf (perform .host 0x4033 (withClimate { ClimateState.reset with fanLevel := 50 }))) =
      some { withClimate { ClimateState.reset with fanLevel := 50 } with cmdStatus := true } := by decide

/-- R111: the same word as a button action leaves CMD_STATUS. -/
theorem test_button_keeps_status :
    (stateOf (perform .button 0x5001 { State.resetOf quick with cmdStatus := true })).map
      (fun t => (t.climate.setTemp, t.cmdStatus)) = some (61, true) := by decide

/-! ## The step of the machine -/

theorem test_step_runs_fetched_word :
    (stateOf (step (State.reset.withFetchWord 16 0x2000))).map (·.climate.acOn) = some true := by decide

theorem test_step_rejects_fetched_word :
    (stateOf (step (State.reset.withFetchWord 16 0xA000))).map (fun t => (t.cmdStatus, t.climate)) =
      some (true, ClimateState.reset) := by decide

/-! ## The encoder (sections 1.5, 2.3, 2.5, 2.6), the average (3.4), the die sensor (3.8), the reset outputs (3.12) -/

theorem test_decompose :
    decompose (-128) = ⟨true, true, 2, 8⟩ ∧ decompose 127 = ⟨false, true, 2, 7⟩ ∧ decompose (-5) = ⟨true, false, 0, 5⟩ ∧
      decompose 99 = ⟨false, false, 9, 9⟩ ∧ decompose 100 = ⟨false, true, 0, 0⟩ := by decide

theorem test_gauge : gaugePort 62 = 0 ∧ gaugePort 63 = 1 ∧ gaugePort 75 = 5 ∧ gaugePort 89 = 9 ∧ gaugePort 90 = 10 := by decide

theorem test_segment_words :
    segWordOf standard { ClimateState.reset with mode := 0, recircOn := true, setTemp := 75 } = 0x0001296D ∧
      segWordOf standard { ClimateState.reset with mode := 3, acOn := true, recircOn := true, displayUnit := true } =
        0x0002BE3F := by decide

theorem test_serial_words :
    serWordOf standard { ClimateState.reset with ambientTemp := -128 } = 0x00027DEDFF ∧
      serWordOf standard { ClimateState.reset with ambientTemp := -5, setTemp := 90 } = 0x08006F5FED ∧
      serWordOf standard { ClimateState.reset with ambientTemp := 25, setTemp := 75 } = 0x0040072DED := by decide

theorem test_average : average 12991 = 101 ∧ average 12992 = 102 ∧ average 524160 = 4095 := by decide

theorem test_die :
    dieTempOf standard 0 = 0x1114 ∧ dieTempOf standard 876 = 0x010F ∧ dieTempOf standard 1000 = 0xFECB ∧
      dieTempOf standard 4095 = 0xC632 := by decide

theorem test_reset_outputs :
    (outputs standard (State.resetOf standard) 0).lineDrive = 0 ∧
      (outputs standard (State.resetOf standard) 0).ledMode = 0b10000 ∧
      (outputs standard (State.resetOf standard) 0).ledFan = 0b001 ∧
      (outputs standard (State.resetOf standard) 0).serClk = true ∧
      (outputs standard (State.resetOf standard) 0).cmdReady = true ∧
      (outputs standard (State.resetOf standard) 0).gaugeLevel = 0 := by decide

/-- R102's example: button 2 drives L0. -/
theorem test_scan_drive_line : (stateOf (tick standard quiet (scanning .scanDrive 2))).map (·.lineMode) = some 0b000001 := by
  decide

/-- R104's example: line_in = 0b011111 reads button 2 pressed. -/
theorem test_scan_sample_pressed :
    phaseAfter standard { quiet with lineIn := 0b011111 } (scanning .scanSample 2) = some .wait := by decide

/-- R203's example: adc_err with CNT = 4. -/
theorem test_adc_fail :
    (stateOf (tick standard { quiet with adcErr := true, adcValid := true } { inPhase .tempSample with cnt := 4 })).map
      (fun t => (t.phase, t.faultCause, t.cnt)) = some (.fatal, .adcFail, 4) := by decide

/-- Section 3.4: a reading 0xF800 with ADC_BITS = 12 contributes 2048. -/
theorem test_adc_mask :
    (stateOf (tick standard { quiet with adcValid := true, adcCode := 0xF800 } (inPhase .tempSample))).map (·.acc) =
      some 2048 := by decide

/-- Section 3.10: sync_in = 1 from the first tick on is no edge. -/
theorem test_no_sync_edge_at_reset :
    (syncStep standard { quiet with syncIn := true } (SyncRegs.resetOf standard)).phase = .sIdle := by decide

/-- Section 2.5: the bytes of 0x0002BE3F. -/
theorem test_segment_bytes :
    segBytesSent standard { State.resetOf standard with segWord := 0x0002BE3F } = [0x3F, 0xBE, 0x02] := by decide

/-- R72, R73: lines of text. -/
theorem test_assembler :
    assembleLine "SETSET -5 ; clamp".toList = some [0x6FFB] ∧ assembleLine "SETUNIT 2".toList = none ∧
      assembleLine "  ; nothing".toList = some [] := by decide

/-! ## Witnesses: the hypotheses of each statement, met together -/

/-- NopWritesStatusOnly, SetfanStoresLegalLevels, SetambStoresUnclamped, SetunitStoresTheUnit: operands on both sides
of each bound. -/
theorem witness_operands :
    (0xFFF : Imm12) ≠ 0 ∧ (0 : Imm12).toNat = 0 ∧ (50 : Imm12).toNat = 50 ∧ (100 : Imm12).toNat = 100 ∧
      ((101 : Imm12).toNat ≠ 0 ∧ (101 : Imm12).toNat ≠ 50 ∧ (101 : Imm12).toNat ≠ 100) ∧
      (-128 ≤ (-128 : Imm12).toInt ∧ (-128 : Imm12).toInt ≤ 127) ∧ (-128 ≤ (127 : Imm12).toInt ∧ (127 : Imm12).toInt ≤ 127) ∧
      (-129 : Imm12).toInt < -128 ∧ 127 < (128 : Imm12).toInt ∧ 2 ≤ (2 : Imm12).toNat := by decide

/-- CycmodeAdvancesTheMode: every mode code, Defrost in the reset state. -/
theorem witness_modes :
    (State.resetOf quick).climate.mode = ClimateMode.defrost.code ∧ (State.resetOf quick).climate.mode.toNat ≤ 4 ∧
      (withClimate { ClimateState.reset with mode := 0 }).climate.mode = ClimateMode.face.code := by decide

/-- IllegalWordsOfRule69: an illegal word. -/
theorem witness_illegal : decode 0x4033#16 = .error .fanValue := by decide

/-- CommandFamilyFrame: every command answers a next state, ill-formed operands included. -/
theorem witness_frame :
    ([.nop, .cycmode, .tglac, .tglrec, .setfan 50, .setfan 51, .adjset 1, .setset 75, .setamb 5, .setamb 128, .setunit 1,
      .setunit 2, .tglunit] : List Instr).all (fun i => (stateOf (exec i (State.resetOf quick))).isSome) = true := by decide

/-- EverySetTempWriteClamps, ReachableFramesShowOneGauge: a reachable state that is not the reset state. -/
theorem witness_reachable : ∃ t, Reachable standard t ∧ t.climate.setTemp = 90 ∧ standard.SegLegal ∧ standard.SerLegal :=
  ⟨_, .tick (offer 0x57FF) .reset rfl, by decide, (standard_legal _ _).2.2.1, (standard_legal _ _).2.2.2.1⟩

/-- ClimateRegisterWriters: a tick without reset that changes each register, through each of its writers. -/
theorem witness_climate_writers :
    (climateAfter quick (offer 0x1000) (State.resetOf quick)).map (·.mode) = some 0 ∧
      (climateAfter quick (offer 0x2000) (State.resetOf quick)).map (·.acOn) = some true ∧
      (climateAfter quick (offer 0x3000) (State.resetOf quick)).map (·.recircOn) = some true ∧
      (climateAfter quick (offer 0x4064) (State.resetOf quick)).map (·.fanLevel) = some 100 ∧
      (climateAfter quick (offer 0x604B) (State.resetOf quick)).map (·.setTemp) = some 75 ∧
      (climateAfter quick (offer 0x7005) (State.resetOf quick)).map (·.ambientTemp) = some 5 ∧
      (climateAfter quick quiet (inPhase .tempConvert)).map (·.ambientTemp) = some 25 ∧
      (climateAfter quick (offer 0x9000) (State.resetOf quick)).map (·.displayUnit) = some true ∧
      (climateAfter quick quiet (scanning .scanConfirm 2)).map (·.setTemp) = some 61 ∧
      (climateAfter quick low (scanning .scanRepchk 5)).map (·.fanLevel) = some 100 := by decide

/-- SequencingRegisterWriters: a tick without reset that changes each register. -/
theorem witness_sequencing_writers :
    (stateOf (tick quick quiet (scanning .scanDrive 3))).map (·.lineMode) = some 0b000010 ∧
      (stateOf (tick quick quiet (inPhase .encode))).map (·.segWord) = some 0x00014C3F ∧
      (stateOf (tick quick quiet (scanning .scanRestore 3))).map (·.btn) = some 4 ∧
      (stateOf (tick quick low (scanning .scanRepchk 3))).map (·.ret) = some .rep ∧
      (stateOf (tick quick { quiet with adcValid := true } (inPhase .tempSample))).map (·.cnt) = some 1 ∧
      (stateOf (tick quick { quiet with segDone := true } (inPhase .segTx))).map (·.bitk) = some 39 ∧
      (stateOf (tick quick (offer 0xA000) (State.resetOf quick))).map (·.cmdStatus) = some true ∧
      (stateOf (tick quick { quiet with segErr := true } (inPhase .segTx))).map (·.faultCause) = some .segWriteFail := by
  decide

/-- SequencingRegisterWriters: TIMER and WNEXT, in each kind of phase that changes them, and SER_LO and SER_HI ticks that
keep WNEXT. -/
theorem witness_timer_writers :
    let after := fun (inp : Inputs) (s : State) => (stateOf (tick standard inp s)).map fun t => (t.phase, t.timer, t.wnext)
    after quiet { inPhase .idle with timer := 9 } = some (.idle, 8, .scanSample) ∧
      after quiet (scanning .scanDrive 3) = some (.wait, 10, .scanSample) ∧
      after low (scanning .scanSample 3) = some (.wait, 10000, .scanConfirm) ∧
      after low (scanning .scanHoldchk 3) = some (.wait, 50000, .scanRepchk) ∧
      after { quiet with segDone := true } (inPhase .segTx) = some (.serLo, 8, .scanSample) ∧
      after quiet { inPhase .serLo with wnext := .scanHoldchk } = some (.serHi, 2, .scanHoldchk) ∧
      after quiet { inPhase .serHi with bitk := 1, wnext := .scanHoldchk } = some (.serLo, 8, .scanHoldchk) ∧
      after quiet { inPhase .serHi with bitk := 0, ret := .rep } = some (.wait, 50000, .scanRepchk) := by decide

/-- StepRunsTheOfferedCommand: a state in IDLE with an offered word that decodes. -/
theorem witness_step :
    let s : State := { State.reset with pending := [offer 0x5001, quiet] }
    s.phase = .idle ∧ s.pending = offer 0x5001 :: [quiet] ∧ (offer 0x5001).rst = false ∧
      (offer 0x5001).cmdValid = true ∧ decode (offer 0x5001).cmdWord = .ok (.adjset 1) ∧
      decodeTableWord 16 0x9000 = some .tglunit := by decide

/-- CommandsAcceptedOnlyInIdle: a word offered in IDLE, out of IDLE, and under reset. -/
theorem witness_offer :
    ((offer 0x2000).rst = false ∧ (State.resetOf quick).phase = .idle ∧ (offer 0x2000).cmdValid = true) ∧
      (inPhase .wait).phase ≠ .idle ∧ { quiet with rst := true }.rst = true := by decide

/-- IdleLastsItsTimer and WaitLastsItsTimer: two ticks without reset from TIMER = 2, and the end of IDLE with and
without the temperature stage. -/
theorem witness_timed :
    let idle : State := { inPhase .idle with timer := 2 }
    let wait : State := { inPhase .wait with timer := 2, wnext := .scanHoldchk }
    (idle.phase = .idle ∧ 1 ≤ idle.timer ∧ [quiet, quiet].length = idle.timer ∧ NoReset [quiet, quiet]) ∧
      (wait.phase = .wait ∧ 1 ≤ wait.timer ∧ [quiet, quiet].length = wait.timer) ∧
      (stateOf (run quick [quiet, quiet] idle)).map (·.phase) = some .tempSample ∧
      (stateOf (run { quick with tempStageEn := false } [quiet, quiet] idle)).map (·.phase) = some .scanDrive ∧
      (stateOf (run quick [quiet, quiet] wait)).map (·.phase) = some .scanHoldchk := by
  unfold NoReset; decide

/-- DriveAndRestoreTheLine, SampleAndHoldCheck, ConfirmAppliesTheActionOnce, RepeatCheckReapplies: both levels of the
sense line, and the first and last button. -/
theorem witness_scan :
    (quiet.rst = false ∧ quiet.lineIn.getLsbD (senseOf quick 0).val = true) ∧
      (low.rst = false ∧ low.lineIn.getLsbD (senseOf quick 7).val = false) ∧
      (scanning .scanRestore 6).btn.toNat < 7 ∧ (scanning .scanRestore 7).btn.toNat = 7 ∧
      phaseAfter quick quiet (scanning .scanRestore 7) = some .encode ∧
      phaseAfter quick low (scanning .scanHoldchk 7) = some .wait ∧
      phaseAfter quick quiet (scanning .scanHoldchk 0) = some .scanRestore ∧
      phaseAfter quick low (scanning .scanConfirm 7) = some .wait ∧
      phaseAfter quick quiet (scanning .scanConfirm 0) = some .scanRestore ∧
      (({ inPhase .serHi with bitk := 0, ret := .rep } : State).timer ≤ 1) ∧
      phaseAfter quick quiet { inPhase .serHi with bitk := 0, ret := .rep } = some .wait ∧
      phaseAfter quick quiet { inPhase .serHi with bitk := 0, ret := .idle } = some .idle := by decide

/-- UnpressedButtonTakesSettlePlusThree: four ticks with every line high, first and last button. -/
theorem witness_unpressed :
    let ins := [quiet, quiet, quiet, quiet]
    1 ≤ quick.nSettle ∧ (scanning .scanDrive 7).phase = .scanDrive ∧ (scanning .scanDrive 7).lineMode = 0 ∧
      ins.length = quick.nSettle + 3 ∧ NoReset ins ∧
      (∀ i ∈ ins[quick.nSettle + 1]?, i.lineIn.getLsbD (senseOf quick 7).val = true) ∧
      (stateOf (run quick ins (scanning .scanDrive 0))).map (fun t => (t.phase, t.btn)) = some (.scanDrive, 1) ∧
      (stateOf (run quick ins (scanning .scanDrive 7))).map (fun t => (t.phase, t.btn)) = some (.encode, 7) := by
  unfold NoReset; decide

/-- ShortPressAppliesOnce, released at SCAN_CONFIRM: low at the sample, high at the confirm sample. -/
theorem witness_short_press :
    let ins := [low, low, low, low, quiet, quiet]
    ins.length = quick.nSettle + quick.nDebounce + 4 ∧ NoReset ins ∧
      (∀ i ∈ ins[quick.nSettle + 1]?, i.lineIn.getLsbD (senseOf quick 2).val = false) ∧
      (∀ i ∈ ins[quick.nSettle + quick.nDebounce + 2]?, i.lineIn.getLsbD (senseOf quick 2).val = true) ∧
      (stateOf (run quick ins (scanning .scanDrive 2))).map (fun t => (t.phase, t.btn, t.climate.setTemp)) =
        some (.scanDrive, 3, 61) := by
  unfold NoReset; decide

/-- ShortPressAppliesOnce, released at SCAN_HOLDCHK: low at the sample and the confirm sample, high at the hold check;
the last button ends the pass. -/
theorem witness_short_press_held :
    let ins := [low, low, low, low, low, low, quiet, quiet]
    1 ≤ quick.nHold ∧ ins.length = quick.nSettle + quick.nDebounce + quick.nHold + 5 ∧ NoReset ins ∧
      (∀ i ∈ ins[quick.nSettle + 1]?, i.lineIn.getLsbD (senseOf quick 7).val = false) ∧
      (∀ i ∈ ins[quick.nSettle + quick.nDebounce + 2]?, i.lineIn.getLsbD (senseOf quick 7).val = false) ∧
      (∀ i ∈ ins[quick.nSettle + quick.nDebounce + quick.nHold + 3]?, i.lineIn.getLsbD (senseOf quick 7).val = true) ∧
      (stateOf (run quick ins { scanning .scanDrive 7 with climate := { ClimateState.reset with setTemp := 70 } })).map
        (fun t => (t.phase, t.btn, t.climate.setTemp)) = some (.encode, 7, 69) := by
  unfold NoReset; decide

/-- HeldButtonNeverReachesIdle: MAIN in the confirm sample and in a repeat refresh, and ticks that are low and without
reset or failure whatever the phase. -/
theorem witness_held :
    HeldScan (scanning .scanConfirm 2) ∧ HeldScan { scanning .serHi 2 with ret := .rep } ∧
      HeldScan { scanning .wait 2 with wnext := .scanRepchk } ∧
      ∀ i ∈ [low, low], i.rst = false ∧ i.segErr = false ∧ i.lineIn.getLsbD (senseOf quick 2).val = false := by
  unfold HeldScan; decide

/-- DecomposeIsThePositionalSplit and GaugeLevelIsTheTruncatedMap: the ends of the ranges. -/
theorem witness_values :
    (-128 : Int) ≤ -128 ∧ (127 : Int) ≤ 127 ∧ gaugeLevel 90 = some 10 ∧ gaugeLevel 60 = some 0 ∧
      gaugeLevel 59 = none ∧ gaugeLevel 91 = none := by decide

/-- SegmentWordCarriesEverySignal, SerialWordCarriesEverySignal, SegmentBytesAreLittleEndian and both invariant
statements: the defaults are legal. -/
theorem witness_layouts : standard.Legal ∧ standard.SegLegal ∧ standard.SerLegal ∧ standard.segBytes ≤ 4 :=
  ⟨standard_legal _ _, (standard_legal _ _).2.2.1, (standard_legal _ _).2.2.2.1, by decide⟩

/-- EncodeLatchesOneSnapshot. -/
theorem witness_encode : quiet.rst = false ∧ (inPhase .encode).phase = .encode := by decide

/-- OutputsMirrorTheRegisters: a state of each kind of phase it speaks of. -/
theorem witness_outputs :
    (outputs quick (inPhase .tempSample) 0).adcReq = true ∧ (outputs quick (inPhase .segTx) 0).segReq = true ∧
      (outputs quick (inPhase .serLo) 0).serClk = false ∧ (inPhase .idle).phase ≠ .serLo := by decide

/-- OutputsMirrorTheRegisters: gauge_level inside [60, 90], at its ends and outside (section 2.6, R138). -/
theorem witness_gauge_port :
    let port := fun v : BitVec 8 => (outputs quick (withClimate { ClimateState.reset with setTemp := v }) 0).gaugeLevel
    port 60 = 0 ∧ port 75 = 5 ∧ port 90 = 10 ∧ port 59 = 15 ∧ port 91 = 15 := by decide

/-- TempSampleAccumulatesOneReading: each of its three kinds of tick, and the 128th reading. -/
theorem witness_temp_sample :
    phaseAfter quick { quiet with adcErr := true } (inPhase .tempSample) = some .fatal ∧
      phaseAfter quick { quiet with adcValid := true } { inPhase .tempSample with cnt := 127 } = some .tempConvert ∧
      phaseAfter quick { quiet with adcValid := true } { inPhase .tempSample with cnt := 126 } = some .tempSample ∧
      phaseAfter quick quiet (inPhase .tempSample) = some .tempSample := by decide

/-- AverageRoundsHalfUp: the largest sum. -/
theorem witness_average : 128 * 0xFFFF ≤ 128 * 0xFFFF ∧ average (128 * 0xFFFF) = 0xFFFF := by decide

/-- StageSums128Readings: 127 answered ticks, then one more. -/
theorem witness_stage :
    let a : Inputs := { quiet with adcValid := true, adcCode := 2048 }
    let ins := List.replicate 127 a
    (inPhase .tempSample).phase = .tempSample ∧ (inPhase .tempSample).cnt = 0 ∧ (inPhase .tempSample).acc = 0 ∧
      NoReset (ins ++ [a]) ∧ (∀ i ∈ ins ++ [a], i.adcErr = false) ∧ a.adcValid = true ∧
      (ins.filter (·.adcValid)).length = 127 := by
  refine ⟨rfl, rfl, rfl, fun i hi => ?_, fun i hi => ?_, rfl, by rw [List.filter_replicate]; rfl⟩ <;>
  · rw [← List.replicate_succ'] at hi
    rw [List.eq_of_mem_replicate hi]
    rfl

/-- TempConvertWritesAmbient: a THERM_FN that answers DOMAIN and one that answers a value. -/
theorem witness_temp_convert :
    quick.thermFn (average 0) = some 25 ∧ ({ quick with thermFn := fun _ => none } : Params).thermFn (average 0) = none ∧
      phaseAfter quick quiet (inPhase .tempConvert) = some .scanDrive ∧
      phaseAfter { quick with thermFn := fun _ => none } quiet (inPhase .tempConvert) = some .fatal := by
  refine ⟨rfl, rfl, by decide, by decide⟩

/-- A calibration in which code 1 is the whole domain: its resistance is R0, so it converts to T0. -/
def unitCalibration : Calibration := ⟨1, 1, 1, 1, 2, .divA⟩

/-- A THERM_FN that is the reference itself. -/
noncomputable def exactTherm (c : Nat) : Option (BitVec 8) :=
  (thermReference unitCalibration c).map (BitVec.ofInt 8)

/-- ConformingConversion: a conforming THERM_FN, with code 0, code ADC_FULL and the code between. -/
theorem witness_conforming :
    ThermDomain unitCalibration exactTherm ∧ ThermClose unitCalibration exactTherm ∧
      average 0 = 0 ∧ unitCalibration.adcFull ≤ average 256 ∧
      (average 128 ≠ 0 ∧ average 128 < unitCalibration.adcFull ∧
        0 < inverseKelvin unitCalibration (resistance unitCalibration (average 128))) := by
  have h128 : average 128 = 1 := by decide
  refine ⟨fun c => by simp [exactTherm], fun c v r hv hr => ?_, by decide, by decide, by decide, by decide, ?_⟩
  · rw [exactTherm, hr, Option.map_some, Option.some.injEq] at hv
    have hb : -128 ≤ r ∧ r ≤ 127 := by
      unfold thermReference at hr
      split at hr
      · cases hr
      · rw [Option.some.injEq] at hr
        subst hr
        unfold quantize clamp
        split <;> [omega; split <;> omega]
    have hvr : v.toInt = r := by
      subst hv
      rw [BitVec.toInt_ofInt, Int.bmod_eq_of_le] <;> omega
    exact ⟨by rw [hvr]; simp, fun _ => hvr⟩
  · rw [h128]
    norm_num [inverseKelvin, resistance, unitCalibration]

/-- ConformingConversion's equality: the exact value of code 1 in that calibration, 1 - 273.15, lies away from every
half-integer. -/
theorem witness_away_from_ties :
    AwayFromTies (1 / inverseKelvin unitCalibration (resistance unitCalibration (average 128)) - 273.15) := by
  have h128 : average 128 = 1 := by decide
  have e : 1 / inverseKelvin unitCalibration (resistance unitCalibration 1) - 273.15 = -272.15 := by
    norm_num [inverseKelvin, resistance, unitCalibration]
  intro k
  rw [h128, e]
  rcases le_or_gt k (-273) with h | h
  · have hk : (k : ℝ) ≤ -273 := by exact_mod_cast h
    exact le_trans (by linarith) (le_abs_self _)
  · have hk : (-272 : ℝ) ≤ k := by exact_mod_cast h
    exact le_trans (by linarith) (neg_le_abs _)

/-- DieFnConforms: the reference is a DIE_FN that conforms, at both ends of die_code and beside a sign change. -/
theorem witness_die :
    DieClose standard.dieFn ∧ (outputs standard (inPhase .idle) 0).dieTemp.toInt = 4372 ∧
      (outputs standard (inPhase .idle) 4095).dieTemp.toInt = -14798 := by
  refine ⟨fun c => ?_, by decide, by decide⟩
  rw [show standard.dieFn c = dieReference c from rfl, dieReference_eq]
  simp

/-- SegmentWriteStartsTheFrame: each of its three kinds of tick. -/
theorem witness_segment_write :
    phaseAfter quick { quiet with segErr := true, segDone := true } (inPhase .segTx) = some .fatal ∧
      phaseAfter quick { quiet with segDone := true } (inPhase .segTx) = some .serLo ∧
      phaseAfter quick quiet (inPhase .segTx) = some .segTx := by decide

/-- A three-bit serial word, so that a frame is six ticks. -/
def narrow : Params := { quick with serWidth := 3 }

/-- SerialWaveform: a frame of three bits, first and last tick. -/
theorem witness_waveform :
    let s : State := { inPhase .serLo with bitk := 2, serWord := 0b101 }
    let ins := List.replicate 6 quiet
    1 ≤ narrow.nClkLow ∧ 1 ≤ narrow.nClkHigh ∧ 1 ≤ narrow.serWidth ∧ s.timer = narrow.nClkLow ∧
      s.bitk = narrow.serWidth - 1 ∧ ins.length = frameTicks narrow ∧ NoReset ins ∧
      (waveform narrow ins s).map (fun o => (o.serClk, o.serData)) =
        [(false, true), (true, true), (false, false), (true, false), (false, true), (true, true)] := by
  unfold NoReset; decide

/-- SerialWaveform's later ticks: no segment write is done in the ticks after the frame, and the lines stay idle. -/
theorem witness_waveform_after :
    let s : State := { inPhase .serLo with bitk := 2, serWord := 0b101 }
    (∀ i ∈ [quiet, low], i.segDone = false) ∧
      (stateOf (run narrow (List.replicate 6 quiet ++ [quiet, low]) s)).map
        (fun t => (t.phase, (outputs narrow t 0).serClk, (outputs narrow t 0).serData)) =
        some (.tempSample, true, false) := by decide

/-- RefreshSendsOneSnapshot: one waiting tick, then the answer, then a frame; both values of RET. -/
theorem witness_refresh :
    let done : Inputs := { quiet with segDone := true }
    let frame := List.replicate 6 quiet
    NoReset (quiet :: ([quiet] ++ done :: frame)) ∧ (∀ i ∈ [quiet], i.segErr = false ∧ i.segDone = false) ∧
      done.segErr = false ∧ done.segDone = true ∧ frame.length = frameTicks narrow ∧
      (stateOf (run narrow (quiet :: ([quiet] ++ done :: frame)) (inPhase .encode))).map (·.phase) = some .idle ∧
      (stateOf (run narrow (quiet :: ([quiet] ++ done :: frame)) { inPhase .encode with ret := .rep })).map (·.phase) =
        some .wait := by
  unfold NoReset; decide

/-- A tick with sync_in at this level. -/
def syncAt (level : Bool) : Inputs := { quiet with syncIn := level }

/-- SyncPulseLastsItsWidth: with RISING, a rising edge in S_IDLE starts a pulse of one tick; a falling edge and a steady
high level start none and keep SYNC_TIMER. -/
theorem witness_sync_rising :
    let before := fun level : Bool => ({ phase := .sIdle, timer := 1, prev := level } : SyncRegs)
    quick.syncEdge = .rising ∧ 1 ≤ quick.nSyncPulse ∧ [syncAt true].length = quick.nSyncPulse ∧
      (syncRun quick [syncAt true] (before false)).phase = .sPulse ∧
      (syncRun quick [syncAt true, syncAt true] (before false)).phase = .sIdle ∧
      syncRun quick [syncAt false] (before true) = before false ∧
      syncRun quick [syncAt true] (before true) = before true := by decide

/-- SyncPulseLastsItsWidth: with FALLING, a falling edge starts a pulse; a rising edge and a steady low level do not. -/
theorem witness_sync_falling :
    let p : Params := { quick with syncEdge := .falling }
    let before := fun level : Bool => ({ phase := .sIdle, timer := 1, prev := level } : SyncRegs)
    (syncRun p [syncAt false] (before true)).phase = .sPulse ∧
      (syncRun p [syncAt false, syncAt true] (before true)).phase = .sIdle ∧
      syncRun p [syncAt true] (before false) = before true ∧
      syncRun p [syncAt false] (before false) = before false := by decide

/-- SyncPulseLastsItsWidth's tick of the block: SYNC steps beside MAIN. -/
theorem witness_sync_in_block :
    (syncAt true).rst = false ∧ (inPhase .encode).phase ≠ .fatal ∧
      (stateOf (tick quick (syncAt true) { inPhase .encode with sync := ⟨.sIdle, 0, false⟩ })).map (·.sync) =
        some ⟨.sPulse, 1, true⟩ := by decide

/-- MainAndSyncAreIndependent and MainReadsOnlyItsPorts: different records and states that agree where they must. -/
theorem witness_independence :
    quiet.rst = low.rst ∧ quiet.syncIn = low.syncIn ∧ (inPhase .wait).sync = (inPhase .encode).sync ∧
      ((inPhase .wait).phase = .fatal ↔ (inPhase .encode).phase = .fatal) ∧ SameForMain .wait quiet low ∧
      SameForMain .scanSample low { low with cmdValid := true, adcErr := true } := by
  refine ⟨rfl, rfl, rfl, ?_, trivial, rfl⟩
  simp [inPhase]

/-- PhaseSuccessorTable: a tick without reset along each row of R191. -/
theorem witness_successors :
    phaseAfter quick quiet { inPhase .idle with timer := 2 } = some .idle ∧
      phaseAfter quick quiet (inPhase .idle) = some .tempSample ∧
      phaseAfter { quick with tempStageEn := false } quiet (inPhase .idle) = some .scanDrive ∧
      phaseAfter quick quiet (inPhase .scanDrive) = some .wait ∧
      phaseAfter quick quiet { inPhase .wait with timer := 2 } = some .wait ∧
      phaseAfter quick quiet (inPhase .wait) = some .scanSample ∧
      phaseAfter quick low (inPhase .scanSample) = some .wait ∧
      phaseAfter quick low (inPhase .scanRepchk) = some .encode ∧
      phaseAfter quick quiet (inPhase .scanRestore) = some .scanDrive ∧
      phaseAfter quick quiet (inPhase .encode) = some .segTx ∧
      phaseAfter quick quiet { inPhase .serLo with timer := 2 } = some .serLo ∧
      phaseAfter quick quiet (inPhase .serLo) = some .serHi ∧
      phaseAfter quick quiet { inPhase .serHi with bitk := 1 } = some .serLo ∧
      phaseAfter quick quiet (inPhase .fatal) = some .fatal := by decide

/-- FatalEntryIsPrecise: the three entries. -/
theorem witness_fatal_entry :
    (stateOf (tick quick { quiet with adcErr := true } (inPhase .tempSample))).map (·.faultCause) = some .adcFail ∧
      (stateOf (tick quick { quiet with segErr := true } (inPhase .segTx))).map (·.faultCause) = some .segWriteFail ∧
      (stateOf (tick { quick with thermFn := fun _ => none } quiet (inPhase .tempConvert))).map (·.faultCause) =
        some .thermDomain := by decide

/-- FatalFreezesUntilReset and ResetLoadsTheResetTable: a fatal state, ticks without reset, and a reset. -/
theorem witness_fatal :
    (inPhase .fatal).phase = .fatal ∧ NoReset [quiet, low] ∧ { low with rst := true }.rst = true ∧
      phaseAfter quick { low with rst := true } (inPhase .fatal) = some .idle := by
  unfold NoReset; decide

/-- StepKeepsTheBlockInvariant: a state that is not the reset state meets the invariant, with a line held. -/
theorem witness_invariant :
    Inv standard { State.resetOf standard with
      phase := .wait, wnext := .scanConfirm, timer := 7, btn := 2, lineMode := 0b000001 } := by
  refine ⟨?_, ?_, ?_, ?_⟩
  · unfold ClimateLegal; decide
  · unfold LinesOk; decide
  · unfold FaultOk; decide
  · constructor <;> decide

/-- UndisturbedCycle: a cycle of the one-tick parameters with the ADC answering 2048. -/
theorem witness_cycle :
    let i : Inputs := { quiet with adcValid := true, adcCode := 2048, segDone := true }
    let ins := List.replicate (1 + 129 + 8 * 4 + 2 + 80) i
    quick.TimesPositive ∧ 1 ≤ quick.serWidth ∧ quick.tempStageEn = true ∧ (inPhase .idle).timer = quick.nGap ∧
      Undisturbed ins ∧ ins.length = quick.nGap + 129 + 8 * (quick.nSettle + 3) + 2 + frameTicks quick ∧
      quick.thermFn (average ((((ins.drop quick.nGap).take 128).map (adcReading quick)).sum)) = some 25 := by
  refine ⟨by decide, by decide, rfl, rfl, fun j hj => ?_, by rw [List.length_replicate]; decide, rfl⟩
  rw [List.eq_of_mem_replicate hj]
  exact ⟨rfl, rfl, rfl, rfl, rfl, rfl, rfl⟩

/-- UndisturbedCycle with TEMP_STAGE_EN = 0: the same without the 129 ticks of the stage. -/
theorem witness_cycle_without_stage :
    let i : Inputs := { quiet with adcValid := true, segDone := true }
    let p : Params := { quick with tempStageEn := false }
    let ins := List.replicate (1 + 8 * 4 + 2 + 80) i
    p.TimesPositive ∧ 1 ≤ p.serWidth ∧ p.tempStageEn = false ∧ (inPhase .idle).timer = p.nGap ∧
      Undisturbed ins ∧ ins.length = p.nGap + 8 * (p.nSettle + 3) + 2 + frameTicks p := by
  refine ⟨by decide, by decide, rfl, rfl, fun j hj => ?_, by rw [List.length_replicate]; decide⟩
  rw [List.eq_of_mem_replicate hj]
  exact ⟨rfl, rfl, rfl, rfl, rfl, rfl, rfl⟩

/-- One repetition of a held button in the one-tick parameters with a three-bit frame. -/
def repeated : List Inputs := low :: quiet :: ([quiet] ++ { quiet with segDone := true } :: List.replicate 7 quiet)

/-- HeldPressAppliesOncePerRepeat: no repetition and one repetition with a segment write of two ticks, the last button. -/
theorem witness_held_press :
    let lead := [low, low, low, low, low, low, low, low]
    let start : State := { scanning .scanDrive 7 with climate := { ClimateState.reset with setTemp := 70 } }
    narrow.TimesPositive ∧ 1 ≤ narrow.serWidth ∧ NoReset (lead ++ [quiet, low]) ∧
      lead.length = narrow.nSettle + narrow.nDebounce + narrow.nHold + narrow.nRepeat + 4 ∧
      (∀ i ∈ lead, i.lineIn.getLsbD (senseOf narrow 7).val = false) ∧
      List.Forall₂ (Repetition narrow 7) [] [] ∧ List.Forall₂ (Repetition narrow 7) [2] [repeated] ∧
      quiet.lineIn.getLsbD (senseOf narrow 7).val = true ∧
      (stateOf (run narrow (lead ++ [quiet, low]) start)).map (fun t => (t.phase, t.climate.setTemp)) =
        some (.encode, 69) ∧
      (stateOf (run narrow (lead ++ (repeated ++ [quiet, low])) start)).map (fun t => (t.phase, t.climate.setTemp)) =
        some (.encode, 68) := by
  refine ⟨by decide, by decide, by unfold NoReset; decide, by decide, by decide, .nil, .cons ?_ .nil, by decide,
    by decide, by decide⟩
  exact ⟨low, quiet, [quiet], { quiet with segDone := true }, List.replicate 7 quiet, rfl,
    by unfold NoReset repeated; decide, by decide, rfl, by decide, rfl, rfl, by decide⟩

/-- AssemblerNeverEmitsIllegalWords: a line that is assembled and a `.word` line. -/
theorem witness_assembler :
    assembleLine "SETAMB 127".toList = some [0x707F] ∧ assembleLine ".word 0xA000".toList = some [0xA000] ∧
      (tokensFrom [] (dropComment ".word 0xA000".toList)).head? = some ".word".toList := by decide

end Sys2Proof.Tests
end

