-- ==== Sys2Proof/Proofs/Reset.lean ====
section
/-! The reset table (R44): the registers a reset loads, and what the output ports show of them (R40, R41). -/

namespace Sys2Proof.Machine

/-- SYNC_PREV resets to the level the configured edge leads to, so that no edge is seen at reset. -/
theorem resetOf_prev_iff (p : Params) : (SyncRegs.resetOf p).prev = true ↔ p.syncEdge = .rising :=
  beq_iff_eq

/-- Defrost lights bit 4. -/
theorem ledModeOf_reset : ledModeOf ClimateState.reset.mode = 0b10000 := rfl

/-- The fan is off, which lights bit 0. -/
theorem ledFanOf_reset : ledFanOf ClimateState.reset.fanLevel = 0b001 := rfl

/-- SET_TEMP = 60 is the lowest gauge level, not NONE. -/
theorem gaugePort_reset : gaugePort ClimateState.reset.setTemp.toInt = 0 := rfl

/-- Settles O55: a tick with `rst = 1` answers `resetRegs`, whose registers and flag ports are those of R44 by definition;
SYNC_PREV and the three ports that compute a code from a register have a lemma each. -/
theorem resetLoadsTheResetTable : Obligations.ResetLoadsTheResetTable := by
  unfold Obligations.ResetLoadsTheResetTable
  intro p inp s hrst
  refine ⟨s.resetRegs p, tick_reset p s hrst, ?_⟩
  refine ⟨rfl, rfl, rfl, rfl, rfl, rfl, rfl, rfl, rfl, rfl, rfl, rfl, rfl, rfl, rfl, rfl, rfl, rfl, rfl, rfl, rfl, rfl,
    resetOf_prev_iff p, fun d => ?_⟩
  exact ⟨rfl, rfl, rfl, rfl, rfl, rfl, rfl, rfl, rfl, ledModeOf_reset, rfl, rfl, ledFanOf_reset, gaugePort_reset⟩

end Sys2Proof.Machine
end

