-- ==== Sys2Proof/Proofs/SegmentBytes.lean ====
section
/-! The bytes of a segment write (R52): the bits of one byte, and the number the bytes make in sending order. -/

namespace Sys2Proof.Machine

theorem segByte_getLsbD (w : BitVec 32) (j : Nat) {k : Nat} (hk : k < 8) :
    (segByte w j).getLsbD k = w.getLsbD (8 * j + k) := by
  simp [segByte, hk]

/-- Byte j is the digit of weight 256^j. -/
theorem segByte_toNat (w : BitVec 32) (j : Nat) : (segByte w j).toNat = w.toNat / 256 ^ j % 256 := by
  have hpow : 2 ^ (8 * j) = 256 ^ j := pow_mul 2 8 j
  rw [segByte, BitVec.extractLsb'_toNat, Nat.shiftRight_eq_div_pow, hpow]

@[simp] theorem segBytesSent_length (p : Params) (s : State) : (segBytesSent p s).length = p.segBytes := by
  simp [segBytesSent]

theorem eq_segByte_of_segBytesSent_getElem? {p : Params} {s : State} {j : Nat} {b : BitVec 8}
    (h : (segBytesSent p s)[j]? = some b) : b = segByte s.segWord j := by
  obtain ⟨hj, hb⟩ := List.getElem?_eq_some_iff.mp h
  simpa [segBytesSent] using hb.symm

/-- The n lowest base-b digits of a number make its remainder by b^n. -/
theorem ofDigits_range_div_pow_mod (b x n : Nat) :
    Nat.ofDigits b ((List.range n).map fun j => x / b ^ j % b) = x % b ^ n := by
  induction n with
  | zero => simp [Nat.mod_one]
  | succ n ih =>
    rw [List.range_succ, List.map_append, Nat.ofDigits_append, ih, Nat.mod_pow_succ]
    simp

theorem foldr_segBytesSent (p : Params) (s : State) :
    (segBytesSent p s).foldr (fun b rest => b.toNat + 256 * rest) 0 = s.segWord.toNat % 256 ^ p.segBytes := by
  rw [← ofDigits_range_div_pow_mod, Nat.ofDigits_eq_foldr, segBytesSent, List.foldr_map, List.foldr_map]
  simp only [segByte_toNat, Nat.cast_id]

/-- Settles O38: each byte sent is a `segByte`, whose bits are those of its field and whose value is a base-256 digit of
SEG_WORD. SEG_BYTES <= 4 is not needed: past bit 31 the field reads as zero. -/
theorem segmentBytesAreLittleEndian : Obligations.SegmentBytesAreLittleEndian := by
  unfold Obligations.SegmentBytesAreLittleEndian
  intro p s _
  refine ⟨segBytesSent_length p s, fun j b hb k hk => ?_, foldr_segBytesSent p s⟩
  rw [eq_segByte_of_segBytesSent_getElem? hb, segByte_getLsbD _ _ hk]

end Sys2Proof.Machine
end

