-- ==== Sys2Proof/Proofs/IllegalWords.lean ====
section
/-! The illegal words (R69): what each operand check refuses, what the decoder refuses, and what performing an illegal
word for the host does (R96). -/

namespace Sys2Proof

theorem requireZero_error_iff (imm : Imm12) (i : Instr) :
    (∃ why, requireZero imm i = .error why) ↔ imm.toNat ≠ 0 := by
  unfold requireZero
  split
  next h => simp [h]
  next h => simpa [BitVec.toNat_eq] using h

theorem requireLegal_error_iff (i : Instr) (r : Reject) :
    (∃ why, requireLegal i r = .error why) ↔ ¬i.WellFormed := by
  unfold requireLegal
  split
  next h => simp [h]
  next h => simp [h]

theorem setfan_wellFormed_iff (v : Imm12) :
    (Instr.setfan v).WellFormed ↔ v.toNat = 0 ∨ v.toNat = 50 ∨ v.toNat = 100 := by
  simp [Instr.WellFormed, Instr.wf, or_assoc]

theorem setamb_wellFormed_iff (t : Imm12) : (Instr.setamb t).WellFormed ↔ -128 ≤ t.toInt ∧ t.toInt ≤ 127 := by
  simp [Instr.WellFormed, Instr.wf]

theorem setunit_wellFormed_iff (u : Imm12) : (Instr.setunit u).WellFormed ↔ u.toNat = 0 ∨ u.toNat = 1 := by
  simp [Instr.WellFormed, Instr.wf]

/-- The five clauses of R69 for the two fields of a word, each from the operand check of the row that OP selects. -/
theorem decodeFields_error_iff (op : OpCode) (imm : Imm12) :
    (∃ why, decodeFields op imm = .error why) ↔
      10 ≤ op.toNat ∨ ((op.toNat ≤ 3 ∨ op.toNat = 9) ∧ imm.toNat ≠ 0) ∨
        (op.toNat = 4 ∧ imm.toNat ≠ 0 ∧ imm.toNat ≠ 50 ∧ imm.toNat ≠ 100) ∨
        (op.toNat = 7 ∧ (imm.toInt < -128 ∨ 127 < imm.toInt)) ∨
        (op.toNat = 8 ∧ imm.toNat ≠ 0 ∧ imm.toNat ≠ 1) := by
  unfold decodeFields
  split
  -- NOP, CYCMODE, TGLAC, TGLREC and TGLUNIT take no operand.
  case h_1 | h_2 | h_3 | h_4 | h_10 => rw [requireZero_error_iff]; omega
  case h_5 => rw [requireLegal_error_iff, setfan_wellFormed_iff]; omega
  -- ADJSET and SETSET are never refused.
  case h_6 hop | h_7 hop => simp [hop]
  case h_8 => rw [requireLegal_error_iff, setamb_wellFormed_iff]; omega
  case h_9 => rw [requireLegal_error_iff, setunit_wellFormed_iff]; omega
  case h_11 =>
    have reserved : 10 ≤ op.toNat := by
      simp only [imp_false] at *
      omega
    simp [reserved]

/-- The signed reading of the operand field (R67). -/
theorem immField_toInt (w : Word) :
    (immField w).toInt =
      if w.toNat % 4096 < 2048 then ((w.toNat % 4096 : Nat) : Int) else ((w.toNat % 4096 : Nat) : Int) - 4096 := by
  rw [BitVec.toInt_eq_toNat_cond, immField_toNat]
  split_ifs <;> omega

end Sys2Proof

namespace Sys2Proof.Machine

theorem perform_host_of_decode_error {w : Word} {why : Reject} (s : State) (h : decode w = .error why) :
    perform .host w s = .next { s with cmdStatus := true } := by
  unfold perform
  rw [h]
  rfl

/-- Settles O3: the decoder's refusals are those of the two fields of the word, whose values are the quotient, the
remainder and its signed reading. -/
theorem illegalWordsOfRule69 : Obligations.IllegalWordsOfRule69 := by
  unfold Obligations.IllegalWordsOfRule69
  refine ⟨fun w => ?_, fun w why s h => perform_host_of_decode_error s h⟩
  rw [decode, decodeFields_error_iff, opField_toNat, immField_toNat, immField_toInt]

end Sys2Proof.Machine
end

