-- ==== Sys2Proof/Proofs/CommandMeaning.lean ====
section
/-! What a command is, said once over all ten: its word decodes by its row of R68, and performing it replaces the
ClimateState registers by a function of them (R85 to R95). -/

namespace Sys2Proof

/-- A word written as the match value of a row with an operand put in. -/
theorem decode_matchWord_or_operand (op : OpCode) (imm : Imm12) :
    decode (wordOf op 0 ||| imm.setWidth 16) = decodeFields op imm := by
  rw [matchWord_or_operand, decode_wordOf]

end Sys2Proof

namespace Sys2Proof.Machine

/-- What a legal command makes of the ClimateState registers (R86 to R95). -/
def climateAfter : Instr → ClimateState → ClimateState
  | .nop, c => c
  | .cycmode, c => { c with mode := nextMode c.mode }
  | .tglac, c => { c with acOn := !c.acOn }
  | .tglrec, c => { c with recircOn := !c.recircOn }
  | .setfan v, c => { c with fanLevel := BitVec.ofNat 8 (uimm v) }
  | .adjset d, c => { c with setTemp := clampedSetTemp (c.setTemp.toInt + simm d) }
  | .setset v, c => { c with setTemp := clampedSetTemp (simm v) }
  | .setamb t, c => { c with ambientTemp := BitVec.ofInt 8 (simm t) }
  | .setunit u, c => { c with displayUnit := uimm u == 1 }
  | .tglunit, c => { c with displayUnit := !c.displayUnit }

/-- The result, the frame and the completion of every legal command in one equation (R85, R98). -/
theorem exec_of_wellFormed {i : Instr} (h : i.WellFormed) (s : State) :
    exec i s = .next { s with climate := climateAfter i s.climate, cmdStatus := false } := by
  cases i with
  | setfan | setamb | setunit => exact if_pos h
  | nop | cycmode | tglac | tglrec | adjset | setset | tglunit => rfl

/-- An operand R68 does not allow: the effect of an illegal word (R96). -/
theorem exec_of_not_wellFormed {i : Instr} (h : ¬i.WellFormed) (s : State) :
    exec i s = .next { s with cmdStatus := true } := by
  cases i with
  | setfan | setamb | setunit => exact if_neg h
  | nop | cycmode | tglac | tglrec | adjset | setset | tglunit => exact absurd rfl h

/-- One legal command several times over iterates its function. -/
theorem execAll_replicate_succ {i : Instr} (h : i.WellFormed) (n : Nat) (s : State) :
    execAll (List.replicate (n + 1) i) s =
      .next { s with climate := (climateAfter i)^[n + 1] s.climate, cmdStatus := false } := by
  induction n generalizing s with
  | zero => simp [execAll_cons, exec_of_wellFormed h]
  | succ n ih => rw [List.replicate_succ, execAll_cons, exec_of_wellFormed h, andThen_next, ih]; rfl

/-- A legal command whose function is its own inverse, performed twice, leaves CMD_STATUS = 0 as its only trace. -/
theorem execAll_twice_of_involutive {i : Instr} (h : i.WellFormed) (inv : Function.Involutive (climateAfter i))
    (s : State) : execAll [i, i] s = .next { s with cmdStatus := false } := by
  have twice : (climateAfter i)^[2] s.climate = s.climate := inv s.climate
  exact (execAll_replicate_succ h 1 s).trans (by rw [twice])

end Sys2Proof.Machine
end

