-- ==== Sys2Proof/Proofs/ClimateCommands.lean ====
section
/-! The ten commands one by one (R86 to R95): the value each one stores, its words, and what the ports and the display
show of it. -/

namespace Sys2Proof.Machine

/-! NOP -/

/-- Settles O4: NOP's row takes no operand, and its function of the ClimateState registers is the identity. -/
theorem nopWritesStatusOnly : Obligations.NopWritesStatusOnly := by
  unfold Obligations.NopWritesStatusOnly
  exact ⟨rfl, fun imm h => (decode_wordOf 0x0 imm).trans (if_neg h), exec_of_wellFormed rfl⟩

/-! CYCMODE -/

theorem nextMode_code (m : ClimateMode) : nextMode m.code = m.succ.code := by
  cases m <;> rfl

/-- From a legal MODE the cycle counts modulo 5. -/
theorem nextMode_iterate_toNat {m : BitVec 3} (h : m.toNat ≤ 4) (n : Nat) :
    (nextMode^[n] m).toNat = (m.toNat + n) % 5 := by
  induction n with
  | zero => simp; omega
  | succ n ih => rw [Function.iterate_succ_apply', nextMode_toNat, ih]; omega

theorem climateAfter_cycmode_iterate (n : Nat) (c : ClimateState) :
    (climateAfter .cycmode)^[n] c = { c with mode := nextMode^[n] c.mode } := by
  induction n with
  | zero => rfl
  | succ n ih => simp only [Function.iterate_succ_apply', ih, climateAfter]

/-- The cycle has five modes (R87). -/
theorem climateAfter_cycmode_five {c : ClimateState} (h : c.mode.toNat ≤ 4) : (climateAfter .cycmode)^[5] c = c := by
  have closed : nextMode^[5] c.mode = c.mode := by
    apply BitVec.eq_of_toNat_eq
    rw [nextMode_iterate_toNat h]
    omega
  rw [climateAfter_cycmode_iterate, closed]

/-- Settles O5: `nextMode` is the successor modulo 5 and the next mode of the cycle; its fifth iterate is the identity on
legal modes. -/
theorem cycmodeAdvancesTheMode : Obligations.CycmodeAdvancesTheMode := by
  unfold Obligations.CycmodeAdvancesTheMode
  refine ⟨rfl, rfl, fun s => ⟨_, nextMode_toNat _, exec_of_wellFormed rfl s⟩, fun s m hm => ?_, fun s h => ?_⟩
  · rw [exec_of_wellFormed rfl, climateAfter, hm, nextMode_code]
  · refine (execAll_replicate_succ rfl 4 s).trans ?_
    rw [climateAfter_cycmode_five h]

/-! TGLAC, TGLREC, TGLUNIT -/

theorem climateAfter_tglac_involutive : Function.Involutive (climateAfter .tglac) := fun c => by simp [climateAfter]

theorem climateAfter_tglrec_involutive : Function.Involutive (climateAfter .tglrec) := fun c => by simp [climateAfter]

theorem climateAfter_tglunit_involutive : Function.Involutive (climateAfter .tglunit) := fun c => by
  simp [climateAfter]

/-- Settles O6: inverting AC_ON is an involution. -/
theorem tglacInvertsAc : Obligations.TglacInvertsAc := by
  unfold Obligations.TglacInvertsAc
  exact ⟨rfl, rfl, exec_of_wellFormed rfl, execAll_twice_of_involutive rfl climateAfter_tglac_involutive⟩

/-- Settles O7: inverting RECIRC_ON is an involution. -/
theorem tglrecInvertsRecirc : Obligations.TglrecInvertsRecirc := by
  unfold Obligations.TglrecInvertsRecirc
  exact ⟨rfl, rfl, exec_of_wellFormed rfl, execAll_twice_of_involutive rfl climateAfter_tglrec_involutive⟩

/-- Settles O13: inverting DISPLAY_UNIT is an involution. -/
theorem tglunitInvertsTheUnit : Obligations.TglunitInvertsTheUnit := by
  unfold Obligations.TglunitInvertsTheUnit
  exact ⟨rfl, exec_of_wellFormed rfl, execAll_twice_of_involutive rfl climateAfter_tglunit_involutive⟩

/-! SETFAN -/

/-- A legal fan level fits the register. -/
theorem fanOperand_toNat {v : Imm12} (h : (Instr.setfan v).WellFormed) :
    (BitVec.ofNat 8 (uimm v)).toNat = v.toNat := by
  rw [setfan_wellFormed_iff] at h
  rw [BitVec.toNat_ofNat, uimm]
  omega

/-- Settles O8: the words of SETFAN decode by its operand check, and a legal operand fits FAN_LEVEL. -/
theorem setfanStoresLegalLevels : Obligations.SetfanStoresLegalLevels := by
  unfold Obligations.SetfanStoresLegalLevels
  refine ⟨rfl, rfl, rfl, fun v s hv => ?_, fun p s d => ⟨_, exec_of_wellFormed rfl s, rfl⟩, fun v h0 h50 h100 => ?_⟩
  · have legal : (Instr.setfan v).WellFormed := (setfan_wellFormed_iff v).mpr hv
    exact ⟨(decode_matchWord_or_operand 0x4 v).trans (if_pos legal), _, fanOperand_toNat legal,
      exec_of_wellFormed legal s⟩
  · have illegal : ¬(Instr.setfan v).WellFormed := by
      rw [setfan_wellFormed_iff]
      omega
    exact (decode_matchWord_or_operand 0x4 v).trans (if_neg illegal)

/-! ADJSET, SETSET -/

theorem clamp_eq_max_min {x lo hi : Int} (h : lo ≤ hi) : clamp x lo hi = max lo (min hi x) := by
  unfold clamp
  split_ifs <;> omega

theorem clampedSetTemp_toInt_eq_max_min (x : Int) : (clampedSetTemp x).toInt = max 60 (min 90 x) := by
  rw [clampedSetTemp_toInt, clamp_eq_max_min (by decide)]

/-- Settles O9: the stored value is the clamp of the integer sum. -/
theorem adjsetClampsTheExactSum : Obligations.AdjsetClampsTheExactSum := by
  unfold Obligations.AdjsetClampsTheExactSum
  refine ⟨rfl, rfl, rfl, fun d s => ?_⟩
  exact ⟨decode_matchWord_or_operand 0x5 d, _, clampedSetTemp_toInt_eq_max_min _, exec_of_wellFormed rfl s⟩

/-- The OP field of a button's word is never SETSET's. -/
theorem action_ne_encode_setset (b : Button) (v : Imm12) : b.action ≠ encode (.setset v) := by
  intro h
  have op : opField b.action = 0x6 := by rw [h, encode, opField_wordOf]
  cases b <;> exact absurd op (by decide)

/-- Settles O10: the stored value is the clamp of the operand. -/
theorem setsetClampsTheOperand : Obligations.SetsetClampsTheOperand := by
  unfold Obligations.SetsetClampsTheOperand
  refine ⟨fun v s => ?_, action_ne_encode_setset⟩
  exact ⟨decode_matchWord_or_operand 0x6 v, _, clampedSetTemp_toInt_eq_max_min _, exec_of_wellFormed rfl s⟩

/-! SETAMB and the temperature stage's write -/

/-- A legal ambient value fits the register. -/
theorem ambientOperand_toInt {t : Imm12} (h : (Instr.setamb t).WellFormed) :
    (BitVec.ofInt 8 (simm t)).toInt = t.toInt := by
  rw [setamb_wellFormed_iff] at h
  rw [BitVec.toInt_ofInt, simm, Int.bmod_eq_of_le] <;> omega

theorem decompose_hund_iff (v : Int) : (decompose v).hund = true ↔ v ≤ -100 ∨ 100 ≤ v := by
  rw [decompose, decide_eq_true_iff]
  omega

/-- A TEMP_CONVERT tick with a value: the write SETAMB makes, and the scan pass begins (R143). -/
theorem tick_tempConvert_some (p : Params) {inp : Inputs} {s : State} {v : BitVec 8} (hr : inp.rst = false)
    (hp : s.phase = .tempConvert) (hv : p.thermFn (average s.acc) = some v) :
    tick p inp s =
      .next ((((s.writeAmbient v).writeBtn 0).goto .scanDrive).writeSync (syncStep p inp s.sync)) := by
  refine tick_main p hr (by simp [hp]) ?_
  rw [mainStep, hp]
  simp [stepTempConvert, hv]

/-- Settles O11: the words of SETAMB decode by its operand check, a legal operand fits AMBIENT_TEMP, and the temperature
stage's tick ends in the same register write. -/
theorem setambStoresUnclamped : Obligations.SetambStoresUnclamped := by
  unfold Obligations.SetambStoresUnclamped
  refine ⟨fun t s hlo hhi => ?_, fun t ht => ?_, fun a => decompose_hund_iff a.toInt, fun p inp s v hr hp hv => ?_⟩
  · have legal : (Instr.setamb t).WellFormed := (setamb_wellFormed_iff t).mpr ⟨hlo, hhi⟩
    exact ⟨(decode_matchWord_or_operand 0x7 t).trans (if_pos legal), _, ambientOperand_toInt legal,
      exec_of_wellFormed legal s⟩
  · have illegal : ¬(Instr.setamb t).WellFormed := by
      rw [setamb_wellFormed_iff]
      omega
    exact (decode_matchWord_or_operand 0x7 t).trans (if_neg illegal)
  · exact ⟨_, tick_tempConvert_some p hr hp hv, rfl, rfl⟩

/-! SETUNIT -/

/-- A signal with a segment bit of its own shows in that bit of the word. -/
theorem segWordOf_getLsbD_of_mem {p : Params} {c : ClimateState} {k : Nat} {lit : Bool}
    (nd : p.segLayout.positions.Nodup) (hk : k < 32) (h : (k, lit) ∈ segSignals p c) :
    (segWordOf p c).getLsbD k = lit := by
  rw [← segSignals_positions p c] at nd
  rw [segWordOf_eq, BitVec.getLsbD_ofNat, testBit_orBits_of_mem nd h]
  simp [hk]

theorem unitF_mem_segSignals (p : Params) (c : ClimateState) :
    (p.segLayout.unitF, c.displayUnit) ∈ segSignals p c := by simp [segSignals]

theorem unitC_mem_segSignals (p : Params) (c : ClimateState) :
    (p.segLayout.unitC, !c.displayUnit) ∈ segSignals p c := by simp [segSignals]

/-- Settles O12: the words of SETUNIT decode by its operand check, and UNIT_F and UNIT_C are signals of the segment word
with bits 17 and 16 of the default layout. -/
theorem setunitStoresTheUnit : Obligations.SetunitStoresTheUnit := by
  unfold Obligations.SetunitStoresTheUnit
  refine ⟨fun s => ⟨rfl, exec_of_wellFormed rfl s⟩, fun s => ⟨rfl, exec_of_wellFormed rfl s⟩, fun u hu => ?_,
    fun f g c hc => ?_⟩
  · have illegal : ¬(Instr.setunit u).WellFormed := by
      rw [setunit_wellFormed_iff]
      omega
    exact (decode_matchWord_or_operand 0x8 u).trans (if_neg illegal)
  · obtain ⟨-, -, ⟨-, nd, -⟩, -⟩ := standard_legal f g
    have unitF := segWordOf_getLsbD_of_mem (k := 17) nd (by decide) (unitF_mem_segSignals _ c)
    have unitC := segWordOf_getLsbD_of_mem (k := 16) nd (by decide) (unitC_mem_segSignals _ c)
    exact ⟨unitF.trans hc, unitC.trans (by rw [hc]; rfl)⟩

end Sys2Proof.Machine
end

