-- ==== Sys2Proof/Proofs/ClimateWriters.lean ====
section
/-! Who writes the ClimateState registers (R20 to R27): the one inversion of a tick for them, and from it that every
write of SET_TEMP clamps (R97). -/

namespace Sys2Proof.Machine

/-- The word that reaches `exec` in this tick: the host's in IDLE (R182), or the scanned button's in SCAN_CONFIRM and
SCAN_REPCHK (R106, R108). -/
def IssuesWord (inp : Inputs) (s : State) (w : Word) : Prop :=
  (s.phase = .idle ∧ inp.cmdValid = true ∧ inp.cmdWord = w) ∨
    ((s.phase = .scanConfirm ∨ s.phase = .scanRepchk) ∧ (buttonOf s.btn).action = w)

/-- What MAIN can make of the ClimateState registers in one tick. -/
inductive ClimateWrite (inp : Inputs) (s : State) : ClimateState → Prop where
  | kept : ClimateWrite inp s s.climate
  | command {w : Word} {i : Instr} : IssuesWord inp s w → decode w = .ok i →
      ClimateWrite inp s (climateAfter i s.climate)
  | converted (a : BitVec 8) : s.phase = .tempConvert → ClimateWrite inp s { s.climate with ambientTemp := a }

/-! The phases that write no ClimateState register -/

section

variable (p : Params) (inp : Inputs) (s : State)

@[simp] theorem stepTempSample_climate : (stepTempSample p inp s).climate = s.climate := by
  unfold stepTempSample
  split_ifs <;> rfl

@[simp] theorem stepScanDrive_climate : (stepScanDrive p s).climate = s.climate := rfl

@[simp] theorem stepWait_climate : (stepWait s).climate = s.climate := by
  unfold stepWait
  split_ifs <;> rfl

@[simp] theorem stepScanSample_climate : (stepScanSample p inp s).climate = s.climate := by
  unfold stepScanSample
  split_ifs <;> rfl

@[simp] theorem stepScanHoldchk_climate : (stepScanHoldchk p inp s).climate = s.climate := by
  unfold stepScanHoldchk
  split_ifs <;> rfl

@[simp] theorem stepScanRestore_climate : (stepScanRestore p s).climate = s.climate := by
  unfold stepScanRestore
  split_ifs <;> rfl

@[simp] theorem stepEncode_climate : (stepEncode p s).climate = s.climate := rfl

@[simp] theorem stepSegTx_climate : (stepSegTx p inp s).climate = s.climate := by
  unfold stepSegTx
  split_ifs <;> rfl

@[simp] theorem stepSerLo_climate : (stepSerLo p s).climate = s.climate := by
  unfold stepSerLo
  split_ifs <;> rfl

@[simp] theorem returnFromRefresh_climate : (returnFromRefresh p s).climate = s.climate := by
  unfold returnFromRefresh
  split <;> rfl

@[simp] theorem stepSerHi_climate : (stepSerHi p s).climate = s.climate := by
  unfold stepSerHi
  split_ifs
  · rfl
  · rfl
  · exact returnFromRefresh_climate p s

end

/-! The phases that can write one -/

/-- A command keeps the ClimateState registers or applies its function to them. -/
theorem exec_climate {i : Instr} {s t : State} (h : exec i s = .next t) :
    t.climate = s.climate ∨ t.climate = climateAfter i s.climate := by
  by_cases legal : i.WellFormed
  · rw [exec_of_wellFormed legal, Host.Outcome.next.injEq] at h
    exact .inr (h ▸ rfl)
  · rw [exec_of_not_wellFormed legal, Host.Outcome.next.injEq] at h
    exact .inl (h ▸ rfl)

/-- A word that is issued and legal makes the write of its command. -/
theorem climateWrite_of_exec {inp : Inputs} {s t : State} {w : Word} {i : Instr} (hw : IssuesWord inp s w)
    (hi : decode w = .ok i) (h : exec i s = .next t) : ClimateWrite inp s t.climate := by
  obtain ht | ht := exec_climate h
  · rw [ht]
    exact .kept
  · rw [ht]
    exact .command hw hi

theorem acceptCommand_climateWrite (inp : Inputs) {s : State} (hp : s.phase = .idle) :
    ∃ u, acceptCommand inp s = .next u ∧ ClimateWrite inp s u.climate := by
  unfold acceptCommand perform
  split_ifs with hv
  · have hw : IssuesWord inp s inp.cmdWord := .inl ⟨hp, hv, rfl⟩
    cases hd : decode inp.cmdWord with
    | error why => exact ⟨_, rfl, .kept⟩
    | ok i =>
      obtain ⟨f, b, -, hx⟩ := exec_of_climate i
      exact ⟨_, hx s, climateWrite_of_exec hw hd (hx s)⟩
  · exact ⟨s, rfl, .kept⟩

theorem applyAction_climateWrite (inp : Inputs) {s : State} (hp : s.phase = .scanConfirm ∨ s.phase = .scanRepchk) :
    ∃ u, applyAction s.btn s = .next u ∧ ClimateWrite inp s u.climate := by
  obtain ⟨i, u, hd, hx, ha⟩ := applyAction_exec s.btn s
  exact ⟨_, ha, climateWrite_of_exec (t := u) (.inr ⟨hp, rfl⟩) hd hx⟩

/-- A value is written to AMBIENT_TEMP, DOMAIN writes no ClimateState register (R143). -/
theorem stepTempConvert_climateWrite (p : Params) (inp : Inputs) {s : State} (hp : s.phase = .tempConvert) :
    ClimateWrite inp s (stepTempConvert p s).climate := by
  unfold stepTempConvert
  split
  · exact .kept
  · exact .converted _ hp

/-- The one inversion of MAIN's step for the ClimateState registers. -/
theorem mainStep_climateWrite {p : Params} {inp : Inputs} {s u : State} (h : mainStep p inp s = .next u) :
    ClimateWrite inp s u.climate := by
  have kept {c : ClimateState} (hc : c = s.climate) : ClimateWrite inp s c := hc ▸ .kept
  unfold mainStep at h
  split at h
  case h_1 hp =>
    obtain ⟨v, hv, hc⟩ := acceptCommand_climateWrite inp hp
    rw [stepIdle, hv, andThen_next, Host.Outcome.next.injEq] at h
    rw [← h, idleAdvance_climate]
    exact hc
  case h_3 hp =>
    rw [← Host.Outcome.next.inj h]
    exact stepTempConvert_climateWrite p inp hp
  case h_7 hp =>
    obtain ⟨v, hv, hc⟩ := applyAction_climateWrite inp (.inl hp)
    rw [stepScanConfirm, hv, andThen_next, Host.Outcome.next.injEq] at h
    rw [← h]
    split_ifs <;> exact hc
  case h_9 hp =>
    obtain ⟨v, hv, hc⟩ := applyAction_climateWrite inp (.inr hp)
    rw [stepScanRepchk, hv] at h
    split_ifs at h <;> rw [← Host.Outcome.next.inj h]
    · exact hc
    · exact .kept
  all_goals
    rw [← Host.Outcome.next.inj h]
    exact kept (by simp)

/-- The one inversion of a tick for the ClimateState registers: reset loads them, and without reset MAIN writes them. -/
theorem tick_climateWrite {p : Params} {inp : Inputs} {s t : State} (h : tick p inp s = .next t) :
    (inp.rst = true ∧ t.climate = ClimateState.reset) ∨ (inp.rst = false ∧ ClimateWrite inp s t.climate) := by
  obtain ⟨hr, rfl⟩ | ⟨hr, -, rfl⟩ | ⟨hr, -, u, hu, rfl⟩ := tick_cases h
  · exact .inl ⟨hr, rfl⟩
  · exact .inr ⟨hr, .kept⟩
  · exact .inr ⟨hr, mainStep_climateWrite (u := u) hu⟩

/-! SET_TEMP (R97) -/

theorem clampedSetTemp_bounds (x : Int) : 60 ≤ (clampedSetTemp x).toInt ∧ (clampedSetTemp x).toInt ≤ 90 := by
  rw [clampedSetTemp_toInt]
  exact clamp_bounds x

/-- ADJSET and SETSET are the only commands that write SET_TEMP, and what they write is clamped. -/
theorem climateAfter_setTemp (i : Instr) (c : ClimateState) :
    (climateAfter i c).setTemp = c.setTemp ∨
      ∃ (d : Imm12) (x : Int), (i = .adjset d ∨ i = .setset d) ∧ (climateAfter i c).setTemp = clampedSetTemp x := by
  cases i with
  | adjset d => exact .inr ⟨d, _, .inl rfl, rfl⟩
  | setset d => exact .inr ⟨d, _, .inr rfl, rfl⟩
  | nop | cycmode | tglac | tglrec | setfan | setamb | setunit | tglunit => exact .inl rfl

/-- MAIN keeps SET_TEMP, or an issued ADJSET or SETSET word clamps it. -/
theorem ClimateWrite.setTemp {inp : Inputs} {s : State} {c : ClimateState} (h : ClimateWrite inp s c) :
    c.setTemp = s.climate.setTemp ∨
      ∃ (w : Word) (d : Imm12) (x : Int), IssuesWord inp s w ∧
        (decode w = .ok (.adjset d) ∨ decode w = .ok (.setset d)) ∧ c.setTemp = clampedSetTemp x := by
  cases h with
  | kept => exact .inl rfl
  | converted => exact .inl rfl
  | @command w i hw hd =>
    obtain same | ⟨d, x, rfl | rfl, hx⟩ := climateAfter_setTemp i s.climate
    · exact .inl same
    · exact .inr ⟨w, d, x, hw, .inl hd, hx⟩
    · exact .inr ⟨w, d, x, hw, .inr hd, hx⟩

theorem tick_setTemp_kept_or_bounded {p : Params} {inp : Inputs} {s t : State} (h : tick p inp s = .next t) :
    t.climate.setTemp = s.climate.setTemp ∨ (60 ≤ t.climate.setTemp.toInt ∧ t.climate.setTemp.toInt ≤ 90) := by
  obtain ⟨-, ht⟩ | ⟨-, hc⟩ := tick_climateWrite h
  · rw [ht]
    exact .inr (by decide)
  · obtain same | ⟨w, d, x, -, -, hx⟩ := hc.setTemp
    · exact .inl same
    · rw [hx]
      exact .inr (clampedSetTemp_bounds x)

theorem reachable_setTemp_bounds {p : Params} {s : State} (h : Reachable p s) :
    60 ≤ s.climate.setTemp.toInt ∧ s.climate.setTemp.toInt ≤ 90 := by
  induction h with
  | reset => exact (by decide : 60 ≤ ClimateState.reset.setTemp.toInt ∧ ClimateState.reset.setTemp.toInt ≤ 90)
  | tick inp _ ht ih =>
    obtain same | bounded := tick_setTemp_kept_or_bounded ht
    · rwa [same]
    · exact bounded

/-- Settles O16: of the writes a tick can make, only reset and an issued ADJSET or SETSET word reach SET_TEMP. -/
theorem everySetTempWriteClamps : Obligations.EverySetTempWriteClamps := by
  unfold Obligations.EverySetTempWriteClamps
  refine ⟨fun p inp s t => tick_setTemp_kept_or_bounded, fun p inp s t h => ?_, fun p s => reachable_setTemp_bounds⟩
  obtain ⟨hr, ht⟩ | ⟨hr, hc⟩ := tick_climateWrite h
  · simp only [hr, ht]
    exact ⟨fun _ => rfl, nofun⟩
  · refine ⟨fun hr' => absurd (hr.symm.trans hr') (by decide), fun _ changed => ?_⟩
    obtain same | ⟨w, d, x, hw, hd, -⟩ := hc.setTemp
    · exact absurd same changed
    · exact ⟨w, d, hd, hw⟩

end Sys2Proof.Machine
end

