-- ==== Sys2Proof/Proofs/ButtonScanner.lean ====
section
/-! The button scanner (R101, R106, R113): a timed wait over its whole length, what MAIN does at the confirm and repeat
samples, and the scan of a held button as an invariant of the tick. -/

namespace Sys2Proof.Machine

/-! The timed wait (R101) -/

theorem NoReset.head {i : Inputs} {rest : List Inputs} (h : NoReset (i :: rest)) : i.rst = false :=
  h i List.mem_cons_self

theorem NoReset.tail {i : Inputs} {rest : List Inputs} (h : NoReset (i :: rest)) : NoReset rest :=
  fun j hj => h j (List.mem_cons_of_mem i hj)

theorem NoReset.take {ins : List Inputs} (h : NoReset ins) (k : Nat) : NoReset (ins.take k) :=
  fun i hi => h i (List.mem_of_mem_take hi)

/-- A wait that is not over has only counted. -/
theorem run_wait_count (p : Params) {ins : List Inputs} {s : State} (hp : s.phase = .wait)
    (hlen : ins.length < s.timer) (hins : NoReset ins) :
    run p ins s = .next { s with timer := s.timer - ins.length, sync := syncRun p ins s.sync } := by
  induction ins generalizing s with
  | nil => rfl
  | cons i rest ih =>
    rw [List.length_cons] at hlen ⊢
    have counts := ih (s := (s.loadTimer (s.timer - 1)).writeSync (syncStep p i s.sync)) hp
      (Nat.lt_sub_of_add_lt hlen) hins.tail
    have sum : s.timer - (rest.length + 1) = s.timer - 1 - rest.length := by omega
    rw [run_cons, tick_wait_count p hins.head hp (by omega), andThen_next, counts, sum]
    rfl

/-- A wait over its whole length: the last tick, which finds TIMER = 1, goes to phase WNEXT. -/
theorem run_wait_end (p : Params) {ins : List Inputs} {s : State} (hp : s.phase = .wait) (hpos : 1 ≤ s.timer)
    (hlen : ins.length = s.timer) (hins : NoReset ins) :
    run p ins s = .next { s with phase := s.wnext.phase, timer := 1, sync := syncRun p ins s.sync } := by
  obtain rfl | ⟨before, last, rfl⟩ := ins.eq_nil_or_concat'
  · exact absurd hlen (Nat.ne_of_lt hpos)
  · rw [List.length_append, List.length_singleton] at hlen
    have counts := run_wait_count p hp (by omega) fun i hi => hins i (List.mem_append_left _ hi)
    have one : s.timer - before.length = 1 := by omega
    have ends := tick_wait_end (s := { s with timer := 1, sync := syncRun p before s.sync }) p
      (hins last List.mem_concat_self) hp le_rfl
    rw [run_append, counts, andThen_next, one, run_cons, ends, syncRun_append]
    rfl

/-- Settles O23: the ticks before the last only count, and the last one goes on. -/
theorem waitLastsItsTimer : Obligations.WaitLastsItsTimer := by
  unfold Obligations.WaitLastsItsTimer
  refine ⟨fun _ _ _ => rfl, fun p s ins hp hpos hlen hins => ⟨fun k hk => ?_, run_wait_end p hp hpos hlen hins⟩⟩
  have taken : (ins.take k).length = k := List.length_take_of_le hk.le
  rw [run_wait_count p hp (by omega) (hins.take k), taken]

/-! The samples of a pressed button -/

section

variable (p : Params) (inp : Inputs) {s : State}

/-- SCAN_CONFIRM (R106): the action, then the phase the sample chooses. -/
theorem mainStep_scanConfirm (hp : s.phase = .scanConfirm) :
    ∃ (i : Instr) (u : State), decode (buttonOf s.btn).action = .ok i ∧ exec i s = .next u ∧
      mainStep p inp s = .next
        (if pressed p inp s then { s with climate := u.climate }.startWait p.nHold .scanHoldchk
        else { s with climate := u.climate }.goto .scanRestore) := by
  obtain ⟨i, u, hd, hx, ha⟩ := applyAction_exec s.btn s
  have rule : mainStep p inp s = stepScanConfirm p inp s := by rw [mainStep, hp]
  exact ⟨i, u, hd, hx, by rw [rule, stepScanConfirm, ha, andThen_next]⟩

variable {inp}

/-- SCAN_HOLDCHK that reads low (R107): the repeat wait, and no action. -/
theorem mainStep_scanHoldchk_pressed (hp : s.phase = .scanHoldchk) (low : pressed p inp s = true) :
    mainStep p inp s = .next (s.startWait p.nRepeat .scanRepchk) := by
  have rule : mainStep p inp s = .next (stepScanHoldchk p inp s) := by rw [mainStep, hp]
  rw [rule, stepScanHoldchk, if_pos low]

/-- SCAN_REPCHK that reads low (R108): the action again, then a refresh that returns to the loop. -/
theorem mainStep_scanRepchk_pressed (hp : s.phase = .scanRepchk) (low : pressed p inp s = true) :
    ∃ (i : Instr) (u : State), decode (buttonOf s.btn).action = .ok i ∧ exec i s = .next u ∧
      mainStep p inp s = .next (({ s with climate := u.climate }.writeRet .rep).goto .encode) := by
  obtain ⟨i, u, hd, hx, ha⟩ := applyAction_exec s.btn s
  have rule : mainStep p inp s = stepScanRepchk p inp s := by rw [mainStep, hp]
  exact ⟨i, u, hd, hx, by rw [rule, stepScanRepchk, if_pos low, ha, andThen_next]⟩

end

/-- Settles O26: both levels of the sample follow the same application of the action. -/
theorem confirmAppliesTheActionOnce : Obligations.ConfirmAppliesTheActionOnce := by
  unfold Obligations.ConfirmAppliesTheActionOnce
  intro p inp s hr hp
  obtain ⟨i, u, hd, hx, hm⟩ := mainStep_scanConfirm p inp hp
  have tick := tick_main p hr (by simp [hp]) hm
  refine ⟨i, u, hd, hx, fun low => ?_, fun high => ?_⟩
  · rw [tick, if_pos (pressed_of_low low)]
    rfl
  · rw [tick, if_neg (by simp [not_pressed_of_high high])]
    rfl

/-! The scan of a held button (R113) -/

theorem inRefresh_iff (ph : Phase) :
    inRefresh ph = true ↔ ph = .encode ∨ ph = .segTx ∨ ph = .serLo ∨ ph = .serHi := by
  simp [inRefresh, or_assoc]

theorem heldScan_startWait_holdchk (s : State) (n : Nat) : HeldScan (s.startWait n .scanHoldchk) :=
  .inr (.inr (.inr (.inl ⟨rfl, .inl rfl⟩)))

theorem heldScan_startWait_repchk (s : State) (n : Nat) : HeldScan (s.startWait n .scanRepchk) :=
  .inr (.inr (.inr (.inl ⟨rfl, .inr rfl⟩)))

theorem heldScan_of_refresh {s : State} (hp : inRefresh s.phase = true) (hret : s.ret = .rep) : HeldScan s :=
  .inr (.inr (.inr (.inr ⟨hp, hret⟩)))

theorem HeldScan.phase_ne {s : State} (h : HeldScan s) :
    s.phase ≠ .idle ∧ s.phase ≠ .scanRestore ∧ s.phase ≠ .fatal := by
  refine ⟨fun hp => ?_, fun hp => ?_, fun hp => ?_⟩ <;> simp [HeldScan, inRefresh, hp] at h

/-- `t` is in the scan of the button held in `s`, with its line driven as it was and CMD_STATUS kept. -/
structure StillHeld (s t : State) : Prop where
  scan : HeldScan t
  btn : t.btn = s.btn
  lineMode : t.lineMode = s.lineMode
  cmdStatus : t.cmdStatus = s.cmdStatus

theorem StillHeld.trans {s t u : State} (h : StillHeld s t) (k : StillHeld t u) : StillHeld s u :=
  ⟨k.scan, k.btn.trans h.btn, k.lineMode.trans h.lineMode, k.cmdStatus.trans h.cmdStatus⟩

/-- The wait counts, or goes on to the check it was for. -/
theorem stepWait_stillHeld {s : State} (hp : s.phase = .wait) (hw : s.wnext = .scanHoldchk ∨ s.wnext = .scanRepchk) :
    StillHeld s (stepWait s) := by
  unfold stepWait
  split_ifs
  · exact ⟨.inr (.inr (.inr (.inl ⟨hp, hw⟩))), rfl, rfl, rfl⟩
  · refine ⟨?_, rfl, rfl, rfl⟩
    obtain hw | hw := hw <;> rw [hw]
    · exact .inr (.inl rfl)
    · exact .inr (.inr (.inl rfl))

theorem stepEncode_stillHeld (p : Params) {s : State} (hret : s.ret = .rep) : StillHeld s (stepEncode p s) :=
  ⟨heldScan_of_refresh rfl hret, rfl, rfl, rfl⟩

/-- Without a failure the segment write goes on or hands over to the serial frame. -/
theorem stepSegTx_stillHeld (p : Params) {inp : Inputs} {s : State} (hp : s.phase = .segTx) (hret : s.ret = .rep)
    (herr : inp.segErr = false) : StillHeld s (stepSegTx p inp s) := by
  rw [stepSegTx, herr, if_neg Bool.false_ne_true]
  split_ifs
  · exact ⟨heldScan_of_refresh rfl hret, rfl, rfl, rfl⟩
  · exact ⟨heldScan_of_refresh ((inRefresh_iff _).mpr (.inr (.inl hp))) hret, rfl, rfl, rfl⟩

theorem stepSerLo_stillHeld (p : Params) {s : State} (hp : s.phase = .serLo) (hret : s.ret = .rep) :
    StillHeld s (stepSerLo p s) := by
  unfold stepSerLo
  split_ifs
  · exact ⟨heldScan_of_refresh ((inRefresh_iff _).mpr (.inr (.inr (.inl hp)))) hret, rfl, rfl, rfl⟩
  · exact ⟨heldScan_of_refresh rfl hret, rfl, rfl, rfl⟩

/-- A repeat refresh returns to the repeat wait (R184). -/
theorem returnFromRefresh_of_rep (p : Params) {s : State} (hret : s.ret = .rep) :
    returnFromRefresh p s = s.startWait p.nRepeat .scanRepchk := by
  rw [returnFromRefresh, hret]

theorem stepSerHi_stillHeld (p : Params) {s : State} (hp : s.phase = .serHi) (hret : s.ret = .rep) :
    StillHeld s (stepSerHi p s) := by
  unfold stepSerHi
  split_ifs
  · exact ⟨heldScan_of_refresh ((inRefresh_iff _).mpr (.inr (.inr (.inr hp)))) hret, rfl, rfl, rfl⟩
  · exact ⟨heldScan_of_refresh rfl hret, rfl, rfl, rfl⟩
  · rw [returnFromRefresh_of_rep p hret]
    exact ⟨heldScan_startWait_repchk s _, rfl, rfl, rfl⟩

/-- MAIN's step stays in the scan while every sample reads low and no segment write fails. -/
theorem mainStep_stillHeld (p : Params) {inp : Inputs} {s : State} (h : HeldScan s)
    (herr : s.phase = .segTx → inp.segErr = false) (low : samplesLine s.phase = true → pressed p inp s = true) :
    ∃ u, mainStep p inp s = .next u ∧ StillHeld s u := by
  obtain hp | hp | hp | ⟨hp, hw⟩ | ⟨hp, hret⟩ := h
  · obtain ⟨i, u, -, -, hm⟩ := mainStep_scanConfirm p inp hp
    rw [if_pos (low (by rw [hp]; rfl))] at hm
    exact ⟨_, hm, heldScan_startWait_holdchk _ _, rfl, rfl, rfl⟩
  · have hm := mainStep_scanHoldchk_pressed p hp (low (by rw [hp]; rfl))
    exact ⟨_, hm, heldScan_startWait_repchk _ _, rfl, rfl, rfl⟩
  · obtain ⟨i, u, -, -, hm⟩ := mainStep_scanRepchk_pressed p hp (low (by rw [hp]; rfl))
    exact ⟨_, hm, heldScan_of_refresh rfl rfl, rfl, rfl, rfl⟩
  · exact ⟨stepWait s, by rw [mainStep, hp], stepWait_stillHeld hp hw⟩
  · obtain hp | hp | hp | hp := (inRefresh_iff _).mp hp
    · exact ⟨stepEncode p s, by rw [mainStep, hp], stepEncode_stillHeld p hret⟩
    · exact ⟨stepSegTx p inp s, by rw [mainStep, hp], stepSegTx_stillHeld p hp hret (herr hp)⟩
    · exact ⟨stepSerLo p s, by rw [mainStep, hp], stepSerLo_stillHeld p hp hret⟩
    · exact ⟨stepSerHi p s, by rw [mainStep, hp], stepSerHi_stillHeld p hp hret⟩

/-- In state `u` this input record keeps button `b` held: no reset, no segment failure, and a low line if it is
sampled. -/
def HoldsButton (p : Params) (b : BitVec 3) (inp : Inputs) (u : State) : Prop :=
  inp.rst = false ∧ (u.phase = .segTx → inp.segErr = false) ∧
    (samplesLine u.phase = true → inp.lineIn.getLsbD (senseOf p b).val = false)

theorem tick_stillHeld (p : Params) {inp : Inputs} {s : State} (h : HeldScan s) (hin : HoldsButton p s.btn inp s) :
    ∃ t, tick p inp s = .next t ∧ StillHeld s t := by
  obtain ⟨hr, herr, low⟩ := hin
  obtain ⟨-, -, running⟩ := h.phase_ne
  obtain ⟨u, hm, scan, btn, lineMode, cmdStatus⟩ := mainStep_stillHeld p h herr fun hs => pressed_of_low (low hs)
  exact ⟨_, tick_main p hr running hm, scan, btn, lineMode, cmdStatus⟩

/-- The scan of a held button over a run: each tick stays in it, and BTN is the same in the next one. -/
theorem run_stillHeld (p : Params) {ins : List Inputs} {s : State} (h : HeldScan s)
    (hins : ∀ (k : Nat) (i : Inputs) (u : State), ins[k]? = some i → run p (ins.take k) s = .next u →
      HoldsButton p s.btn i u) :
    ∃ t, run p ins s = .next t ∧ StillHeld s t := by
  induction ins generalizing s with
  | nil => exact ⟨s, rfl, h, rfl, rfl, rfl⟩
  | cons i rest ih =>
    obtain ⟨t, ht, held⟩ := tick_stillHeld p h (hins 0 i s rfl rfl)
    have hrest : ∀ (k : Nat) (j : Inputs) (u : State), rest[k]? = some j → run p (rest.take k) t = .next u →
        HoldsButton p t.btn j u := fun k j u hj hu => by
      rw [held.btn]
      exact hins (k + 1) j u hj (by rw [List.take_succ_cons, run_cons, ht, andThen_next, hu])
    obtain ⟨u, hu, more⟩ := ih held.scan hrest
    exact ⟨u, by rw [run_cons, ht, andThen_next, hu], held.trans more⟩

/-- Settles O30: every tick that holds the button keeps `HeldScan`, and no such state is in IDLE, which is
cmd_ready = 0. -/
theorem heldButtonNeverReachesIdle : Obligations.HeldButtonNeverReachesIdle := by
  unfold Obligations.HeldButtonNeverReachesIdle
  refine ⟨fun p s ins h hins => ?_, fun p s inp hp hr low => ?_⟩
  · obtain ⟨t, ht, scan, btn, lineMode, cmdStatus⟩ := run_stillHeld p h hins
    obtain ⟨notIdle, notRestore, -⟩ := scan.phase_ne
    exact ⟨t, ht, scan, notIdle, notRestore, btn, lineMode, cmdStatus, beq_false_of_ne notIdle⟩
  · obtain ⟨i, u, -, -, hm⟩ := mainStep_scanRepchk_pressed p hp (pressed_of_low low)
    exact ⟨_, tick_main p hr (by simp [hp]) hm, rfl, rfl⟩

end Sys2Proof.Machine
end

