-- ==== Sys2Proof/Proofs/DisplayEncoder.lean ====
section
/-! The display encoder (R125, R133, R135, R137): the gauge level as an equivalence, the signals of both words in every
legal layout, what they show of a reachable state, the ENCODE tick, and the segment patterns. -/

namespace Sys2Proof.Machine

/-! The gauge level (R125) -/

/-- The level is the one step of the map that the value falls in: ten levels of 3 degrees from 60, and 90 itself. -/
theorem gaugeLevel_eq_some_iff (v : Int) (k : Fin 11) :
    gaugeLevel v = some k ↔
      60 ≤ v ∧ v ≤ 90 ∧ 30 * (k.val : Int) ≤ (v - 60) * 10 ∧ (v - 60) * 10 < 30 * (k.val + 1) := by
  have hk := k.isLt
  unfold gaugeLevel
  split_ifs with h
  · rw [Option.some.injEq, Fin.ext_iff, Fin.val_ofNat]
    omega
  · simp only [false_iff]
    omega

theorem exists_gaugeLevel_eq_some {v : Int} (lo : 60 ≤ v) (hi : v ≤ 90) : ∃ k, gaugeLevel v = some k :=
  ⟨_, if_pos ⟨lo, hi⟩⟩

theorem gaugeLevel_eq_none {v : Int} (h : v < 60 ∨ 90 < v) : gaugeLevel v = none := if_neg (by omega)

/-- Settles O32: inside [60, 90] there is a level, the step the value falls in; the last step is 90 alone. -/
theorem gaugeLevelIsTheTruncatedMap : Obligations.GaugeLevelIsTheTruncatedMap := by
  unfold Obligations.GaugeLevelIsTheTruncatedMap
  refine ⟨fun s lo hi => ?_, fun s => gaugeLevel_eq_none, rfl, rfl, rfl⟩
  obtain ⟨k, hk⟩ := exists_gaugeLevel_eq_some lo hi
  obtain ⟨-, -, reached, below⟩ := (gaugeLevel_eq_some_iff s k).mp hk
  have last : k = 10 ↔ s = 90 := by
    rw [Fin.ext_iff]
    omega
  exact ⟨k, hk, reached, below, last⟩

/-! The signals of the two words in a legal layout (R131, R132) -/

/-- A serial signal shows in its bit of the word. -/
theorem serWordOf_testBit_of_mem {p : Params} {c : ClimateState} {k : Nat} {lit : Bool} (legal : p.SerLegal)
    (h : (k, lit) ∈ serSignals p c) : (serWordOf p c).testBit k = lit := by
  obtain ⟨nd, inside⟩ := legal
  rw [← serSignals_positions p c] at nd inside
  have hk : k < p.serWidth := inside k (List.mem_map_of_mem h)
  rw [serWordOf_eq, Nat.testBit_mod_two_pow, testBit_orBits_of_mem nd h]
  simp [hk]

/-- A segment signal of a legal layout has a bit inside the bytes that are sent, so inside the word. -/
theorem segWordOf_getLsbD_of_legal {p : Params} {c : ClimateState} {k : Nat} {lit : Bool} (legal : p.SegLegal)
    (h : (k, lit) ∈ segSignals p c) : (segWordOf p c).getLsbD k = lit := by
  obtain ⟨bytes, nd, inside⟩ := legal
  rw [← segSignals_positions p c] at inside
  have hk : k < 8 * p.segBytes := inside k (List.mem_map_of_mem h)
  exact segWordOf_getLsbD_of_mem nd (by omega) h

section

variable (p : Params) (c : ClimateState)

theorem setSign_mem_serSignals : (p.serLayout.setSign, (decompose c.setTemp.toInt).neg) ∈ serSignals p c := by
  simp [serSignals]

theorem setHundred_mem_serSignals :
    (p.serLayout.setHundred, (decompose c.setTemp.toInt).hund) ∈ serSignals p c := by
  simp [serSignals]

theorem setTens_mem_serSignals (k : Fin 7) :
    (p.serLayout.setTens.get k, (seg7 (BitVec.ofNat 4 (decompose c.setTemp.toInt).tens)).getLsbD k.val) ∈
      serSignals p c := by
  simp only [serSignals, List.mem_append]
  exact .inl (.inl (.inr (List.mem_map_of_mem (List.mem_finRange k))))

theorem gauge_mem_serSignals (k : Fin 11) :
    (p.serLayout.gauge.get k, decide (gaugeLevel c.setTemp.toInt = some k)) ∈ serSignals p c := by
  simp only [serSignals, List.mem_append]
  exact .inr (List.mem_map_of_mem (List.mem_finRange k))

theorem recircOn_mem_segSignals : (p.segLayout.recircOn, c.recircOn) ∈ segSignals p c := by simp [segSignals]

theorem freshAir_mem_segSignals : (p.segLayout.freshAir, !c.recircOn) ∈ segSignals p c := by simp [segSignals]

end

/-! What the words show of a reachable state (R135) -/

/-- A value in [60, 90] has no sign and no hundred, and its tens digit is 6, 7, 8 or 9. -/
theorem decompose_of_setTemp_bounds {v : Int} (lo : 60 ≤ v) (hi : v ≤ 90) :
    (decompose v).neg = false ∧ (decompose v).hund = false ∧ 6 ≤ (decompose v).tens ∧ (decompose v).tens ≤ 9 := by
  have noHundred : belowHundred v.natAbs = v.natAbs := if_neg (by omega)
  simp only [decompose, noHundred, decide_eq_false_iff_not]
  omega

/-- Settles O35: SET_TEMP of a reachable state is in [60, 90], and every bit in question is that of a signal. -/
theorem reachableFramesShowOneGauge : Obligations.ReachableFramesShowOneGauge := by
  unfold Obligations.ReachableFramesShowOneGauge
  intro p s segLegal serLegal reachable
  obtain ⟨lo, hi⟩ := reachable_setTemp_bounds reachable
  obtain ⟨neg, hund, tensLo, tensHi⟩ := decompose_of_setTemp_bounds lo hi
  obtain ⟨k, hk⟩ := exists_gaugeLevel_eq_some lo hi
  refine ⟨?_, ?_, ⟨_, tensLo, tensHi, rfl, fun i => ?_⟩, ⟨k, fun j => ?_⟩, ?_, ?_⟩
  · rw [serWordOf_testBit_of_mem serLegal (setSign_mem_serSignals p _), neg]
  · rw [serWordOf_testBit_of_mem serLegal (setHundred_mem_serSignals p _), hund]
  · exact serWordOf_testBit_of_mem serLegal (setTens_mem_serSignals p _ i)
  · rw [serWordOf_testBit_of_mem serLegal (gauge_mem_serSignals p _ j), hk]
    simp [eq_comm]
  · rw [segWordOf_getLsbD_of_legal segLegal (recircOn_mem_segSignals p _),
      segWordOf_getLsbD_of_legal segLegal (freshAir_mem_segSignals p _), Bool.not_not]
  · rw [segWordOf_getLsbD_of_legal segLegal (unitC_mem_segSignals p _),
      segWordOf_getLsbD_of_legal segLegal (unitF_mem_segSignals p _)]

/-! The segment patterns (R137) -/

theorem seg7_ne_zero : ∀ n : BitVec 4, seg7 n ≠ 0 := by decide

theorem seg7_injective : Function.Injective seg7 := by
  unfold Function.Injective
  decide

/-- Settles O36: two facts of the sixteen-entry table. -/
theorem segmentPatternsAreDistinct : Obligations.SegmentPatternsAreDistinct := by
  unfold Obligations.SegmentPatternsAreDistinct
  exact ⟨seg7_ne_zero, fun m n h => seg7_injective h⟩

/-! The ENCODE tick (R133) -/

theorem tick_encode (p : Params) {inp : Inputs} {s : State} (hr : inp.rst = false) (hp : s.phase = .encode) :
    tick p inp s = .next ((stepEncode p s).writeSync (syncStep p inp s.sync)) :=
  tick_main p hr (by simp [hp]) (by rw [mainStep, hp])

/-- The words depend on the layouts and MODE_MAP only, not on the two OPEN functions. -/
theorem frameWords_standard (f f' : Nat → Option (BitVec 8)) (g g' : BitVec 12 → Int) (c : ClimateState) :
    segWordOf (Params.standard f g) c = segWordOf (Params.standard f' g') c ∧
      serWordOf (Params.standard f g) c = serWordOf (Params.standard f' g') c :=
  ⟨rfl, rfl⟩

/-- Settles O37: the tick is `stepEncode` beside SYNC's step, and the three words are those of the default layouts. -/
theorem encodeLatchesOneSnapshot : Obligations.EncodeLatchesOneSnapshot := by
  unfold Obligations.EncodeLatchesOneSnapshot
  refine ⟨fun p inp s => tick_encode p, fun f g => ?_⟩
  have words := frameWords_standard f (fun _ => none) g (fun _ => 0)
  obtain ⟨seg, ser⟩ := words ClimateState.reset
  obtain ⟨segAc, -⟩ := words { ClimateState.reset with acOn := true }
  rw [seg, ser, segAc]
  decide

end Sys2Proof.Machine
end

