-- ==== Sys2Proof/Proofs/TemperatureStage.lean ====
section
/-! The temperature stage: the three kinds of a TEMP_SAMPLE tick (R141) and the average (R142). -/

namespace Sys2Proof.Machine

/-! The TEMP_SAMPLE tick (R141) -/

theorem stepTempSample_adcErr (p : Params) {inp : Inputs} (s : State) (err : inp.adcErr = true) :
    stepTempSample p inp s = s.raiseFatal .adcFail :=
  if_pos err

theorem stepTempSample_answered (p : Params) {inp : Inputs} (s : State) (noErr : inp.adcErr = false)
    (valid : inp.adcValid = true) : stepTempSample p inp s = acceptReading p inp s := by
  simp only [stepTempSample, noErr, valid, Bool.false_eq_true, if_false, if_true]

theorem stepTempSample_unanswered (p : Params) {inp : Inputs} (s : State) (noErr : inp.adcErr = false)
    (notValid : inp.adcValid = false) : stepTempSample p inp s = s := by
  simp only [stepTempSample, noErr, notValid, Bool.false_eq_true, if_false]

/-- In TEMP_SAMPLE the reading that does not end the phase stays in it. -/
theorem acceptReading_tempSample (p : Params) (inp : Inputs) {s : State} (hp : s.phase = .tempSample) :
    acceptReading p inp s = (s.writeSum (s.cnt + 1) (s.acc + adcReading p inp)).goto
      (if s.cnt.toNat + 1 = avgN then .tempConvert else .tempSample) := by
  rw [acceptReading, hp]

theorem tick_tempSample (p : Params) {inp : Inputs} {s : State} (hr : inp.rst = false) (hp : s.phase = .tempSample) :
    tick p inp s = .next ((stepTempSample p inp s).writeSync (syncStep p inp s.sync)) :=
  tick_main p hr (by simp [hp]) (by rw [mainStep, hp])

/-- Settles O40: a tick of the phase is `stepTempSample`, which has one equation per kind of answer, beside SYNC's
step. -/
theorem tempSampleAccumulatesOneReading : Obligations.TempSampleAccumulatesOneReading := by
  unfold Obligations.TempSampleAccumulatesOneReading
  intro p inp s hr hp
  rw [tick_tempSample p hr hp]
  refine ⟨fun err => ?_, fun noErr valid => ?_, fun noErr notValid => ?_, fun d => ⟨beq_iff_eq.mpr hp, rfl⟩⟩
  · rw [stepTempSample_adcErr p s err]
    rfl
  · rw [stepTempSample_answered p s noErr valid, acceptReading_tempSample p inp hp]
    rfl
  · rw [stepTempSample_unanswered p s noErr notValid]
    rfl

/-! The average (R142) -/

/-- The rounded mean is off by at most a half, and exactly a half only when it was rounded up. -/
theorem average_rounds_half_up {acc : Nat} (h : acc ≤ 128 * 0xFFFF) :
    128 * average acc ≤ acc + 64 ∧ acc < 128 * average acc + 64 := by
  rw [average_of_codes h]
  omega

/-- Settles O41: the formula is the definition, a sum of 16-bit codes does not saturate, and the examples are
evaluated. -/
theorem averageRoundsHalfUp : Obligations.AverageRoundsHalfUp := by
  unfold Obligations.AverageRoundsHalfUp
  exact ⟨fun _ => rfl, fun _ => average_rounds_half_up, by decide, by decide, by decide, by decide, by decide,
    by decide⟩

end Sys2Proof.Machine
end

