-- ==== Sys2Proof/Proofs/AgentIndependence.lean ====
section
/-! MAIN and SYNC beside each other (R175): MAIN's step carries SYNC's registers along and reads neither them nor sync_in,
and SYNC's registers after a tick are a function of rst, sync_in, themselves and whether PHASE is FATAL. -/

namespace Sys2Proof.Machine

/-! MAIN without SYNC -/

/-- No rule of MAIN reads sync_in. -/
theorem mainStep_syncIn (p : Params) (inp : Inputs) (s : State) (level : Bool) :
    mainStep p { inp with syncIn := level } s = mainStep p inp s := rfl

theorem writeSync_ite (c : Prop) [Decidable c] (s t : State) (r : SyncRegs) :
    (if c then s else t).writeSync r = if c then s.writeSync r else t.writeSync r :=
  apply_ite (State.writeSync · r) c s t

section

variable (p : Params) (inp : Inputs) (s : State) (r : SyncRegs)

theorem idleAdvance_writeSync : idleAdvance p (s.writeSync r) = (idleAdvance p s).writeSync r := by
  simp only [idleAdvance, writeSync_ite]
  rfl

theorem stepTempConvert_writeSync : stepTempConvert p (s.writeSync r) = (stepTempConvert p s).writeSync r := by
  simp only [stepTempConvert, writeSync_acc]
  split <;> rfl

theorem returnFromRefresh_writeSync :
    returnFromRefresh p (s.writeSync r) = (returnFromRefresh p s).writeSync r := by
  simp only [returnFromRefresh, writeSync_ret]
  split <;> rfl

theorem stepSerHi_writeSync : stepSerHi p (s.writeSync r) = (stepSerHi p s).writeSync r := by
  simp only [stepSerHi, writeSync_ite, returnFromRefresh_writeSync]
  rfl

/-- A command works on the ClimateState registers and CMD_STATUS, and a tick of IDLE on TIMER and the phase. -/
theorem stepIdle_writeSync :
    ∃ u, stepIdle p inp s = .next u ∧ stepIdle p inp (s.writeSync r) = .next (u.writeSync r) := by
  obtain ⟨f, b, -, hx⟩ := acceptCommand_of_climate inp
  refine ⟨_, by rw [stepIdle, hx, andThen_next], ?_⟩
  rw [stepIdle, hx, andThen_next, ← idleAdvance_writeSync]
  rfl

/-- An action works on the ClimateState registers, and the sample reads a line. -/
theorem stepScanConfirm_writeSync :
    ∃ u, stepScanConfirm p inp s = .next u ∧ stepScanConfirm p inp (s.writeSync r) = .next (u.writeSync r) := by
  obtain ⟨f, -, hx⟩ := applyAction_of_climate s.btn
  refine ⟨_, by rw [stepScanConfirm, hx, andThen_next], ?_⟩
  rw [stepScanConfirm, writeSync_btn, hx, andThen_next, writeSync_ite]
  rfl

theorem stepScanRepchk_writeSync :
    ∃ u, stepScanRepchk p inp s = .next u ∧ stepScanRepchk p inp (s.writeSync r) = .next (u.writeSync r) := by
  obtain ⟨f, -, hx⟩ := applyAction_of_climate s.btn
  have same : pressed p inp (s.writeSync r) = pressed p inp s := rfl
  simp only [stepScanRepchk, same, writeSync_btn, hx, andThen_next]
  split_ifs <;> exact ⟨_, rfl, rfl⟩

/-- MAIN's step carries SYNC's registers along and does not read them. -/
theorem mainStep_writeSync :
    ∃ u, mainStep p inp s = .next u ∧ mainStep p inp (s.writeSync r) = .next (u.writeSync r) := by
  unfold mainStep
  rw [writeSync_phase]
  split
  case h_1 => exact stepIdle_writeSync p inp s r
  case h_7 => exact stepScanConfirm_writeSync p inp s r
  case h_9 => exact stepScanRepchk_writeSync p inp s r
  all_goals refine ⟨_, rfl, congrArg _ ?_⟩
  case h_3 => exact stepTempConvert_writeSync p s r
  case h_14 => exact stepSerHi_writeSync p s r
  case h_4 | h_11 | h_15 => rfl
  all_goals
    simp only [stepTempSample, stepWait, stepScanSample, stepScanHoldchk, stepScanRestore, stepSegTx, stepSerLo,
      writeSync_ite]
    rfl

/-- Another sync_in and other registers of SYNC change a tick in SYNC's registers only. -/
theorem tick_writeSync (level : Bool) : ∃ (t : State) (after : SyncRegs), tick p inp s = .next t ∧
    tick p { inp with syncIn := level } (s.writeSync r) = .next (t.writeSync after) := by
  obtain hr | hr := Bool.eq_false_or_eq_true inp.rst
  · exact ⟨_, _, tick_reset p s hr, tick_reset p (s.writeSync r) hr⟩
  · by_cases hf : s.phase = .fatal
    · exact ⟨s, r, tick_fatal p hr hf, tick_fatal p hr hf⟩
    · obtain ⟨u, hu, hw⟩ := mainStep_writeSync p inp s r
      rw [← mainStep_syncIn p inp (s.writeSync r) level] at hw
      exact ⟨_, _, tick_main p hr hf hu, tick_main (u := u.writeSync r) p hr hf hw⟩

end

/-! SYNC without MAIN -/

theorem syncStep_congr (p : Params) {i j : Inputs} (h : i.syncIn = j.syncIn) (r : SyncRegs) :
    syncStep p i r = syncStep p j r := by
  simp only [syncStep, h]

/-- SYNC's registers after a tick (R192). -/
theorem tick_sync {p : Params} {inp : Inputs} {s t : State} (h : tick p inp s = .next t) :
    t.sync = if inp.rst then SyncRegs.resetOf p else if s.phase = .fatal then s.sync else syncStep p inp s.sync := by
  obtain ⟨hr, rfl⟩ | ⟨hr, hf, rfl⟩ | ⟨hr, hf, u, -, rfl⟩ := tick_cases h
  · rw [if_pos hr]
    rfl
  · rw [if_neg (by simp [hr]), if_pos hf]
  · rw [if_neg (by simp [hr]), if_neg hf, writeSync_sync]

/-- Settles O50: MAIN's step commutes with a write of SYNC's registers, and SYNC's registers after a tick are those of
`tick_sync`. -/
theorem mainAndSyncAreIndependent : Obligations.MainAndSyncAreIndependent := by
  unfold Obligations.MainAndSyncAreIndependent
  refine ⟨fun p inp s level r => ?_, fun p i j s t hr hi hs hf => ?_⟩
  · obtain ⟨t, after, ht, hu⟩ := tick_writeSync p inp s r level
    exact ⟨t, _, ht, hu, rfl⟩
  · obtain ⟨u, hu⟩ := tick_next p i s
    obtain ⟨v, hv⟩ := tick_next p j t
    refine ⟨u, v, hu, hv, ?_⟩
    rw [tick_sync hu, tick_sync hv, hr, hs, syncStep_congr p hi]
    simp only [hf]

end Sys2Proof.Machine
end

