-- ==== Sys2Proof/Proofs/SerialFrame.lean ====
section
/-! The two display buses: the three kinds of a SEG_TX tick (R163, R164), the state in every tick of a serial frame
(R166 to R170), and that only a segment write that is done leads into a frame. -/

namespace Sys2Proof.Machine

/-! The segment write (R163) -/

theorem stepSegTx_segErr (p : Params) {inp : Inputs} (s : State) (err : inp.segErr = true) :
    stepSegTx p inp s = s.raiseFatal .segWriteFail :=
  if_pos err

theorem stepSegTx_segDone (p : Params) {inp : Inputs} (s : State) (noErr : inp.segErr = false)
    (done : inp.segDone = true) :
    stepSegTx p inp s = ((s.writeBitk (p.serWidth - 1)).loadTimer p.nClkLow).goto .serLo := by
  simp only [stepSegTx, noErr, done, Bool.false_eq_true, if_false, if_true]

theorem stepSegTx_unanswered (p : Params) {inp : Inputs} (s : State) (noErr : inp.segErr = false)
    (notDone : inp.segDone = false) : stepSegTx p inp s = s := by
  simp only [stepSegTx, noErr, notDone, Bool.false_eq_true, if_false]

theorem tick_segTx (p : Params) {inp : Inputs} {s : State} (hr : inp.rst = false) (hp : s.phase = .segTx) :
    tick p inp s = .next ((stepSegTx p inp s).writeSync (syncStep p inp s.sync)) :=
  tick_main p hr (by simp [hp]) (by rw [mainStep, hp])

/-- Settles O46: a tick of the phase is `stepSegTx`, which has one equation per kind of answer, beside SYNC's step. -/
theorem segmentWriteStartsTheFrame : Obligations.SegmentWriteStartsTheFrame := by
  unfold Obligations.SegmentWriteStartsTheFrame
  intro p inp s hr hp
  rw [tick_segTx p hr hp]
  refine ⟨fun err => ?_, fun noErr done => ?_, fun noErr notDone => ?_, fun d => ⟨beq_iff_eq.mpr hp, rfl, rfl⟩⟩
  · rw [stepSegTx_segErr p s err]
    rfl
  · rw [stepSegTx_segDone p s noErr done]
    rfl
  · rw [stepSegTx_unanswered p s noErr notDone]
    rfl

/-! The ticks of a frame (R166, R167) -/

theorem stepSerLo_count (p : Params) {s : State} (ht : 1 < s.timer) :
    stepSerLo p s = s.loadTimer (s.timer - 1) :=
  if_pos ht

theorem stepSerLo_end (p : Params) {s : State} (ht : s.timer ≤ 1) :
    stepSerLo p s = (s.loadTimer p.nClkHigh).goto .serHi :=
  if_neg (Nat.not_lt.mpr ht)

theorem stepSerHi_count (p : Params) {s : State} (ht : 1 < s.timer) :
    stepSerHi p s = s.loadTimer (s.timer - 1) :=
  if_pos ht

theorem stepSerHi_nextBit (p : Params) {s : State} (ht : s.timer ≤ 1) (hb : 0 < s.bitk) :
    stepSerHi p s = ((s.writeBitk (s.bitk - 1)).loadTimer p.nClkLow).goto .serLo := by
  rw [stepSerHi, if_neg (Nat.not_lt.mpr ht), if_pos hb]

theorem stepSerHi_end (p : Params) {s : State} (ht : s.timer ≤ 1) (hb : s.bitk = 0) :
    stepSerHi p s = returnFromRefresh p s := by
  rw [stepSerHi, if_neg (Nat.not_lt.mpr ht), if_neg (by omega)]

/-- The state in tick `k` of the period of the bit that is sent as number `j` of a frame started in `s`, with SYNC's
registers `r`: N_CLK_LOW ticks of SER_LO, then SER_HI to the end of the period. -/
def frameState (p : Params) (s : State) (j k : Nat) (r : SyncRegs) : State :=
  { s with
    phase := if k < p.nClkLow then .serLo else .serHi
    timer := if k < p.nClkLow then p.nClkLow - k else p.nClkLow + p.nClkHigh - k
    bitk := p.serWidth - 1 - j
    sync := r }

section

variable {p : Params} {s : State} {j k : Nat} {r : SyncRegs} {inp : Inputs}

theorem frameState_of_low (h : k < p.nClkLow) :
    frameState p s j k r =
      { s with phase := .serLo, timer := p.nClkLow - k, bitk := p.serWidth - 1 - j, sync := r } := by
  simp only [frameState, h, if_true]

theorem frameState_of_high (h : p.nClkLow ≤ k) :
    frameState p s j k r =
      { s with phase := .serHi, timer := p.nClkLow + p.nClkHigh - k, bitk := p.serWidth - 1 - j, sync := r } := by
  simp only [frameState, Nat.not_lt.mpr h, if_false]

/-- A frame starts in SER_LO with TIMER = N_CLK_LOW at the top bit (R163). -/
theorem frameState_start (low : 1 ≤ p.nClkLow) (hp : s.phase = .serLo) (ht : s.timer = p.nClkLow)
    (hb : s.bitk = p.serWidth - 1) : frameState p s 0 0 s.sync = s := by
  rw [frameState_of_low low, Nat.sub_zero, Nat.sub_zero, ← hp, ← ht, ← hb]

/-- The levels of R168 in tick `k` of a bit. -/
theorem outputs_frameState (p : Params) (s : State) (j k : Nat) (r : SyncRegs) (d : BitVec 12) :
    (outputs p (frameState p s j k r) d).serClk = decide (p.nClkLow ≤ k) ∧
      (outputs p (frameState p s j k r) d).serData = s.serWord.testBit (p.serWidth - 1 - j) := by
  obtain h | h := Nat.lt_or_ge k p.nClkLow
  · rw [frameState_of_low h]
    exact ⟨(decide_eq_false (Nat.not_le.mpr h)).symm, rfl⟩
  · rw [frameState_of_high h]
    exact ⟨(decide_eq_true h).symm, rfl⟩

/-- A tick that is not the last of its bit: TIMER counts, or SER_LO hands over to SER_HI. -/
theorem tick_frameState_sameBit (hr : inp.rst = false) (hk : k + 1 < p.nClkLow + p.nClkHigh) :
    tick p inp (frameState p s j k r) = .next (frameState p s j (k + 1) (syncStep p inp r)) := by
  obtain h | h := Nat.lt_or_ge k p.nClkLow
  · rw [frameState_of_low h, tick_serLo p hr rfl]
    obtain more | last := Nat.lt_or_ge (k + 1) p.nClkLow
    · rw [stepSerLo_count p (Nat.lt_sub_iff_add_lt'.mpr more), frameState_of_low more]
      rfl
    · have rest : p.nClkLow + p.nClkHigh - (k + 1) = p.nClkHigh := by omega
      rw [stepSerLo_end p (Nat.sub_le_iff_le_add'.mpr last), frameState_of_high last, rest]
      rfl
  · rw [frameState_of_high h, tick_serHi p hr rfl, stepSerHi_count p (Nat.lt_sub_iff_add_lt'.mpr hk),
      frameState_of_high (Nat.le_succ_of_le h)]
    rfl

/-- The last tick of a bit that is not the last bit starts the next one. -/
theorem tick_frameState_nextBit (low : 1 ≤ p.nClkLow) (high : 1 ≤ p.nClkHigh) (hr : inp.rst = false)
    (hj : j + 1 < p.serWidth) :
    tick p inp (frameState p s j (p.nClkLow + p.nClkHigh - 1) r) =
      .next (frameState p s (j + 1) 0 (syncStep p inp r)) := by
  rw [frameState_of_high (Nat.le_sub_of_add_le (by omega)), tick_serHi p hr rfl,
    stepSerHi_nextBit p (by simp only; omega) (by simp only; omega), frameState_of_low low]
  rfl

/-- The last tick of the last bit, which finds TIMER = 1 and BITK = 0, ends the frame. -/
theorem tick_frameState_end (high : 1 ≤ p.nClkHigh) (hr : inp.rst = false) :
    tick p inp (frameState p s (p.serWidth - 1) (p.nClkLow + p.nClkHigh - 1) r) =
      .next (returnFromRefresh p { s with phase := .serHi, timer := 1, bitk := 0, sync := syncStep p inp r }) := by
  have one : p.nClkLow + p.nClkHigh - (p.nClkLow + p.nClkHigh - 1) = 1 := by omega
  rw [frameState_of_high (Nat.le_sub_of_add_le (by omega)), one, Nat.sub_self, tick_serHi p hr rfl,
    stepSerHi_end p le_rfl rfl, ← returnFromRefresh_writeSync]
  rfl

variable {ins : List Inputs}

/-- The state in every tick of a frame: tick `j * P + k` is tick `k` of bit `j`. -/
theorem run_frameState (low : 1 ≤ p.nClkLow) (high : 1 ≤ p.nClkHigh) (start : frameState p s 0 0 s.sync = s)
    (hj : j < p.serWidth) (hk : k < p.nClkLow + p.nClkHigh) (hins : NoReset ins)
    (hlen : ins.length = j * (p.nClkLow + p.nClkHigh) + k) :
    run p ins s = .next (frameState p s j k (syncRun p ins s.sync)) := by
  induction ins using List.reverseRecOn generalizing j k with
  | nil =>
    obtain ⟨hjP, rfl⟩ := Nat.add_eq_zero_iff.mp hlen.symm
    obtain rfl : j = 0 := (Nat.mul_eq_zero.mp hjP).resolve_right (by omega)
    rw [run_nil, syncRun_nil, start]
  | append_singleton before last ih =>
    have hlast : last.rst = false := hins last List.mem_concat_self
    have hbefore : NoReset before := fun i hi => hins i (List.mem_append_left _ hi)
    rw [List.length_append, List.length_singleton] at hlen
    rw [run_append, syncRun_append]
    cases k with
    | succ k =>
      rw [ih hj (Nat.lt_of_succ_lt hk) hbefore (by omega), andThen_next, run_cons,
        tick_frameState_sameBit hlast hk]
      rfl
    | zero =>
      cases j with
      | zero => omega
      | succ j =>
        rw [Nat.succ_mul] at hlen
        rw [ih (Nat.lt_of_succ_lt hj) (Nat.sub_one_lt_of_lt hk) hbefore (by omega), andThen_next, run_cons,
          tick_frameState_nextBit low high hlast hj]
        rfl

/-- After its SER_WIDTH * P ticks a frame returns from the refresh (R184); until then it has written only PHASE, TIMER and
BITK beside SYNC's registers. -/
theorem run_frame (low : 1 ≤ p.nClkLow) (high : 1 ≤ p.nClkHigh) (width : 1 ≤ p.serWidth)
    (start : frameState p s 0 0 s.sync = s) (hins : NoReset ins) (hlen : ins.length = frameTicks p) :
    run p ins s = .next (returnFromRefresh p
      { s with phase := .serHi, timer := 1, bitk := 0, sync := syncRun p ins s.sync }) := by
  obtain rfl | ⟨before, last, rfl⟩ := ins.eq_nil_or_concat'
  · exact absurd hlen.symm (Nat.mul_pos width (by omega)).ne'
  · have length : before.length = (p.serWidth - 1) * (p.nClkLow + p.nClkHigh) + (p.nClkLow + p.nClkHigh - 1) := by
      rw [List.length_append, List.length_singleton, frameTicks, ← Nat.sub_add_cancel width, Nat.succ_mul] at hlen
      omega
    have lastTick := run_frameState low high start (Nat.sub_one_lt_of_lt width)
      (Nat.sub_one_lt_of_lt (Nat.add_pos_left low p.nClkHigh))
      (fun i hi => hins i (List.mem_append_left _ hi)) length
    rw [run_append, lastTick, andThen_next, run_cons, tick_frameState_end high (hins last List.mem_concat_self),
      syncRun_append]
    rfl

end

/-- The output ports in tick `n` of a stream are those of the state after `n` ticks. -/
theorem waveform_getElem? (p : Params) {ins : List Inputs} {n : Nat} (hn : n < ins.length) {s u : State}
    (hu : run p (ins.take n) s = .next u) : ∃ d, (waveform p ins s)[n]? = some (outputs p u d) := by
  induction ins generalizing n s with
  | nil => exact absurd hn (Nat.not_lt_zero n)
  | cons i rest ih =>
    obtain ⟨t, ht⟩ := tick_next p i s
    rw [waveform, ht]
    cases n with
    | zero =>
      rw [← Host.Outcome.next.inj hu]
      exact ⟨i.dieCode, rfl⟩
    | succ n =>
      rw [List.take_succ_cons, run_cons, ht, andThen_next] at hu
      exact ih (Nat.lt_of_succ_lt_succ hn) hu

/-! Outside a frame (R169) -/

/-- The phases that shift a frame out. -/
abbrev Shifting (ph : Phase) : Prop := ph = .serLo ∨ ph = .serHi

theorem serial_idle_of_not_shifting (p : Params) {s : State} (d : BitVec 12) (h : ¬Shifting s.phase) :
    (outputs p s d).serClk = true ∧ (outputs p s d).serData = false := by
  obtain ⟨notLo, notHi⟩ := not_or.mp h
  simp [outputs, serClkOf, serDataOf, notLo, notHi]

theorem returnFromRefresh_not_shifting (p : Params) (s : State) : ¬Shifting (returnFromRefresh p s).phase := by
  unfold returnFromRefresh
  split <;> simp

theorem idleAdvance_not_shifting (p : Params) {s : State} (h : ¬Shifting s.phase) :
    ¬Shifting (idleAdvance p s).phase := by
  unfold idleAdvance
  split_ifs
  · exact h
  · simp
  · simp

/-- MAIN goes into a frame from SEG_TX with seg_done only. -/
theorem mainStep_not_shifting {p : Params} {inp : Inputs} {s u : State} (h : mainStep p inp s = .next u)
    (hs : ¬Shifting s.phase) (noDone : s.phase = .segTx → inp.segDone = false) : ¬Shifting u.phase := by
  unfold mainStep at h
  split at h
  case h_1 hp =>
    obtain ⟨f, b, -, hx⟩ := acceptCommand_of_climate inp
    rw [stepIdle, hx, andThen_next, Host.Outcome.next.injEq] at h
    rw [← h]
    exact idleAdvance_not_shifting p hs
  case h_7 =>
    obtain ⟨f, -, hx⟩ := applyAction_of_climate s.btn
    rw [stepScanConfirm, hx, andThen_next, Host.Outcome.next.injEq] at h
    rw [← h]
    split_ifs <;> simp
  case h_9 =>
    obtain ⟨f, -, hx⟩ := applyAction_of_climate s.btn
    rw [stepScanRepchk, hx] at h
    split_ifs at h <;> rw [← Host.Outcome.next.inj h] <;> simp
  all_goals rw [← Host.Outcome.next.inj h]
  case h_2 hp =>
    unfold stepTempSample acceptReading
    split_ifs <;> simp [hp]
  case h_3 =>
    unfold stepTempConvert
    split <;> simp
  case h_4 | h_11 => simp [stepScanDrive, stepEncode]
  case h_5 =>
    unfold stepWait
    split_ifs
    · exact hs
    · cases s.wnext <;> simp [WaitNext.phase]
  case h_6 | h_8 | h_10 =>
    simp only [stepScanSample, stepScanHoldchk, stepScanRestore]
    split_ifs <;> simp
  case h_12 hp =>
    cases err : inp.segErr with
    | true => simp [stepSegTx_segErr p s err]
    | false => rwa [stepSegTx_unanswered p s err (noDone hp)]
  case h_13 hp => exact absurd (.inl hp) hs
  case h_14 hp => exact absurd (.inr hp) hs
  case h_15 => exact hs

theorem tick_not_shifting {p : Params} {inp : Inputs} {s t : State} (h : tick p inp s = .next t)
    (hs : ¬Shifting s.phase) (noDone : s.phase = .segTx → inp.segDone = false) : ¬Shifting t.phase := by
  obtain ⟨-, rfl⟩ | ⟨-, -, rfl⟩ | ⟨-, -, u, hu, rfl⟩ := tick_cases h
  · simp [State.resetOf]
  · exact hs
  · exact mainStep_not_shifting (u := u) hu hs noDone

/-- Until a segment write is done no tick shifts. -/
theorem run_not_shifting (p : Params) {ins : List Inputs} {s t : State} (h : run p ins s = .next t)
    (hs : ¬Shifting s.phase)
    (noDone : ∀ (k : Nat) (i : Inputs) (u : State), ins[k]? = some i → run p (ins.take k) s = .next u →
      u.phase = .segTx → i.segDone = false) : ¬Shifting t.phase := by
  induction ins generalizing s with
  | nil => rwa [← Host.Outcome.next.inj h]
  | cons i rest ih =>
    obtain ⟨u, hu⟩ := tick_next p i s
    rw [run_cons, hu, andThen_next] at h
    refine ih h (tick_not_shifting hu hs (noDone 0 i s rfl rfl)) fun k j v hj hv => ?_
    exact noDone (k + 1) j v hj (by rw [List.take_succ_cons, run_cons, hu, andThen_next, hv])

/-- Settles O47: the state in each tick of the frame is a `frameState`, whose levels are those of R168; after the frame
MAIN is outside SER_LO and SER_HI, where both lines are idle, and stays outside until a segment write is done. -/
theorem serialWaveform : Obligations.SerialWaveform := by
  unfold Obligations.SerialWaveform
  intro p s ins low high width hp ht hb hlen hins
  have start := frameState_start low hp ht hb
  refine ⟨fun j k hj hk => ?_, _, run_frame low high width start hins hlen, ?_⟩
  · have inFrame : j * (p.nClkLow + p.nClkHigh) + k < ins.length := by
      rw [hlen, frameTicks]
      exact (Nat.mul_comm _ _ ▸ Nat.mul_add_lt_mul_of_lt_of_lt hj hk)
    have state := run_frameState low high start hj hk (hins.take _) (List.length_take_of_le inFrame.le)
    obtain ⟨d, hd⟩ := waveform_getElem? p inFrame state
    exact ⟨_, hd, outputs_frameState p s j k _ d⟩
  · have ended := returnFromRefresh_not_shifting p
      { s with phase := .serHi, timer := 1, bitk := 0, sync := syncRun p ins s.sync }
    obtain ⟨notLo, notHi⟩ := not_or.mp ended
    refine ⟨notLo, notHi, fun more u d hu => ⟨fun lo hi => ?_, fun noDone => ?_⟩⟩
    · exact serial_idle_of_not_shifting p d (not_or.mpr ⟨lo, hi⟩)
    · exact not_or.mp (run_not_shifting p hu ended noDone)

end Sys2Proof.Machine
end

