-- ==== Sys2Proof/Proofs/MainPorts.lean ====
section
/-! The ports MAIN reads (R182, R190): its step in a phase is a function of the ports of that phase, and in IDLE the
host port reaches the ClimateState and CMD_STATUS only. -/

namespace Sys2Proof.Machine

/-! MAIN reads the ports of its phase -/

section

variable (p : Params) {i j : Inputs} {s : State}

theorem acceptCommand_congr (valid : i.cmdValid = j.cmdValid) (word : i.cmdWord = j.cmdWord) :
    acceptCommand i s = acceptCommand j s := by
  simp only [acceptCommand, valid, word]

theorem stepTempSample_congr (err : i.adcErr = j.adcErr) (valid : i.adcValid = j.adcValid)
    (code : i.adcCode = j.adcCode) : stepTempSample p i s = stepTempSample p j s := by
  simp only [stepTempSample, acceptReading, adcReading, err, valid, code]

theorem stepSegTx_congr (err : i.segErr = j.segErr) (done : i.segDone = j.segDone) :
    stepSegTx p i s = stepSegTx p j s := by
  simp only [stepSegTx, err, done]

theorem pressed_congr (lines : i.lineIn = j.lineIn) : pressed p i s = pressed p j s := by
  simp only [pressed, readsLow, lines]

/-- MAIN's step is a function of the registers and the ports of the current phase. -/
theorem mainStep_congr (h : SameForMain s.phase i j) : mainStep p i s = mainStep p j s := by
  unfold mainStep
  revert h
  cases s.phase with
  | idle =>
    rintro ⟨valid, word⟩
    exact congrArg (Result.andThen · _) (acceptCommand_congr valid word)
  | tempSample =>
    rintro ⟨err, valid, code⟩
    exact congrArg _ (stepTempSample_congr p err valid code)
  | segTx =>
    rintro ⟨err, done⟩
    exact congrArg _ (stepSegTx_congr p err done)
  | scanSample | scanConfirm | scanHoldchk | scanRepchk =>
    intro lines
    simp only [stepScanSample, stepScanConfirm, stepScanHoldchk, stepScanRepchk, pressed_congr p lines]
  | tempConvert | scanDrive | wait | scanRestore | encode | serLo | serHi | fatal => exact fun _ => rfl

/-- A tick is a function of the registers, rst, sync_in and the ports of the current phase. -/
theorem tick_congr (rst : i.rst = j.rst) (syncIn : i.syncIn = j.syncIn) (h : SameForMain s.phase i j) :
    tick p i s = tick p j s := by
  simp only [tick, rst, mainStep_congr p h, syncStep_congr p syncIn]

/-- Without sync_in, two ticks can differ in SYNC's registers only. -/
theorem tick_writeSync_congr (rst : i.rst = j.rst) (h : SameForMain s.phase i j) :
    ∃ (t : State) (r : SyncRegs), tick p i s = .next t ∧ tick p j s = .next (t.writeSync r) := by
  have same : tick p { i with syncIn := j.syncIn } s = tick p j s :=
    tick_congr (i := { i with syncIn := _ }) p rst rfl h
  obtain ⟨t, r, ht, hu⟩ := tick_writeSync p i s s.sync j.syncIn
  exact ⟨t, r, ht, same ▸ hu⟩

end

/-! The host port -/

/-- Out of IDLE the host port is not among the ports MAIN reads. -/
theorem sameForMain_hostPort {ph : Phase} (h : ph ≠ .idle) (inp : Inputs) (v : Bool) (w : Word) :
    SameForMain ph { inp with cmdValid := v, cmdWord := w } inp := by
  cases ph with
  | idle => exact absurd rfl h
  | tempSample => exact ⟨rfl, rfl, rfl⟩
  | segTx => exact ⟨rfl, rfl⟩
  | scanSample | scanConfirm | scanHoldchk | scanRepchk => rfl
  | tempConvert | scanDrive | wait | scanRestore | encode | serLo | serHi | fatal => trivial

/-- The sequencing of an IDLE tick does not read what a command writes. -/
theorem idleAdvance_climate_cmdStatus (p : Params) (s : State) (c : ClimateState) (b : Bool) :
    idleAdvance p { s with climate := c, cmdStatus := b } = { idleAdvance p s with climate := c, cmdStatus := b } := by
  unfold idleAdvance
  split_ifs <;> rfl

/-- The registers after an IDLE tick, whatever is offered on the host port. -/
theorem tick_idle_sequencing (p : Params) {inp : Inputs} {s : State} (hr : inp.rst = false) (hp : s.phase = .idle) :
    ∃ (c : ClimateState) (b : Bool), tick p inp s =
      .next { idleAdvance p s with climate := c, cmdStatus := b, sync := syncStep p inp s.sync } := by
  obtain ⟨f, b, -, hx⟩ := acceptCommand_of_climate inp
  refine ⟨f s.climate, b s.cmdStatus, ?_⟩
  rw [tick_idle p hr hp (hx s), idleAdvance_climate_cmdStatus]
  rfl

/-- A word offered in IDLE is performed for the host in that tick (R182). -/
theorem tick_idle_command (p : Params) {inp : Inputs} {s : State} (hr : inp.rst = false) (hp : s.phase = .idle)
    (hv : inp.cmdValid = true) : ∃ u, perform .host inp.cmdWord s = .next u ∧
      tick p inp s = .next { idleAdvance p u with sync := syncStep p inp s.sync } := by
  obtain ⟨f, b, -, hx⟩ := performHost_of_climate inp.cmdWord
  have accepted : acceptCommand inp s = perform .host inp.cmdWord s := if_pos hv
  exact ⟨_, hx s, tick_idle p hr hp (accepted.trans (hx s))⟩

/-- Out of IDLE, and under reset, a word offered leaves no trace (R182, R207). -/
theorem tick_hostPort (p : Params) {inp : Inputs} {s : State} (h : s.phase ≠ .idle ∨ inp.rst = true) (v : Bool)
    (w : Word) : tick p { inp with cmdValid := v, cmdWord := w } s = tick p inp s := by
  obtain hp | hr := h
  · exact tick_congr p rfl rfl (sameForMain_hostPort hp inp v w)
  · rw [tick_reset p s hr]
    exact tick_reset p s hr

/-- Settles O21: cmd_ready is PHASE = IDLE by definition; a word is performed in its IDLE tick, and any other tick
is the same whatever the host port holds. -/
theorem commandsAcceptedOnlyInIdle : Obligations.CommandsAcceptedOnlyInIdle := by
  unfold Obligations.CommandsAcceptedOnlyInIdle
  exact ⟨fun _ _ _ => beq_iff_eq, fun p _ _ hr hp hv => tick_idle_command p hr hp hv,
    fun p _ _ v w h => tick_hostPort p h v w⟩

/-- Settles O51: two ticks whose inputs agree on the ports of the phase differ in SYNC's registers only, and an IDLE
tick without reset is `idleAdvance` but for the ClimateState, CMD_STATUS and SYNC. -/
theorem mainReadsOnlyItsPorts : Obligations.MainReadsOnlyItsPorts := by
  unfold Obligations.MainReadsOnlyItsPorts
  refine ⟨fun p i j s rst h => ?_, fun p i j s rst hp => ?_⟩
  · obtain ⟨t, r, ht, hu⟩ := tick_writeSync_congr p rst h
    exact ⟨t, _, ht, hu, rfl⟩
  · cases hr : j.rst with
    | true => exact ⟨_, _, tick_reset p s (rst.trans hr), tick_reset p s hr, rfl⟩
    | false =>
      obtain ⟨c, b, ht⟩ := tick_idle_sequencing p (rst.trans hr) hp
      obtain ⟨c', b', hu⟩ := tick_idle_sequencing p hr hp
      exact ⟨_, _, ht, hu, rfl⟩

end Sys2Proof.Machine
end

