-- ==== Sys2Proof/Proofs/FatalStop.lean ====
section
/-! The fatal stop (R203 to R205): the three conditions that raise it, that MAIN enters it by `raiseFatal` under one of them
and in no other way, and that a FATAL state is a fixed point of every tick without reset. -/

namespace Sys2Proof.Machine

/-! The entry (R203) -/

/-- The phase and the condition in it that raise each cause (R141, R143, R163). -/
inductive RaisesFatal (p : Params) (inp : Inputs) (s : State) : FaultCause → Prop where
  | adcFail : s.phase = .tempSample → inp.adcErr = true → RaisesFatal p inp s .adcFail
  | segWriteFail : s.phase = .segTx → inp.segErr = true → RaisesFatal p inp s .segWriteFail
  | thermDomain : s.phase = .tempConvert → p.thermFn (average s.acc) = none → RaisesFatal p inp s .thermDomain

section

variable {p : Params} {inp : Inputs} {s : State}

theorem adcErr_of_stepTempSample_fatal (hp : s.phase = .tempSample) (h : (stepTempSample p inp s).phase = .fatal) :
    inp.adcErr = true := by
  by_contra noErr
  rw [Bool.not_eq_true] at noErr
  cases valid : inp.adcValid with
  | true =>
    rw [stepTempSample_answered p s noErr valid, acceptReading_tempSample p inp hp, goto_phase] at h
    split_ifs at h
  | false => simp [stepTempSample_unanswered p s noErr valid, hp] at h

theorem segErr_of_stepSegTx_fatal (hp : s.phase = .segTx) (h : (stepSegTx p inp s).phase = .fatal) :
    inp.segErr = true := by
  by_contra noErr
  rw [Bool.not_eq_true] at noErr
  cases done : inp.segDone with
  | true => simp [stepSegTx_segDone p s noErr done] at h
  | false => simp [stepSegTx_unanswered p s noErr done, hp] at h

theorem stepTempConvert_domain (h : p.thermFn (average s.acc) = none) :
    stepTempConvert p s = s.raiseFatal .thermDomain := by
  rw [stepTempConvert, h]

theorem stepTempConvert_value {v : BitVec 8} (h : p.thermFn (average s.acc) = some v) :
    stepTempConvert p s = ((s.writeAmbient v).writeBtn 0).goto .scanDrive := by
  rw [stepTempConvert, h]

theorem domain_of_stepTempConvert_fatal (h : (stepTempConvert p s).phase = .fatal) :
    p.thermFn (average s.acc) = none := by
  cases hv : p.thermFn (average s.acc) with
  | none => rfl
  | some v => simp [stepTempConvert_value hv] at h

/-! The phases that do not raise it -/

theorem idleAdvance_not_fatal (h : s.phase ≠ .fatal) : (idleAdvance p s).phase ≠ .fatal := by
  unfold idleAdvance
  split_ifs
  · exact h
  · simp
  · simp

theorem stepWait_not_fatal (h : s.phase ≠ .fatal) : (stepWait s).phase ≠ .fatal := by
  unfold stepWait
  split_ifs
  · exact h
  · cases s.wnext <;> simp [WaitNext.phase]

theorem stepSerLo_not_fatal (h : s.phase ≠ .fatal) : (stepSerLo p s).phase ≠ .fatal := by
  unfold stepSerLo
  split_ifs
  · exact h
  · simp

theorem returnFromRefresh_not_fatal : (returnFromRefresh p s).phase ≠ .fatal := by
  unfold returnFromRefresh
  split <;> simp

theorem stepSerHi_not_fatal (h : s.phase ≠ .fatal) : (stepSerHi p s).phase ≠ .fatal := by
  unfold stepSerHi
  split_ifs
  · exact h
  · simp
  · exact returnFromRefresh_not_fatal

/-- MAIN enters the fatal stop by `raiseFatal`, under one of the three conditions. -/
theorem mainStep_enters_fatal {u : State} (h : mainStep p inp s = .next u) (hs : s.phase ≠ .fatal)
    (hu : u.phase = .fatal) : ∃ cause, RaisesFatal p inp s cause ∧ u = s.raiseFatal cause := by
  unfold mainStep at h
  split at h
  case h_1 =>
    obtain ⟨f, b, -, hx⟩ := acceptCommand_of_climate inp
    rw [stepIdle, hx, andThen_next, Host.Outcome.next.injEq] at h
    rw [← h] at hu
    exact absurd hu (idleAdvance_not_fatal hs)
  case h_7 =>
    obtain ⟨f, -, hx⟩ := applyAction_of_climate s.btn
    rw [stepScanConfirm, hx, andThen_next, Host.Outcome.next.injEq] at h
    rw [← h] at hu
    split_ifs at hu <;> simp at hu
  case h_9 =>
    obtain ⟨f, -, hx⟩ := applyAction_of_climate s.btn
    rw [stepScanRepchk, hx] at h
    split_ifs at h <;> simp [← Host.Outcome.next.inj h] at hu
  all_goals obtain rfl := Host.Outcome.next.inj h
  case h_2 hp =>
    have err := adcErr_of_stepTempSample_fatal hp hu
    exact ⟨_, .adcFail hp err, stepTempSample_adcErr p s err⟩
  case h_3 hp =>
    have domain := domain_of_stepTempConvert_fatal hu
    exact ⟨_, .thermDomain hp domain, stepTempConvert_domain domain⟩
  case h_12 hp =>
    have err := segErr_of_stepSegTx_fatal hp hu
    exact ⟨_, .segWriteFail hp err, stepSegTx_segErr p s err⟩
  case h_4 | h_11 => simp [stepScanDrive, stepEncode] at hu
  case h_6 | h_8 | h_10 =>
    simp only [stepScanSample, stepScanHoldchk, stepScanRestore] at hu
    split_ifs at hu <;> simp at hu
  case h_5 => exact absurd hu (stepWait_not_fatal hs)
  case h_13 => exact absurd hu (stepSerLo_not_fatal hs)
  case h_14 => exact absurd hu (stepSerHi_not_fatal hs)
  case h_15 hp => exact absurd hp hs

/-- A tick that enters the fatal stop is `raiseFatal` with SYNC's step beside it. -/
theorem tick_enters_fatal {t : State} (h : tick p inp s = .next t) (hs : s.phase ≠ .fatal) (ht : t.phase = .fatal) :
    ∃ cause, RaisesFatal p inp s cause ∧ t = (s.raiseFatal cause).writeSync (syncStep p inp s.sync) := by
  obtain ⟨-, rfl⟩ | ⟨-, hf, -⟩ | ⟨-, -, u, hu, rfl⟩ := tick_cases h
  · simp [State.resetOf] at ht
  · exact absurd hf hs
  · obtain ⟨cause, raised, rfl⟩ := mainStep_enters_fatal hu hs ht
    exact ⟨cause, raised, rfl⟩

end

/-- Settles O53: the tick is `raiseFatal` beside SYNC's step, and the cause has its phase, its condition and its code. -/
theorem fatalEntryIsPrecise : Obligations.FatalEntryIsPrecise := by
  unfold Obligations.FatalEntryIsPrecise
  intro p inp s t hs h ht
  obtain ⟨cause, raised, rfl⟩ := tick_enters_fatal h hs ht
  refine ⟨rfl, ?_⟩
  cases raised with
  | adcFail hp err => exact .inl ⟨hp, err, rfl, rfl⟩
  | segWriteFail hp err => exact .inr (.inl ⟨hp, err, rfl, rfl⟩)
  | thermDomain hp domain => exact .inr (.inr ⟨hp, domain, rfl, rfl⟩)

/-! The stop and its exit (R204, R205) -/

theorem run_fatal (p : Params) {s : State} {ins : List Inputs} (hf : s.phase = .fatal) (hins : NoReset ins) :
    run p ins s = .next s := by
  induction ins with
  | nil => rfl
  | cons i rest ih => rw [run_cons, tick_fatal p hins.head hf, andThen_next, ih hins.tail]

/-- Settles O54: every tick without reset answers the same state; the outputs are those of a phase that is none of IDLE,
TEMP_SAMPLE, SEG_TX, SER_LO and SER_HI; and reset loads the reset table. -/
theorem fatalFreezesUntilReset : Obligations.FatalFreezesUntilReset := by
  unfold Obligations.FatalFreezesUntilReset
  refine ⟨fun p s ins hf hins => run_fatal p hf hins, fun p s d hf => ?_, fun p inp s _ hr => ?_⟩
  · have notShifting : ¬Shifting s.phase := by simp [hf]
    obtain ⟨clk, data⟩ := serial_idle_of_not_shifting p d notShifting
    have other {ph : Phase} (h : Phase.fatal ≠ ph) : (s.phase == ph) = false := hf ▸ beq_false_of_ne h
    exact ⟨beq_iff_eq.mpr hf, rfl, other (by decide), other (by decide), other (by decide), clk, data, rfl, rfl⟩
  · exact ⟨s.resetRegs p, tick_reset p s hr, rfl, rfl⟩

end Sys2Proof.Machine
end

