-- ==== Sys2Proof/Proofs/RoundTrip.lean ====
section
/-! The round trip of words and commands (R65, R68, R71): a word decodes to a command exactly when the command is well
formed, OP is its row and IMM12 its operand; and such a word is its encoding. -/

namespace Sys2Proof

theorem requireZero_ok_iff (imm : Imm12) (i j : Instr) : requireZero imm i = .ok j ↔ imm = 0 ∧ i = j := by
  unfold requireZero
  split
  next h => rw [Except.ok.injEq, and_iff_right h]
  next h => exact iff_of_false nofun fun ok => h ok.1

theorem requireLegal_ok_iff (i j : Instr) (r : Reject) : requireLegal i r = .ok j ↔ i.WellFormed ∧ i = j := by
  unfold requireLegal
  split
  next h => rw [Except.ok.injEq, and_iff_right h]
  next h => exact iff_of_false nofun fun ok => h ok.1

/-- The encoding of a command is the word of its row and its operand. -/
theorem encode_eq_wordOf (i : Instr) :
    encode i = wordOf (BitVec.ofNat 4 (Laws.WordFields.opOf i)) (Laws.WordFields.operandOf i) := by
  cases i <;> rfl

/-- The decoder selects the row of OP and makes the operand IMM12. -/
theorem fields_of_decodeFields_ok {op : OpCode} {imm : Imm12} {i : Instr} (h : decodeFields op imm = .ok i) :
    i.WellFormed ∧ op.toNat = Laws.WordFields.opOf i ∧ imm = Laws.WordFields.operandOf i := by
  unfold decodeFields at h
  split at h
  case h_1 hop | h_2 hop | h_3 hop | h_4 hop | h_10 hop =>
    obtain ⟨zero, rfl⟩ := (requireZero_ok_iff _ _ _).mp h
    exact ⟨rfl, hop, zero⟩
  case h_5 hop | h_8 hop | h_9 hop =>
    obtain ⟨legal, rfl⟩ := (requireLegal_ok_iff _ _ _).mp h
    exact ⟨legal, hop, rfl⟩
  case h_6 hop | h_7 hop =>
    obtain rfl := Except.ok.inj h
    exact ⟨rfl, hop, rfl⟩
  case h_11 => cases h

/-- Every legal word is the encoding of the command it decodes to. -/
theorem encode_of_decode {w : Word} {i : Instr} (h : decode w = .ok i) : i.WellFormed ∧ encode i = w := by
  obtain ⟨legal, row, operand⟩ := fields_of_decodeFields_ok h
  have op : BitVec.ofNat 4 (Laws.WordFields.opOf i) = opField w := by rw [← row, BitVec.ofNat_toNat, BitVec.setWidth_eq]
  exact ⟨legal, by rw [encode_eq_wordOf, op, ← operand, wordOf_fields]⟩

theorem wellFormed_of_decode {w : Word} {i : Instr} (h : decode w = .ok i) : i.WellFormed :=
  (encode_of_decode h).1

/-- Every well-formed command survives the round trip, with every operand. -/
theorem decode_encode {i : Instr} (h : i.WellFormed) : decode (encode i) = .ok i := by
  cases i with
  | nop | cycmode | tglac | tglrec | tglunit => rfl
  | adjset | setset => exact decode_wordOf _ _
  | setfan | setamb | setunit => exact (decode_wordOf _ _).trans ((requireLegal_ok_iff _ _ _).mpr ⟨h, rfl⟩)

theorem decode_ok_iff (w : Word) (i : Instr) : decode w = .ok i ↔ i.WellFormed ∧ encode i = w := by
  refine ⟨encode_of_decode, ?_⟩
  rintro ⟨legal, rfl⟩
  exact decode_encode legal

/-- Settles O2: decoding reads the two fields that encoding writes, and checks the operand. -/
theorem decodeAndEncodeAgree : Obligations.DecodeAndEncodeAgree := by
  unfold Obligations.DecodeAndEncodeAgree
  exact decode_ok_iff

/-- Settles O1: each of the ten words is written out from its row, so decoding evaluates to the row's command. -/
theorem tableWordsDecode : Obligations.TableWordsDecode := by
  unfold Obligations.TableWordsDecode
  decide

end Sys2Proof
end

