-- ==== Sys2Proof/Proofs/MainMoves.lean ====
section
/-! What MAIN can do in one tick, said once: one move per branch of a phase rule, with the condition of the branch. From it
the complete successor table of PHASE (R191) and the writers of the sequencing registers (R28 to R37). -/

namespace Sys2Proof.Machine

/-- The moves of MAIN outside FATAL. What a command or an action makes of the ClimateState registers is `ClimateWrite`'s to
say; here it is any value `c`. -/
inductive MainMove (p : Params) (inp : Inputs) (s : State) : State → Prop where
  -- IDLE (R181, R182)
  | idleCount (c : ClimateState) (b : Bool) (hp : s.phase = .idle) (word : b ≠ s.cmdStatus → inp.cmdValid = true)
      (more : 1 < s.timer) : MainMove p inp s ({ s with climate := c, cmdStatus := b }.loadTimer (s.timer - 1))
  | idleStage (c : ClimateState) (b : Bool) (hp : s.phase = .idle) (word : b ≠ s.cmdStatus → inp.cmdValid = true)
      (ended : ¬1 < s.timer) (stage : p.tempStageEn = true) :
      MainMove p inp s (({ s with climate := c, cmdStatus := b }.writeSum 0 0).goto .tempSample)
  | idleScan (c : ClimateState) (b : Bool) (hp : s.phase = .idle) (word : b ≠ s.cmdStatus → inp.cmdValid = true)
      (ended : ¬1 < s.timer) (noStage : p.tempStageEn = false) :
      MainMove p inp s (({ s with climate := c, cmdStatus := b }.writeBtn 0).goto .scanDrive)
  -- the temperature stage (R141, R143)
  | adcErr (hp : s.phase = .tempSample) (err : inp.adcErr = true) : MainMove p inp s (s.raiseFatal .adcFail)
  | reading (hp : s.phase = .tempSample) (noErr : inp.adcErr = false) (valid : inp.adcValid = true)
      (more : s.cnt.toNat + 1 ≠ 128) : MainMove p inp s (s.writeSum (s.cnt + 1) (s.acc + adcReading p inp))
  | lastReading (hp : s.phase = .tempSample) (noErr : inp.adcErr = false) (valid : inp.adcValid = true)
      (last : s.cnt.toNat + 1 = 128) :
      MainMove p inp s ((s.writeSum (s.cnt + 1) (s.acc + adcReading p inp)).goto .tempConvert)
  | adcWait (hp : s.phase = .tempSample) (noErr : inp.adcErr = false) (notValid : inp.adcValid = false) :
      MainMove p inp s s
  | domain (hp : s.phase = .tempConvert) (noValue : p.thermFn (average s.acc) = none) :
      MainMove p inp s (s.raiseFatal .thermDomain)
  | converted (v : BitVec 8) (hp : s.phase = .tempConvert) (value : p.thermFn (average s.acc) = some v) :
      MainMove p inp s (((s.writeAmbient v).writeBtn 0).goto .scanDrive)
  -- the scan: drive (R102), wait (R101), samples (R104 to R108), restore (R110)
  | drive (hp : s.phase = .scanDrive) :
      MainMove p inp s ((s.driveLine (driveOf p s.btn)).startWait p.nSettle .scanSample)
  | waitCount (hp : s.phase = .wait) (more : 1 < s.timer) : MainMove p inp s (s.loadTimer (s.timer - 1))
  | waitEnd (hp : s.phase = .wait) (ended : ¬1 < s.timer) : MainMove p inp s (s.goto s.wnext.phase)
  | samplePressed (hp : s.phase = .scanSample) (low : inp.lineIn.getLsbD (senseOf p s.btn).val = false) :
      MainMove p inp s (s.startWait p.nDebounce .scanConfirm)
  | sampleReleased (hp : s.phase = .scanSample) (high : inp.lineIn.getLsbD (senseOf p s.btn).val = true) :
      MainMove p inp s (s.goto .scanRestore)
  | confirmPressed (c : ClimateState) (hp : s.phase = .scanConfirm)
      (low : inp.lineIn.getLsbD (senseOf p s.btn).val = false) :
      MainMove p inp s ({ s with climate := c }.startWait p.nHold .scanHoldchk)
  | confirmReleased (c : ClimateState) (hp : s.phase = .scanConfirm)
      (high : inp.lineIn.getLsbD (senseOf p s.btn).val = true) :
      MainMove p inp s ({ s with climate := c }.goto .scanRestore)
  | holdPressed (hp : s.phase = .scanHoldchk) (low : inp.lineIn.getLsbD (senseOf p s.btn).val = false) :
      MainMove p inp s (s.startWait p.nRepeat .scanRepchk)
  | holdReleased (hp : s.phase = .scanHoldchk) (high : inp.lineIn.getLsbD (senseOf p s.btn).val = true) :
      MainMove p inp s (s.goto .scanRestore)
  | repeatPressed (c : ClimateState) (hp : s.phase = .scanRepchk)
      (low : inp.lineIn.getLsbD (senseOf p s.btn).val = false) :
      MainMove p inp s (({ s with climate := c }.writeRet .rep).goto .encode)
  | repeatReleased (hp : s.phase = .scanRepchk) (high : inp.lineIn.getLsbD (senseOf p s.btn).val = true) :
      MainMove p inp s (s.goto .scanRestore)
  | restoreNext (hp : s.phase = .scanRestore) (more : s.btn.toNat < 7) :
      MainMove p inp s (((s.releaseLine (driveOf p s.btn)).writeBtn (s.btn + 1)).goto .scanDrive)
  | restoreLast (hp : s.phase = .scanRestore) (last : ¬s.btn.toNat < 7) :
      MainMove p inp s (((s.releaseLine (driveOf p s.btn)).writeRet .idle).goto .encode)
  -- the display refresh (R133, R163, R166, R167, R184)
  | encode (hp : s.phase = .encode) :
      MainMove p inp s ((s.latchFrame (segWordOf p s.climate) (serWordOf p s.climate)).goto .segTx)
  | segErr (hp : s.phase = .segTx) (err : inp.segErr = true) : MainMove p inp s (s.raiseFatal .segWriteFail)
  | segDone (hp : s.phase = .segTx) (noErr : inp.segErr = false) (done : inp.segDone = true) :
      MainMove p inp s (((s.writeBitk (p.serWidth - 1)).loadTimer p.nClkLow).goto .serLo)
  | segWait (hp : s.phase = .segTx) (noErr : inp.segErr = false) (notDone : inp.segDone = false) : MainMove p inp s s
  | serLoCount (hp : s.phase = .serLo) (more : 1 < s.timer) : MainMove p inp s (s.loadTimer (s.timer - 1))
  | serLoEnd (hp : s.phase = .serLo) (ended : ¬1 < s.timer) : MainMove p inp s ((s.loadTimer p.nClkHigh).goto .serHi)
  | serHiCount (hp : s.phase = .serHi) (more : 1 < s.timer) : MainMove p inp s (s.loadTimer (s.timer - 1))
  | serHiNext (hp : s.phase = .serHi) (ended : ¬1 < s.timer) (bits : 0 < s.bitk) :
      MainMove p inp s (((s.writeBitk (s.bitk - 1)).loadTimer p.nClkLow).goto .serLo)
  | refreshToIdle (hp : s.phase = .serHi) (ended : ¬1 < s.timer) (lastBit : s.bitk = 0) (ret : s.ret = .idle) :
      MainMove p inp s ((s.loadTimer p.nGap).goto .idle)
  | refreshToRepeat (hp : s.phase = .serHi) (ended : ¬1 < s.timer) (lastBit : s.bitk = 0) (ret : s.ret = .rep) :
      MainMove p inp s (s.startWait p.nRepeat .scanRepchk)

/-! The rules that choose a move, one lemma each -/

section

variable {p : Params} {inp : Inputs} {s : State}

theorem low_of_pressed (h : pressed p inp s = true) : inp.lineIn.getLsbD (senseOf p s.btn).val = false := by
  simpa [pressed, readsLow] using h

theorem high_of_not_pressed (h : ¬pressed p inp s = true) : inp.lineIn.getLsbD (senseOf p s.btn).val = true := by
  simpa [pressed, readsLow] using h

/-- Without a word offered the host port writes no register. -/
theorem acceptCommand_quiet (s : State) (h : inp.cmdValid = false) : acceptCommand inp s = .next s := by
  rw [acceptCommand, h, if_neg Bool.false_ne_true]

theorem stepIdle_move {u : State} (hp : s.phase = .idle) (h : stepIdle p inp s = .next u) : MainMove p inp s u := by
  obtain ⟨f, b, -, hx⟩ := acceptCommand_of_climate inp
  have word : b s.cmdStatus ≠ s.cmdStatus → inp.cmdValid = true := by
    contrapose!
    intro notValid
    have same := (hx s).symm.trans (acceptCommand_quiet s (Bool.eq_false_of_not_eq_true notValid))
    exact congrArg State.cmdStatus (Host.Outcome.next.inj same)
  rw [stepIdle, hx, andThen_next, Host.Outcome.next.injEq] at h
  subst h
  unfold idleAdvance
  split_ifs with more stage
  · exact .idleCount _ _ hp word more
  · exact .idleStage _ _ hp word more stage
  · exact .idleScan _ _ hp word more (Bool.not_eq_true _ ▸ stage)

theorem stepTempSample_move (hp : s.phase = .tempSample) : MainMove p inp s (stepTempSample p inp s) := by
  unfold stepTempSample
  split_ifs with err valid
  · exact .adcErr hp err
  · rw [acceptReading]
    split_ifs with last
    · exact .lastReading hp (Bool.not_eq_true _ ▸ err) valid last
    · exact .reading hp (Bool.not_eq_true _ ▸ err) valid last
  · exact .adcWait hp (Bool.not_eq_true _ ▸ err) (Bool.not_eq_true _ ▸ valid)

theorem stepTempConvert_move (hp : s.phase = .tempConvert) : MainMove p inp s (stepTempConvert p s) := by
  unfold stepTempConvert
  split
  next noValue => exact .domain hp noValue
  next v value => exact .converted v hp value

theorem stepWait_move (hp : s.phase = .wait) : MainMove p inp s (stepWait s) := by
  unfold stepWait
  split_ifs with more
  · exact .waitCount hp more
  · exact .waitEnd hp more

theorem stepScanSample_move (hp : s.phase = .scanSample) : MainMove p inp s (stepScanSample p inp s) := by
  unfold stepScanSample
  split_ifs with low
  · exact .samplePressed hp (low_of_pressed low)
  · exact .sampleReleased hp (high_of_not_pressed low)

theorem stepScanConfirm_move {u : State} (hp : s.phase = .scanConfirm) (h : stepScanConfirm p inp s = .next u) :
    MainMove p inp s u := by
  obtain ⟨f, -, hx⟩ := applyAction_of_climate s.btn
  rw [stepScanConfirm, hx, andThen_next, Host.Outcome.next.injEq] at h
  subst h
  split_ifs with low
  · exact .confirmPressed _ hp (low_of_pressed low)
  · exact .confirmReleased _ hp (high_of_not_pressed low)

theorem stepScanHoldchk_move (hp : s.phase = .scanHoldchk) : MainMove p inp s (stepScanHoldchk p inp s) := by
  unfold stepScanHoldchk
  split_ifs with low
  · exact .holdPressed hp (low_of_pressed low)
  · exact .holdReleased hp (high_of_not_pressed low)

theorem stepScanRepchk_move {u : State} (hp : s.phase = .scanRepchk) (h : stepScanRepchk p inp s = .next u) :
    MainMove p inp s u := by
  obtain ⟨f, -, hx⟩ := applyAction_of_climate s.btn
  rw [stepScanRepchk, hx] at h
  split_ifs at h with low <;> obtain rfl := Host.Outcome.next.inj h
  · exact .repeatPressed _ hp (low_of_pressed low)
  · exact .repeatReleased hp (high_of_not_pressed low)

theorem stepScanRestore_move (hp : s.phase = .scanRestore) : MainMove p inp s (stepScanRestore p s) := by
  rw [stepScanRestore]
  split_ifs with more
  · exact .restoreNext hp more
  · exact .restoreLast hp more

theorem stepSegTx_move (hp : s.phase = .segTx) : MainMove p inp s (stepSegTx p inp s) := by
  unfold stepSegTx
  split_ifs with err done
  · exact .segErr hp err
  · exact .segDone hp (Bool.not_eq_true _ ▸ err) done
  · exact .segWait hp (Bool.not_eq_true _ ▸ err) (Bool.not_eq_true _ ▸ done)

theorem stepSerLo_move (hp : s.phase = .serLo) : MainMove p inp s (stepSerLo p s) := by
  unfold stepSerLo
  split_ifs with more
  · exact .serLoCount hp more
  · exact .serLoEnd hp more

theorem stepSerHi_move (hp : s.phase = .serHi) : MainMove p inp s (stepSerHi p s) := by
  unfold stepSerHi
  split_ifs with more bits
  · exact .serHiCount hp more
  · exact .serHiNext hp more bits
  · have lastBit : s.bitk = 0 := Nat.eq_zero_of_not_pos bits
    unfold returnFromRefresh
    split
    next ret => exact .refreshToIdle hp more lastBit ret
    next ret => exact .refreshToRepeat hp more lastBit ret

/-- The one inversion of MAIN's step. -/
theorem mainStep_move {u : State} (h : mainStep p inp s = .next u) (running : s.phase ≠ .fatal) :
    MainMove p inp s u := by
  unfold mainStep at h
  split at h
  case h_1 hp => exact stepIdle_move hp h
  case h_7 hp => exact stepScanConfirm_move hp h
  case h_9 hp => exact stepScanRepchk_move hp h
  all_goals obtain rfl := Host.Outcome.next.inj h
  case h_2 hp => exact stepTempSample_move hp
  case h_3 hp => exact stepTempConvert_move hp
  case h_4 hp => exact .drive hp
  case h_5 hp => exact stepWait_move hp
  case h_6 hp => exact stepScanSample_move hp
  case h_8 hp => exact stepScanHoldchk_move hp
  case h_10 hp => exact stepScanRestore_move hp
  case h_11 hp => exact .encode hp
  case h_12 hp => exact stepSegTx_move hp
  case h_13 hp => exact stepSerLo_move hp
  case h_14 hp => exact stepSerHi_move hp
  case h_15 hp => exact absurd hp running

/-- A tick without reset: FATAL stays as it is, and outside it MAIN makes a move with SYNC's step beside it. -/
theorem tick_move {t : State} (hr : inp.rst = false) (h : tick p inp s = .next t) :
    (s.phase = .fatal ∧ t = s) ∨ ∃ u, MainMove p inp s u ∧ t = u.writeSync (syncStep p inp s.sync) := by
  obtain ⟨rst, -⟩ | ⟨-, hf, rfl⟩ | ⟨-, running, u, hu, rfl⟩ := tick_cases h
  · exact absurd (hr.symm.trans rst) Bool.false_ne_true
  · exact .inl ⟨hf, rfl⟩
  · exact .inr ⟨u, mainStep_move hu running, rfl⟩

end

end Sys2Proof.Machine
end

