-- ==== Sys2Proof/Proofs/PhaseTable.lean ====
section
/-! The successor table of PHASE (R191) and the writers of the sequencing registers (R28 to R37), read off the moves of
MAIN. -/

namespace Sys2Proof.Machine

/-- Settles O52: each move of MAIN is a row of R191 with its condition, and SYNC writes no register of MAIN. -/
theorem phaseSuccessorTable : Obligations.PhaseSuccessorTable := by
  unfold Obligations.PhaseSuccessorTable
  intro p inp s t hr h
  obtain ⟨hf, rfl⟩ | ⟨u, move, rfl⟩ := tick_move hr h
  · simp [hf]
  · cases move with
    | idleCount _ _ hp _ more | waitCount hp more | serLoCount hp more | serHiCount hp more => simp [hp, more]
    | idleStage _ _ hp _ ended stage | idleScan _ _ hp _ ended stage => simp [hp, ended, stage]
    | adcErr hp err | segErr hp err => simp [hp, err]
    | reading hp noErr valid count | lastReading hp noErr valid count => simp [hp, noErr, valid, count]
    | adcWait hp noErr notValid => simp [hp, noErr, notValid]
    | domain hp value | converted _ hp value => simp [hp, value]
    | drive hp | encode hp => simp [hp]
    | waitEnd hp ended | serLoEnd hp ended => simp [hp, ended]
    | samplePressed hp low | confirmPressed _ hp low | holdPressed hp low | repeatPressed _ hp low => simpa [hp] using low
    | sampleReleased hp high | confirmReleased _ hp high | holdReleased hp high | repeatReleased hp high =>
      simpa [hp] using high
    | restoreNext hp button | restoreLast hp button => simp [hp, button]
    | segDone hp noErr answer | segWait hp noErr answer => simp [hp, noErr, answer]
    | serHiNext hp ended bits => simp [hp, ended, bits]
    | refreshToIdle hp ended lastBit ret | refreshToRepeat hp ended lastBit ret => simp [hp, ended, lastBit, ret]

/-- Settles O18: a move of MAIN writes a register only where its phase's rule does. -/
theorem sequencingRegisterWriters : Obligations.SequencingRegisterWriters := by
  unfold Obligations.SequencingRegisterWriters
  intro p inp s t hr h
  obtain ⟨-, rfl⟩ | ⟨u, move, rfl⟩ := tick_move hr h
  · simp
  · cases move with
    | idleCount _ _ hp word more =>
      have counted : s.timer - 1 + 1 = s.timer := Nat.sub_add_cancel more.le
      simpa [hp, counted] using word
    | idleStage _ _ hp word | idleScan _ _ hp word => simpa [hp] using word
    | waitCount hp more =>
      have counted : s.timer - 1 + 1 = s.timer := Nat.sub_add_cancel more.le
      simp [hp, counted]
    | waitEnd hp | adcErr hp | reading hp | lastReading hp | adcWait hp | domain hp | converted _ hp | encode hp
      | restoreNext hp | restoreLast hp | segErr hp | segDone hp | segWait hp | serLoCount hp | serLoEnd hp
      | serHiCount hp | serHiNext hp | refreshToIdle hp => simp [hp]
    | drive hp | samplePressed hp | confirmPressed _ hp | holdPressed hp | sampleReleased hp | confirmReleased _ hp
      | holdReleased hp | repeatPressed _ hp | repeatReleased hp => simp [hp, scanStartsWait]
    | refreshToRepeat hp ended lastBit ret => simp [hp, Nat.not_lt.mp ended, lastBit, ret]

end Sys2Proof.Machine
end

