-- ==== Sys2Proof/Proofs/CommandWriters.lean ====
section
/-! The frame of the ten commands (R98), the command of each button (R76, R111), and who writes each ClimateState register
(R20 to R27). -/

namespace Sys2Proof.Machine

/-! The frame of a command (R98) -/

/-- Settles O14: a legal command applies `climateAfter`, which has one equation per command, and any other writes CMD_STATUS
alone. -/
theorem commandFamilyFrame : Obligations.CommandFamilyFrame := by
  unfold Obligations.CommandFamilyFrame
  intro i s t h
  by_cases legal : i.WellFormed
  · rw [exec_of_wellFormed legal, Host.Outcome.next.injEq] at h
    subst h
    exact ⟨rfl, by cases i <;> rfl⟩
  · rw [exec_of_not_wellFormed legal, Host.Outcome.next.injEq] at h
    subst h
    exact ⟨rfl, by cases i <;> rfl⟩

/-! The command of a button (R76) -/

/-- The command that ACTION(b) is the word of. -/
def Button.command : Button → Instr
  | .auto => .tglac
  | .demist => .cycmode
  | .tempUp => .adjset 1
  | .off => .setfan 0
  | .fanLow => .setfan 50
  | .fanHigh => .setfan 100
  | .recirc => .tglrec
  | .tempDown => .adjset (-1)

theorem Button.decode_action (b : Button) : decode b.action = .ok b.command := by
  cases b <;> rfl

theorem Button.command_wellFormed (b : Button) : b.command.WellFormed :=
  wellFormed_of_decode b.decode_action

@[simp] theorem buttonOf_code (b : Button) : buttonOf b.code = b := by
  cases b <;> rfl

theorem perform_of_decode_ok {w : Word} {i : Instr} (src : Source) (s : State) (h : decode w = .ok i) :
    perform src w s = performLegal src i s := by
  rw [perform, h]

/-- Settles O15: the action word decodes to the button's command, which is legal, and the two sources differ in the
CMD_STATUS write. -/
theorem buttonActionIsTheHostCommand : Obligations.ButtonActionIsTheHostCommand := by
  unfold Obligations.ButtonActionIsTheHostCommand
  intro b s
  have done := exec_of_wellFormed b.command_wellFormed s
  refine ⟨b.command, _, b.decode_action, ?_, done, rfl, ?_, buttonOf_code b⟩
  · exact (perform_of_decode_ok .host s b.decode_action).trans done
  · rw [perform_of_decode_ok .button s b.decode_action, performLegal, keepStatus, done]
    rfl

/-! The command that writes each register -/

section

variable {i : Instr} {c : ClimateState}

theorem eq_cycmode_of_mode_ne (h : (climateAfter i c).mode ≠ c.mode) : i = .cycmode := by
  cases i with
  | cycmode => rfl
  | _ => exact absurd rfl h

theorem eq_tglac_of_acOn_ne (h : (climateAfter i c).acOn ≠ c.acOn) : i = .tglac := by
  cases i with
  | tglac => rfl
  | _ => exact absurd rfl h

theorem eq_tglrec_of_recircOn_ne (h : (climateAfter i c).recircOn ≠ c.recircOn) : i = .tglrec := by
  cases i with
  | tglrec => rfl
  | _ => exact absurd rfl h

theorem eq_setfan_of_fanLevel_ne (h : (climateAfter i c).fanLevel ≠ c.fanLevel) : ∃ v, i = .setfan v := by
  cases i with
  | setfan v => exact ⟨v, rfl⟩
  | _ => exact absurd rfl h

theorem eq_setamb_of_ambientTemp_ne (h : (climateAfter i c).ambientTemp ≠ c.ambientTemp) : ∃ v, i = .setamb v := by
  cases i with
  | setamb v => exact ⟨v, rfl⟩
  | _ => exact absurd rfl h

theorem unit_command_of_displayUnit_ne (h : (climateAfter i c).displayUnit ≠ c.displayUnit) :
    i = .tglunit ∨ ∃ v, i = .setunit v := by
  cases i with
  | tglunit => exact .inl rfl
  | setunit v => exact .inr ⟨v, rfl⟩
  | _ => exact absurd rfl h

end

/-! Who issues it -/

/-- The host issues this command in IDLE, or the scanned button does in SCAN_CONFIRM or SCAN_REPCHK. -/
def Issues (inp : Inputs) (s : State) (i : Instr) : Prop :=
  (s.phase = .idle ∧ inp.cmdValid = true ∧ decode inp.cmdWord = .ok i) ∨
    ((s.phase = .scanConfirm ∨ s.phase = .scanRepchk) ∧ decode (buttonOf s.btn).action = .ok i)

theorem IssuesWord.issues {inp : Inputs} {s : State} {w : Word} {i : Instr} (h : IssuesWord inp s w)
    (hd : decode w = .ok i) : Issues inp s i := by
  obtain ⟨hp, valid, rfl⟩ | ⟨hp, rfl⟩ := h
  · exact .inl ⟨hp, valid, hd⟩
  · exact .inr ⟨hp, hd⟩

/-- A command no button issues comes from the host. -/
theorem Issues.host {inp : Inputs} {s : State} {i : Instr} (h : Issues inp s i)
    (noButton : ∀ b : Button, b.command ≠ i) :
    s.phase = .idle ∧ inp.cmdValid = true ∧ decode inp.cmdWord = .ok i := by
  obtain host | ⟨-, hd⟩ := h
  · exact host
  · rw [Button.decode_action, Except.ok.injEq] at hd
    exact absurd hd (noButton _)

theorem Button.command_ne_setamb (v : Imm12) (b : Button) : b.command ≠ .setamb v := by
  cases b <;> nofun

theorem Button.command_ne_tglunit (b : Button) : b.command ≠ .tglunit := by
  cases b <;> nofun

theorem Button.command_ne_setunit (v : Imm12) (b : Button) : b.command ≠ .setunit v := by
  cases b <;> nofun

/-- Settles O17: the one write a tick can make is none, that of an issued command, or AMBIENT_TEMP's in TEMP_CONVERT. -/
theorem climateRegisterWriters : Obligations.ClimateRegisterWriters := by
  unfold Obligations.ClimateRegisterWriters
  intro p inp s t hr h
  obtain ⟨rst, -⟩ | ⟨-, write⟩ := tick_climateWrite h
  · exact absurd (hr.symm.trans rst) Bool.false_ne_true
  generalize t.climate = c at write ⊢
  cases write with
  | kept => simp
  | converted a hp => simp [hp]
  | @command w i hw hd =>
    have issued : Issues inp s i := hw.issues hd
    refine ⟨fun changed => ?_, fun changed => ?_, fun changed => ?_, fun changed => ?_, fun changed => ?_,
      fun changed => ?_, fun changed => ?_⟩
    · exact eq_cycmode_of_mode_ne changed ▸ issued
    · exact eq_tglac_of_acOn_ne changed ▸ issued
    · exact eq_tglrec_of_recircOn_ne changed ▸ issued
    · obtain ⟨v, rfl⟩ := eq_setfan_of_fanLevel_ne changed
      exact ⟨v, issued⟩
    · obtain ⟨v, -, rfl | rfl, -⟩ := (climateAfter_setTemp i s.climate).resolve_left changed
      · exact ⟨v, .inl issued⟩
      · exact ⟨v, .inr issued⟩
    · obtain ⟨v, rfl⟩ := eq_setamb_of_ambientTemp_ne changed
      exact .inr ⟨v, issued.host (Button.command_ne_setamb v)⟩
    · obtain rfl | ⟨v, rfl⟩ := unit_command_of_displayUnit_ne changed
      · obtain ⟨hp, valid, word⟩ := issued.host Button.command_ne_tglunit
        exact ⟨hp, valid, .inl word⟩
      · obtain ⟨hp, valid, word⟩ := issued.host (Button.command_ne_setunit v)
        exact ⟨hp, valid, .inr ⟨v, word⟩⟩

end Sys2Proof.Machine
end

