-- ==== Sys2Proof/Proofs/BlockInvariant.lean ====
section
/-! The block invariant (R45 with the register bounds of R29, R31, R34, R35 and R38): it holds after reset, and each of its four
parts is kept by a tick of a legal parameter set. -/

namespace Sys2Proof.Machine

/-! The ClimateState registers -/

theorem climateAfter_legal {i : Instr} (wf : i.WellFormed) {c : ClimateState} (h : ClimateLegal c) :
    ClimateLegal (climateAfter i c) := by
  obtain ⟨f, b, keeps, hx⟩ := exec_of_climate i
  have same := (hx { State.reset with climate := c }).symm.trans (exec_of_wellFormed wf _)
  have climate : f c = climateAfter i c := congrArg State.climate (Host.Outcome.next.inj same)
  exact climate ▸ keeps c h

theorem climateLegal_reset : ClimateLegal ClimateState.reset := by
  unfold ClimateLegal
  decide

theorem ClimateWrite.legal {inp : Inputs} {s : State} {c : ClimateState} (h : ClimateWrite inp s c)
    (hs : ClimateLegal s.climate) : ClimateLegal c := by
  cases h with
  | kept => exact hs
  | converted => exact hs
  | command _ hd => exact climateAfter_legal (wellFormed_of_decode hd) hs

theorem tick_climateLegal {p : Params} {inp : Inputs} {s t : State} (h : tick p inp s = .next t)
    (hs : ClimateLegal s.climate) : ClimateLegal t.climate := by
  obtain ⟨-, reset⟩ | ⟨-, write⟩ := tick_climateWrite h
  · exact reset ▸ climateLegal_reset
  · exact write.legal hs

/-! The lines (R109, R115) -/

theorem releaseLine_driven (i : Fin 6) : lineBit i &&& ~~~lineBit i = 0 := BitVec.and_not_self _

theorem lineHeld_waitNext (s : State) : lineHeld (s.goto s.wnext.phase) = true := by
  cases h : s.wnext <;> rfl

/-- SCAN_DRIVE and SCAN_RESTORE are the ends of the time in which the line of BTN is held; BTN changes outside it, and no
refresh or fatal stop changes what RET says of it. -/
theorem MainMove.linesOk {p : Params} {inp : Inputs} {s u : State} (move : MainMove p inp s u) (h : LinesOk p s) :
    LinesOk p u := by
  unfold LinesOk at h ⊢
  cases move with
  | drive hp =>
    have released : s.lineMode = 0 := by simpa [lineHeld, hp] using h
    simp [State.driveLine, lineHeld, released]
  | waitEnd hp =>
    rw [lineHeld_waitNext]
    simpa [lineHeld, hp] using h
  | restoreNext hp | restoreLast hp =>
    have held : s.lineMode = lineBit (driveOf p s.btn) := by simpa [lineHeld, hp] using h
    simp [State.releaseLine, lineHeld, held]
  | refreshToIdle hp _ _ ret | refreshToRepeat hp _ _ ret => simpa [lineHeld, hp, ret] using h
  | idleCount _ _ hp | idleStage _ _ hp | idleScan _ _ hp | adcErr hp | reading hp | lastReading hp | adcWait hp
    | domain hp | converted _ hp | waitCount hp | samplePressed hp | sampleReleased hp | confirmPressed _ hp
    | confirmReleased _ hp | holdPressed hp | holdReleased hp | repeatPressed _ hp | repeatReleased hp | encode hp
    | segErr hp | segDone hp | segWait hp | serLoCount hp | serLoEnd hp | serHiCount hp | serHiNext hp =>
    simpa [lineHeld, hp] using h

/-! FAULT_CAUSE (R37) -/

theorem waitNext_phase_ne_fatal (w : WaitNext) : w.phase ≠ .fatal := by
  cases w <;> nofun

/-- Outside FATAL the cause is 0, and a move that sets one enters FATAL. -/
theorem MainMove.faultOk {p : Params} {inp : Inputs} {s u : State} (move : MainMove p inp s u) (h : FaultOk s) :
    FaultOk u := by
  unfold FaultOk at h ⊢
  cases move with
  | adcErr | domain | segErr => simp
  | waitEnd hp => simpa [hp, waitNext_phase_ne_fatal] using h
  | idleCount _ _ hp | idleStage _ _ hp | idleScan _ _ hp | reading hp | lastReading hp | adcWait hp | converted _ hp
    | drive hp | waitCount hp | samplePressed hp | sampleReleased hp | confirmPressed _ hp | confirmReleased _ hp
    | holdPressed hp | holdReleased hp | repeatPressed _ hp | repeatReleased hp | restoreNext hp | restoreLast hp
    | encode hp | segDone hp | segWait hp | serLoCount hp | serLoEnd hp | serHiCount hp | serHiNext hp
    | refreshToIdle hp | refreshToRepeat hp => simpa [hp] using h

/-! The counters -/

theorem timer_loads_le (p : Params) :
    p.nGap ≤ maxTimer p ∧ p.nSettle ≤ maxTimer p ∧ p.nDebounce ≤ maxTimer p ∧ p.nHold ≤ maxTimer p ∧
      p.nRepeat ≤ maxTimer p ∧ p.nClkLow ≤ maxTimer p ∧ p.nClkHigh ≤ maxTimer p := by
  simp [maxTimer]

theorem waitNext_phase_untimed (w : WaitNext) : timed w.phase = false ∧ w.phase ≠ .tempSample := by
  cases w <;> exact ⟨rfl, nofun⟩

theorem serWordOf_lt (p : Params) (c : ClimateState) : serWordOf p c < 2 ^ p.serWidth :=
  Nat.mod_lt _ (Nat.two_pow_pos _)

section

variable {p : Params} {inp : Inputs} {s : State}

theorem adcReading_le (p : Params) (inp : Inputs) : adcReading p inp ≤ 2 ^ p.adcBits - 1 :=
  Nat.le_sub_one_of_lt (Nat.mod_lt _ (Nat.two_pow_pos _))

/-- One reading more: the count, and the largest sum of that many readings (R34). -/
theorem acceptReading_bounds (h : CountersOk p s) (hp : s.phase = .tempSample) :
    (s.cnt + 1).toNat = s.cnt.toNat + 1 ∧
      s.acc + adcReading p inp ≤ (s.cnt.toNat + 1) * (2 ^ p.adcBits - 1) := by
  have count := h.cnt_lt hp
  refine ⟨?_, ?_⟩
  · bv_omega
  · rw [Nat.succ_mul]
    exact Nat.add_le_add h.acc_le (adcReading_le p inp)

/-- Every timer is loaded with a value of R7, a sum starts at 0 and counts one reading at a time, and the bit counter goes down
from SER_WIDTH - 1. -/
theorem MainMove.countersOk {u : State} (move : MainMove p inp s u) (legal : p.Legal) (h : CountersOk p s) :
    CountersOk p u := by
  obtain ⟨⟨-, settle, debounce, hold, rep, clkLow, clkHigh, gap, -⟩, -, -, serLegal, -⟩ := legal
  obtain ⟨gapLe, settleLe, debounceLe, holdLe, repLe, clkLowLe, clkHighLe⟩ := timer_loads_le p
  have width := serWidth_pos serLegal
  cases move with
  | adcWait | segWait => exact h
  | idleCount _ _ hp _ more | waitCount hp more | serLoCount hp more | serHiCount hp more =>
    exact { h with
      timer_le := (Nat.sub_le _ _).trans h.timer_le
      timer_pos := fun _ => Nat.le_sub_one_of_lt more
      cnt_lt := fun stage => nomatch hp.symm.trans stage }
  | waitEnd =>
    obtain ⟨untimed, notStage⟩ := waitNext_phase_untimed s.wnext
    exact { h with
      timer_pos := fun timing => nomatch untimed.symm.trans timing
      cnt_lt := fun stage => absurd stage notStage }
  | idleScan | adcErr | domain | converted | sampleReleased | confirmReleased | holdReleased | repeatPressed
    | repeatReleased | restoreNext | restoreLast | segErr => exact { h with timer_pos := nofun, cnt_lt := nofun }
  | drive => exact { h with timer_le := settleLe, timer_pos := fun _ => settle, cnt_lt := nofun }
  | samplePressed => exact { h with timer_le := debounceLe, timer_pos := fun _ => debounce, cnt_lt := nofun }
  | confirmPressed => exact { h with timer_le := holdLe, timer_pos := fun _ => hold, cnt_lt := nofun }
  | holdPressed | refreshToRepeat => exact { h with timer_le := repLe, timer_pos := fun _ => rep, cnt_lt := nofun }
  | refreshToIdle => exact { h with timer_le := gapLe, timer_pos := fun _ => gap, cnt_lt := nofun }
  | serLoEnd => exact { h with timer_le := clkHighLe, timer_pos := fun _ => clkHigh, cnt_lt := nofun }
  | segDone =>
    exact { h with
      timer_le := clkLowLe
      timer_pos := fun _ => clkLow
      cnt_lt := nofun
      bitk_lt := Nat.sub_one_lt_of_lt width }
  | serHiNext =>
    exact { h with
      timer_le := clkLowLe
      timer_pos := fun _ => clkLow
      cnt_lt := nofun
      bitk_lt := (Nat.sub_le _ _).trans_lt h.bitk_lt }
  | encode => exact { h with timer_pos := nofun, cnt_lt := nofun, serWord_lt := serWordOf_lt p s.climate }
  | idleStage =>
    exact { h with
      timer_pos := nofun
      cnt_le := Nat.zero_le _
      cnt_lt := fun _ => Nat.zero_lt_succ _
      acc_le := Nat.zero_le _ }
  | reading hp _ _ more =>
    obtain ⟨count, sum⟩ := acceptReading_bounds (inp := inp) h hp
    have below := h.cnt_lt hp
    have cnt_lt : (s.cnt + 1).toNat < 128 := by omega
    exact { h with
      cnt_le := cnt_lt.le
      cnt_lt := fun _ => cnt_lt
      acc_le := sum.trans_eq (congrArg (· * _) count.symm) }
  | lastReading hp _ _ last =>
    obtain ⟨count, sum⟩ := acceptReading_bounds (inp := inp) h hp
    exact { h with
      timer_pos := nofun
      cnt_le := (count.trans last).le
      cnt_lt := nofun
      acc_le := sum.trans_eq (congrArg (· * _) count.symm) }

end

/-- A pulse is loaded with N_SYNC_PULSE and counts down to its last tick (R172, R174). -/
theorem syncStep_timer_bounds (p : Params) (inp : Inputs) {r : SyncRegs} (pulse : 1 ≤ p.nSyncPulse)
    (le : r.timer ≤ p.nSyncPulse) :
    (syncStep p inp r).timer ≤ p.nSyncPulse ∧ ((syncStep p inp r).phase = .sPulse → 1 ≤ (syncStep p inp r).timer) := by
  cases hr : r.phase with
  | sIdle =>
    cases he : syncEdgeSeen p r.prev inp.syncIn with
    | true => rw [syncStep_edge p inp hr he]; exact ⟨le_rfl, fun _ => pulse⟩
    | false => rw [syncStep_no_edge p inp hr he]; exact ⟨le, nofun⟩
  | sPulse =>
    rw [syncStep_pulse p inp hr]
    split_ifs with more
    · exact ⟨(Nat.sub_le _ _).trans le, fun _ => Nat.le_sub_one_of_lt more⟩
    · exact ⟨le, nofun⟩

theorem countersOk_resetOf {p : Params} (legal : p.Legal) : CountersOk p (State.resetOf p) := by
  obtain ⟨⟨-, -, -, -, -, -, -, gap, -⟩, -, -, serLegal, -⟩ := legal
  obtain ⟨gapLe, -⟩ := timer_loads_le p
  exact {
    timer_le := gapLe
    timer_pos := fun _ => gap
    cnt_le := Nat.zero_le _
    cnt_lt := nofun
    acc_le := Nat.zero_le _
    bitk_lt := serWidth_pos serLegal
    serWord_lt := Nat.two_pow_pos _
    syncTimer_le := Nat.zero_le _
    syncTimer_pos := nofun }

/-! The invariant -/

theorem inv_resetOf {p : Params} (legal : p.Legal) : Inv p (State.resetOf p) where
  climate := climateLegal_reset
  lines := rfl
  fault := by simp [FaultOk, State.resetOf]
  counters := countersOk_resetOf legal

/-- SYNC's registers and the environment's fields are no part of the invariant but for SYNC_TIMER. -/
theorem tick_inv {p : Params} {inp : Inputs} {s t : State} (legal : p.Legal) (h : Inv p s)
    (ht : tick p inp s = .next t) : Inv p t := by
  cases hr : inp.rst with
  | true =>
    rw [tick_reset p s hr, Host.Outcome.next.injEq] at ht
    obtain ⟨climate, lines, fault, counters⟩ := inv_resetOf legal
    subst ht
    exact ⟨climate, lines, fault, { counters with }⟩
  | false =>
    obtain ⟨-, rfl⟩ | ⟨u, move, rfl⟩ := tick_move hr ht
    · exact h
    · have counters := move.countersOk legal h.counters
      obtain ⟨⟨-, -, -, -, -, -, -, -, pulse⟩, -⟩ := legal
      obtain ⟨le, pos⟩ := syncStep_timer_bounds p inp pulse h.counters.syncTimer_le
      exact ⟨tick_climateLegal ht h.climate, move.linesOk h.lines, move.faultOk h.fault,
        { counters with syncTimer_le := le, syncTimer_pos := pos }⟩

theorem inv_nextTick {p : Params} {s : State} (h : Inv p s) : Inv p s.nextTick := by
  obtain ⟨climate, lines, fault, counters⟩ := h
  exact ⟨climate, lines, fault, { counters with }⟩

/-- Settles O56: the reset table's values meet each part of the invariant, for the machine's parameters as for any legal
ones. -/
theorem resetMeetsTheBlockInvariant : Obligations.ResetMeetsTheBlockInvariant := by
  unfold Obligations.ResetMeetsTheBlockInvariant
  exact ⟨fun p => inv_resetOf, inv_resetOf machine_legal⟩

/-- Settles O57: every move of MAIN keeps the lines, FAULT_CAUSE and the counters, every write of a ClimateState register
keeps them legal, and SYNC keeps its timer; a step of the machine is such a tick. -/
theorem stepKeepsTheBlockInvariant : Obligations.StepKeepsTheBlockInvariant := by
  unfold Obligations.StepKeepsTheBlockInvariant
  refine ⟨fun p inp s t => tick_inv, fun s t h ht => ?_⟩
  obtain ⟨u, hu⟩ := tick_next Params.machine s.inputNow s
  rw [step, hu, andThen_next, Host.Outcome.next.injEq] at ht
  exact ht ▸ inv_nextTick (tick_inv machine_legal h hu)

end Sys2Proof.Machine
end

