-- ==== Sys2Proof/Proofs/IdleAndStep.lean ====
section
/-! IDLE over its whole length (R181), and the step of the machine: total, and running the word it is offered (R182, R192). -/

namespace Sys2Proof.Machine

/-! IDLE (R181) -/

theorem idleAdvance_count (p : Params) {s : State} (more : 1 < s.timer) :
    idleAdvance p s = s.loadTimer (s.timer - 1) :=
  if_pos more

theorem idleAdvance_end (p : Params) {s : State} (ended : s.timer ≤ 1) :
    idleAdvance p s =
      if p.tempStageEn then (s.writeSum 0 0).goto .tempSample else (s.writeBtn 0).goto .scanDrive :=
  if_neg (Nat.not_lt.mpr ended)

section

variable (p : Params)

/-- An IDLE tick: its sequencing, and what the host port makes of the ClimateState and CMD_STATUS, which is nothing when no
word is offered. -/
theorem tick_idle_kept {inp : Inputs} {s : State} (hr : inp.rst = false) (hp : s.phase = .idle) :
    ∃ (c : ClimateState) (b : Bool), (inp.cmdValid = false → c = s.climate ∧ b = s.cmdStatus) ∧
      tick p inp s = .next { idleAdvance p s with climate := c, cmdStatus := b, sync := syncStep p inp s.sync } := by
  cases valid : inp.cmdValid with
  | true =>
    obtain ⟨c, b, ht⟩ := tick_idle_sequencing p hr hp
    exact ⟨c, b, nofun, ht⟩
  | false =>
    refine ⟨s.climate, s.cmdStatus, fun _ => ⟨rfl, rfl⟩, ?_⟩
    rw [tick_idle p hr hp (acceptCommand_quiet s valid)]
    simp only [State.writeSync, idleAdvance_climate, idleAdvance_cmdStatus]

/-- IDLE before its last tick has counted, whatever was offered. -/
theorem run_idle_count {ins : List Inputs} {s : State} (hp : s.phase = .idle) (hlen : ins.length < s.timer)
    (hins : NoReset ins) :
    ∃ (c : ClimateState) (b : Bool), ((∀ i ∈ ins, i.cmdValid = false) → c = s.climate ∧ b = s.cmdStatus) ∧
      run p ins s = .next { s with
        climate := c, cmdStatus := b, timer := s.timer - ins.length, sync := syncRun p ins s.sync } := by
  induction ins generalizing s with
  | nil => exact ⟨s.climate, s.cmdStatus, fun _ => ⟨rfl, rfl⟩, rfl⟩
  | cons i rest ih =>
    rw [List.length_cons] at hlen ⊢
    obtain ⟨c, b, kept, ht⟩ := tick_idle_kept p hins.head hp
    rw [idleAdvance_count p (by omega)] at ht
    obtain ⟨c', b', kept', hrest⟩ := ih
      (s := { s.loadTimer (s.timer - 1) with climate := c, cmdStatus := b, sync := syncStep p i s.sync }) hp
      (Nat.lt_sub_of_add_lt hlen) hins.tail
    refine ⟨c', b', fun quiet => ?_, ?_⟩
    · obtain ⟨rfl, rfl⟩ := kept (quiet i List.mem_cons_self)
      exact kept' fun j hj => quiet j (List.mem_cons_of_mem i hj)
    · have sum : s.timer - (rest.length + 1) = s.timer - 1 - rest.length := by omega
      rw [run_cons, ht, andThen_next, hrest, sum]
      rfl

/-- IDLE over its whole length: the last tick, which finds TIMER = 1, starts what follows. -/
theorem run_idle_end {ins : List Inputs} {s : State} (hp : s.phase = .idle) (hpos : 1 ≤ s.timer)
    (hlen : ins.length = s.timer) (hins : NoReset ins) :
    ∃ (c : ClimateState) (b : Bool), ((∀ i ∈ ins, i.cmdValid = false) → c = s.climate ∧ b = s.cmdStatus) ∧
      run p ins s = .next { idleAdvance p { s with timer := 1 } with
        climate := c, cmdStatus := b, sync := syncRun p ins s.sync } := by
  obtain rfl | ⟨before, last, rfl⟩ := ins.eq_nil_or_concat'
  · exact absurd hlen (Nat.ne_of_lt hpos)
  · rw [List.length_append, List.length_singleton] at hlen
    obtain ⟨c, b, kept, counts⟩ := run_idle_count p hp (by omega) fun i hi => hins i (List.mem_append_left _ hi)
    have one : s.timer - before.length = 1 := by omega
    rw [one] at counts
    obtain ⟨c', b', kept', ends⟩ := tick_idle_kept p (s := { s with
      climate := c, cmdStatus := b, timer := 1, sync := syncRun p before s.sync }) (hins last List.mem_concat_self) hp
    refine ⟨c', b', fun quiet => ?_, ?_⟩
    · obtain ⟨rfl, rfl⟩ := kept fun i hi => quiet i (List.mem_append_left _ hi)
      exact kept' (quiet last List.mem_concat_self)
    · rw [run_append, counts, andThen_next, run_cons, ends, syncRun_append, idleAdvance_end p le_rfl,
        idleAdvance_end p le_rfl]
      cases p.tempStageEn <;> rfl

end

/-- Settles O22: IDLE counts in the ticks before the last, and the last one goes on. -/
theorem idleLastsItsTimer : Obligations.IdleLastsItsTimer := by
  unfold Obligations.IdleLastsItsTimer
  intro p s ins hp hpos hlen hins
  refine ⟨fun k hk => ?_, ?_⟩
  · have taken : (ins.take k).length = k := List.length_take_of_le hk.le
    obtain ⟨c, b, -, counts⟩ := run_idle_count p hp (by omega) (hins.take k)
    exact ⟨_, counts, hp⟩
  · obtain ⟨c, b, -, ends⟩ := run_idle_end p hp hpos hlen hins
    refine ⟨_, ends, ?_⟩
    rw [idleAdvance_end p le_rfl]
    split_ifs
    · exact ⟨rfl, rfl, rfl⟩
    · exact ⟨rfl, rfl⟩

/-! The step of the machine (R192) -/

theorem step_of_tick {s t : State} (h : tick Params.machine s.inputNow s = .next t) : step s = .next t.nextTick := by
  rw [step, h, andThen_next]

/-- Settles O20: a step is a tick, and every tick answers a next state. -/
theorem everyStepAnswersANextState : Obligations.EveryStepAnswersANextState := by
  unfold Obligations.EveryStepAnswersANextState
  intro s
  obtain ⟨t, ht⟩ := tick_next Params.machine s.inputNow s
  exact ⟨_, step_of_tick ht⟩

theorem inputNow_of_pending {s : State} {inp : Inputs} {rest : List Inputs} (h : s.pending = inp :: rest) :
    s.inputNow = inp := by
  rw [State.inputNow, h]

/-- A legal word offered to the host port is its command. -/
theorem acceptCommand_of_decode {inp : Inputs} {i : Instr} (s : State) (valid : inp.cmdValid = true)
    (hd : decode inp.cmdWord = .ok i) : acceptCommand inp s = exec i s := by
  rw [acceptCommand, if_pos valid, perform_of_decode_ok .host s hd, performLegal]

/-- A step in IDLE runs the offered command, then the sequencing. -/
theorem step_idle_command {i : Instr} {s : State} {inp : Inputs} {rest : List Inputs} (hp : s.phase = .idle)
    (pending : s.pending = inp :: rest) (hr : inp.rst = false) (valid : inp.cmdValid = true)
    (hd : decode inp.cmdWord = .ok i) :
    ∃ u, exec i s = .next u ∧ step s = .next { idleAdvance Params.machine u with
      sync := syncStep Params.machine inp s.sync, pending := rest, tickNo := s.tickNo + 1 } := by
  obtain ⟨f, b, -, hx⟩ := exec_of_climate i
  have ht := tick_idle Params.machine hr hp ((acceptCommand_of_decode s valid hd).trans (hx s))
  rw [← inputNow_of_pending pending] at ht
  refine ⟨_, hx s, (step_of_tick ht).trans ?_⟩
  simp only [State.nextTick, State.writeSync, idleAdvance_pending, idleAdvance_tickNo, pending, List.tail_cons,
    inputNow_of_pending pending]

theorem decode_of_decodeTableWord {n w : Nat} {i : Instr} (h : decodeTableWord n w = some i) :
    decode (tableWord n w) = .ok i := by
  unfold decodeTableWord at h
  split at h
  next hd => rw [hd, Option.some.inj h]
  next => cases h

/-- Settles O19: the step is the IDLE tick of the offered word, and withFetchWord sets up such a step, whose sequencing writes
neither the ClimateState nor CMD_STATUS. -/
theorem stepRunsTheOfferedCommand : Obligations.StepRunsTheOfferedCommand := by
  unfold Obligations.StepRunsTheOfferedCommand
  refine ⟨fun i s inp rest => step_idle_command, fun i s w hw => ?_⟩
  obtain ⟨u, hx, hs⟩ := step_idle_command (s := s.withFetchWord 16 w) rfl rfl rfl rfl (decode_of_decodeTableWord hw)
  exact ⟨u, _, hx, hs, idleAdvance_climate _ u, idleAdvance_cmdStatus _ u⟩

end Sys2Proof.Machine
end

