-- ==== Sys2Proof/Proofs/ScanTicks.lean ====
section
/-! The ticks of the scan phases one at a time (R102, R104, R107, R108, R110), and the last tick of a refresh (R184). -/

namespace Sys2Proof.Machine

/-! The lines (R102, R110) -/

theorem lineBit_getLsbD : ∀ i k : Fin 6, (lineBit i).getLsbD k.val = decide (k = i) := by
  decide

theorem driveLine_getLsbD (s : State) (i k : Fin 6) :
    (s.driveLine i).lineMode.getLsbD k.val = (decide (k = i) || s.lineMode.getLsbD k.val) := by
  rw [State.driveLine, BitVec.getLsbD_or, lineBit_getLsbD, Bool.or_comm]

theorem releaseLine_getLsbD (s : State) (i k : Fin 6) :
    (s.releaseLine i).lineMode.getLsbD k.val = (!decide (k = i) && s.lineMode.getLsbD k.val) := by
  rw [State.releaseLine, BitVec.getLsbD_and, BitVec.getLsbD_not, lineBit_getLsbD, Bool.and_comm]
  simp

/-- BTN counts the buttons of a pass. -/
theorem nextButton_toNat {b : BitVec 3} (h : b.toNat < 7) : (b + 1).toNat = b.toNat + 1 := by
  bv_omega

section

variable (p : Params) {inp : Inputs} {s : State}

theorem tick_scanDrive (hr : inp.rst = false) (hp : s.phase = .scanDrive) :
    tick p inp s = .next ((stepScanDrive p s).writeSync (syncStep p inp s.sync)) :=
  tick_main p hr (by simp [hp]) (by rw [mainStep, hp])

theorem tick_scanRestore_next (hr : inp.rst = false) (hp : s.phase = .scanRestore) (more : s.btn.toNat < 7) :
    tick p inp s = .next ((((s.releaseLine (driveOf p s.btn)).writeBtn (s.btn + 1)).goto .scanDrive).writeSync
      (syncStep p inp s.sync)) := by
  have rule : stepScanRestore p s = ((s.releaseLine (driveOf p s.btn)).writeBtn (s.btn + 1)).goto .scanDrive :=
    if_pos more
  rw [← rule]
  exact tick_main p hr (by simp [hp]) (by rw [mainStep, hp])

theorem tick_scanRestore_last (hr : inp.rst = false) (hp : s.phase = .scanRestore) (last : ¬s.btn.toNat < 7) :
    tick p inp s = .next ((((s.releaseLine (driveOf p s.btn)).writeRet .idle).goto .encode).writeSync
      (syncStep p inp s.sync)) := by
  have rule : stepScanRestore p s = ((s.releaseLine (driveOf p s.btn)).writeRet .idle).goto .encode := if_neg last
  rw [← rule]
  exact tick_main p hr (by simp [hp]) (by rw [mainStep, hp])

/-! The samples (R104, R107, R108) -/

/-- SCAN_SAMPLE, SCAN_HOLDCHK and SCAN_REPCHK that read high restore the line, and write nothing. -/
theorem tick_released (hr : inp.rst = false)
    (hp : s.phase = .scanSample ∨ s.phase = .scanHoldchk ∨ s.phase = .scanRepchk)
    (high : inp.lineIn.getLsbD (senseOf p s.btn).val = true) :
    tick p inp s = .next ((s.goto .scanRestore).writeSync (syncStep p inp s.sync)) := by
  have notPressed := not_pressed_of_high high
  obtain hp | hp | hp := hp <;> refine tick_main p hr (by simp [hp]) ?_ <;> rw [mainStep, hp]
  · simp [stepScanSample, notPressed]
  · simp [stepScanHoldchk, notPressed]
  · simp [stepScanRepchk, notPressed]

theorem tick_scanSample_pressed (hr : inp.rst = false) (hp : s.phase = .scanSample)
    (low : inp.lineIn.getLsbD (senseOf p s.btn).val = false) :
    tick p inp s = .next ((s.startWait p.nDebounce .scanConfirm).writeSync (syncStep p inp s.sync)) := by
  refine tick_main p hr (by simp [hp]) ?_
  rw [mainStep, hp]
  simp [stepScanSample, pressed_of_low low]

theorem tick_scanHoldchk_pressed (hr : inp.rst = false) (hp : s.phase = .scanHoldchk)
    (low : inp.lineIn.getLsbD (senseOf p s.btn).val = false) :
    tick p inp s = .next ((s.startWait p.nRepeat .scanRepchk).writeSync (syncStep p inp s.sync)) :=
  tick_main p hr (by simp [hp]) (mainStep_scanHoldchk_pressed p hp (pressed_of_low low))

end

/-- Settles O24: the two phases OR and AND-NOT the bit of DRIVE(BTN). -/
theorem driveAndRestoreTheLine : Obligations.DriveAndRestoreTheLine := by
  unfold Obligations.DriveAndRestoreTheLine
  refine ⟨fun p inp s hr hp => ?_, fun p inp s hr hp => ?_⟩
  · exact ⟨_, driveLine_getLsbD s _, tick_scanDrive p hr hp⟩
  · refine ⟨_, releaseLine_getLsbD s _, fun more => ?_, fun last => ?_⟩
    · exact ⟨_, nextButton_toNat more, tick_scanRestore_next p hr hp more⟩
    · exact tick_scanRestore_last p hr hp (by omega)

/-- Settles O25: each phase has one equation per level of the sense line. -/
theorem sampleAndHoldCheck : Obligations.SampleAndHoldCheck := by
  unfold Obligations.SampleAndHoldCheck
  refine fun p inp s hr => ⟨fun hp => ⟨fun low => ?_, fun high => ?_⟩, fun hp => ⟨fun low => ?_, fun high => ?_⟩⟩
  · exact tick_scanSample_pressed p hr hp low
  · exact tick_released p hr (.inl hp) (Bool.eq_true_of_not_eq_false high)
  · exact tick_scanHoldchk_pressed p hr hp low
  · exact tick_released p hr (.inr (.inl hp)) (Bool.eq_true_of_not_eq_false high)

/-! The end of a refresh (R184) -/

theorem returnFromRefresh_of_idle (p : Params) {s : State} (hret : s.ret = .idle) :
    returnFromRefresh p s = (s.loadTimer p.nGap).goto .idle := by
  rw [returnFromRefresh, hret]

/-- Settles O27: the check has one equation per level of the sense line, and the refresh ends by `returnFromRefresh`. -/
theorem repeatCheckReapplies : Obligations.RepeatCheckReapplies := by
  unfold Obligations.RepeatCheckReapplies
  refine ⟨fun p inp s hr hp => ⟨fun high => ?_, fun low => ?_⟩, fun p inp s hr hp ended lastBit => ?_⟩
  · exact tick_released p hr (.inr (.inr hp)) high
  · obtain ⟨i, u, hd, hx, hm⟩ := mainStep_scanRepchk_pressed p hp (pressed_of_low low)
    exact ⟨i, u, hd, hx, tick_main p hr (by simp [hp]) hm⟩
  · rw [tick_serHi p hr hp, stepSerHi_end p ended lastBit]
    refine ⟨fun ret => ?_, fun ret => ?_⟩
    · rw [returnFromRefresh_of_rep p ret]
      rfl
    · rw [returnFromRefresh_of_idle p ret]
      rfl

end Sys2Proof.Machine
end

