-- ==== Sys2Proof/Proofs/DisplayRefresh.lean ====
section
/-! A display refresh from ENCODE to its return (R183): the state after each part of it, and what a receiver at the serial
bus latches from its waveform (R177). -/

namespace Sys2Proof.Machine

/-! Runs in parts -/

theorem noReset_append {first rest : List Inputs} : NoReset (first ++ rest) ↔ NoReset first ∧ NoReset rest :=
  List.forall_mem_append

section

variable {p : Params} {s t : State}

theorem run_after_tick {i : Inputs} (h : tick p i s = .next t) (rest : List Inputs) :
    run p (i :: rest) s = run p rest t := by
  rw [run_cons, h, andThen_next]

theorem run_after_run {first : List Inputs} (h : run p first s = .next t) (rest : List Inputs) :
    run p (first ++ rest) s = run p rest t := by
  rw [run_append, h, andThen_next]

theorem waveform_after_run {first : List Inputs} (h : run p first s = .next t) (rest : List Inputs) :
    waveform p (first ++ rest) s = waveform p first s ++ waveform p rest t := by
  induction first generalizing s with
  | nil => rw [← Host.Outcome.next.inj h]; rfl
  | cons i more ih =>
    obtain ⟨u, hu⟩ := tick_next p i s
    rw [run_after_tick hu] at h
    simp only [List.cons_append, waveform, hu, ih h]

end

@[simp] theorem waveform_length (p : Params) (ins : List Inputs) (s : State) :
    (waveform p ins s).length = ins.length := by
  induction ins generalizing s with
  | nil => rfl
  | cons i rest ih =>
    obtain ⟨t, ht⟩ := tick_next p i s
    simp only [waveform, ht, List.length_cons, ih]

/-! The parts of a refresh -/

/-- The state in SEG_TX after ENCODE saw `s`, with SYNC's registers `r` (R133). -/
def encodedState (p : Params) (s : State) (r : SyncRegs) : State :=
  { s with segWord := segWordOf p s.climate, serWord := serWordOf p s.climate, phase := .segTx, sync := r }

/-- The first state of the serial frame of that refresh (R163). -/
def frameStart (p : Params) (s : State) (r : SyncRegs) : State :=
  { encodedState p s r with phase := .serLo, timer := p.nClkLow, bitk := p.serWidth - 1 }

/-- The state from which that refresh returns (R167). -/
def frameEnd (p : Params) (s : State) (r : SyncRegs) : State :=
  { encodedState p s r with phase := .serHi, timer := 1, bitk := 0 }

section

variable (p : Params) {s : State} {first done : Inputs} {waits frame : List Inputs}

/-- Ticks of a segment write that are not answered. -/
theorem run_segTx_unanswered {t : State} (hp : t.phase = .segTx) (hins : NoReset waits)
    (unanswered : ∀ i ∈ waits, i.segErr = false ∧ i.segDone = false) :
    run p waits t = .next { t with sync := syncRun p waits t.sync } := by
  induction waits generalizing t with
  | nil => rfl
  | cons i rest ih =>
    obtain ⟨noErr, notDone⟩ := unanswered i List.mem_cons_self
    have ht := tick_segTx p hins.head hp
    rw [stepSegTx_unanswered p t noErr notDone] at ht
    have more := ih (t := t.writeSync (syncStep p i t.sync)) hp hins.tail
      fun j hj => unanswered j (List.mem_cons_of_mem i hj)
    rw [run_after_tick ht, more]
    rfl

theorem run_encode_waits (hp : s.phase = .encode) (hins : NoReset (first :: waits))
    (unanswered : ∀ i ∈ waits, i.segErr = false ∧ i.segDone = false) :
    run p (first :: waits) s = .next (encodedState p s (syncRun p (first :: waits) s.sync)) := by
  have waited := run_segTx_unanswered p (t := encodedState p s (syncStep p first s.sync)) rfl hins.tail unanswered
  exact (run_after_tick (tick_encode p hins.head hp) waits).trans waited

theorem run_encode_segTx (hp : s.phase = .encode) (hins : NoReset (first :: (waits ++ [done])))
    (unanswered : ∀ i ∈ waits, i.segErr = false ∧ i.segDone = false) (noErr : done.segErr = false)
    (answered : done.segDone = true) :
    run p (first :: (waits ++ [done])) s =
      .next (frameStart p s (syncRun p (first :: (waits ++ [done])) s.sync)) := by
  rw [← List.cons_append] at hins ⊢
  obtain ⟨before, last⟩ := noReset_append.mp hins
  have ht := tick_segTx p (s := encodedState p s (syncRun p (first :: waits) s.sync)) last.head rfl
  rw [stepSegTx_segDone p _ noErr answered] at ht
  rw [run_after_run (run_encode_waits p hp before unanswered), run_after_tick ht, syncRun_append]
  rfl

/-- The whole refresh. -/
theorem run_refresh (low : 1 ≤ p.nClkLow) (high : 1 ≤ p.nClkHigh) (width : 1 ≤ p.serWidth) (hp : s.phase = .encode)
    (hins : NoReset (first :: (waits ++ done :: frame)))
    (unanswered : ∀ i ∈ waits, i.segErr = false ∧ i.segDone = false) (noErr : done.segErr = false)
    (answered : done.segDone = true) (hlen : frame.length = frameTicks p) :
    run p (first :: (waits ++ done :: frame)) s = .next (returnFromRefresh p
      (frameEnd p s (syncRun p (first :: (waits ++ done :: frame)) s.sync))) := by
  have parts : first :: (waits ++ done :: frame) = first :: (waits ++ [done]) ++ frame := by simp
  rw [parts] at hins ⊢
  obtain ⟨before, shifting⟩ := noReset_append.mp hins
  have sent := run_frame low high width
    (frameState_start (s := frameStart p s (syncRun p (first :: (waits ++ [done])) s.sync)) low rfl rfl rfl)
    shifting hlen
  rw [run_after_run (run_encode_segTx p hp before unanswered noErr answered), sent, syncRun_append]
  rfl

end

/-! The receiver (R177) -/

section

variable {outs rest : List Outputs}

/-- While the clock stays high nothing is latched. -/
theorem latchedBits_append_of_high (h : ∀ o ∈ outs, o.serClk = true) :
    latchedBits true (outs ++ rest) = latchedBits true rest := by
  induction outs with
  | nil => rfl
  | cons o more ih =>
    have clk : o.serClk = true := h o List.mem_cons_self
    simpa [latchedBits, clk] using ih fun x hx => h x (List.mem_cons_of_mem o hx)

/-- While the clock is low nothing is latched, and the receiver waits for the edge. -/
theorem latchedBits_append_of_low {before : Bool} (nonempty : outs ≠ []) (h : ∀ o ∈ outs, o.serClk = false) :
    latchedBits before (outs ++ rest) = latchedBits false rest := by
  induction outs generalizing before with
  | nil => exact absurd rfl nonempty
  | cons o more ih =>
    have clk : o.serClk = false := h o List.mem_cons_self
    obtain rfl | nonempty := eq_or_ne more []
    · simp [latchedBits, clk]
    · simpa [latchedBits, clk] using ih nonempty fun x hx => h x (List.mem_cons_of_mem o hx)

theorem latchedBits_rising {o : Outputs} (clk : o.serClk = true) :
    latchedBits false (o :: rest) = o.serData :: latchedBits true rest := by
  simp [latchedBits, clk]

/-- One bit period, `low` ticks of clock 0 and `high` of clock 1 with the data held: its one bit is latched. -/
theorem latchedBits_period {low high : Nat} {bit : Bool} (hlow : 1 ≤ low) (hhigh : 1 ≤ high)
    (hlen : outs.length = low + high)
    (levels : ∀ k o, outs[k]? = some o → o.serClk = decide (low ≤ k) ∧ o.serData = bit) :
    latchedBits true (outs ++ rest) = bit :: latchedBits true rest := by
  have lows : ∀ o ∈ outs.take low, o.serClk = false := by
    intro o ho
    obtain ⟨k, hk, rfl⟩ := List.getElem_of_mem ho
    rw [List.length_take] at hk
    rw [List.getElem_take, (levels k _ (List.getElem?_eq_getElem _)).1]
    exact decide_eq_false (by omega)
  have highs : ∀ o ∈ outs.drop low, o.serClk = true ∧ o.serData = bit := by
    intro o ho
    obtain ⟨k, hk, rfl⟩ := List.getElem_of_mem ho
    obtain ⟨clk, data⟩ := levels (low + k) _ ((List.getElem?_drop).symm.trans (List.getElem?_eq_getElem hk))
    exact ⟨clk.trans (decide_eq_true (Nat.le_add_right low k)), data⟩
  have nonempty : outs.take low ≠ [] := List.ne_nil_of_length_pos (by rw [List.length_take]; omega)
  rw [← List.take_append_drop low outs, List.append_assoc, latchedBits_append_of_low nonempty lows]
  cases split : outs.drop low with
  | nil =>
    have empty : (outs.drop low).length = 0 := by rw [split, List.length_nil]
    rw [List.length_drop] at empty
    omega
  | cons o more =>
    rw [split] at highs
    obtain ⟨clk, data⟩ := highs o List.mem_cons_self
    rw [List.cons_append, latchedBits_rising clk, data,
      latchedBits_append_of_high fun x hx => (highs x (List.mem_cons_of_mem o hx)).1]

/-- A frame of `width` such periods: the bits in the order of the periods. -/
theorem latchedBits_frame {low high width : Nat} {bits : Nat → Bool} (hlow : 1 ≤ low) (hhigh : 1 ≤ high)
    (hlen : outs.length = width * (low + high))
    (levels : ∀ j k, j < width → k < low + high → ∃ o, outs[j * (low + high) + k]? = some o ∧
      o.serClk = decide (low ≤ k) ∧ o.serData = bits j) :
    latchedBits true outs = (List.range width).map bits := by
  induction width generalizing outs bits with
  | zero =>
    rw [Nat.zero_mul] at hlen
    rw [List.eq_nil_of_length_eq_zero hlen]
    rfl
  | succ width ih =>
    rw [Nat.succ_mul] at hlen
    have firstLen : (outs.take (low + high)).length = low + high := List.length_take_of_le (by omega)
    have restLen : (outs.drop (low + high)).length = width * (low + high) := by rw [List.length_drop]; omega
    have first : ∀ k o, (outs.take (low + high))[k]? = some o → o.serClk = decide (low ≤ k) ∧ o.serData = bits 0 := by
      intro k o ho
      obtain ⟨hk, -⟩ := List.getElem?_eq_some_iff.mp ho
      rw [firstLen] at hk
      obtain ⟨o', ho', shown⟩ := levels 0 k (Nat.succ_pos width) hk
      rw [Nat.zero_mul, Nat.zero_add] at ho'
      rw [List.getElem?_take_of_lt hk, ho'] at ho
      exact Option.some.inj ho ▸ shown
    have others := ih (bits := fun j => bits (j + 1)) restLen fun j k hj hk => by
      obtain ⟨o, ho, shown⟩ := levels (j + 1) k (Nat.succ_lt_succ hj) hk
      refine ⟨o, ?_, shown⟩
      rw [List.getElem?_drop, ← ho]
      congr 1
      ring
    rw [← List.take_append_drop (low + high) outs, latchedBits_period hlow hhigh firstLen first, others,
      List.range_succ_eq_map, List.map_cons, List.map_map]
    rfl

end

/-- The bits of a number from bit `n - 1` down make its `n` low bits, after those received before. -/
theorem foldl_testBits_msbFirst (x n w : Nat) :
    ((List.range n).map fun j => x.testBit (n - 1 - j)).foldl (fun w b => 2 * w + b.toNat) w =
      w * 2 ^ n + x % 2 ^ n := by
  induction n generalizing w with
  | zero => simp [Nat.mod_one]
  | succ n ih =>
    have shift : (fun j => x.testBit (n + 1 - 1 - j)) ∘ Nat.succ = fun j => x.testBit (n - 1 - j) := by
      funext j
      exact congrArg x.testBit (by omega)
    rw [List.range_succ_eq_map, List.map_cons, List.map_map, shift, List.foldl_cons, ih, Nat.mod_pow_succ,
      ← Nat.toNat_testBit]
    simp only [Nat.add_sub_cancel, Nat.sub_zero]
    ring

theorem receivedWord_msbFirst (x n : Nat) :
    receivedWord ((List.range n).map fun j => x.testBit (n - 1 - j)) = x % 2 ^ n := by
  rw [receivedWord, foldl_testBits_msbFirst, Nat.zero_mul, Nat.zero_add]

/-! What a refresh sends -/

section

variable (p : Params) {s : State} {first done : Inputs} {waits frame : List Inputs}

/-- The state in the ticks of SEG_TX. -/
theorem run_refresh_segTx (hp : s.phase = .encode) (hins : NoReset (first :: waits))
    (unanswered : ∀ i ∈ waits, i.segErr = false ∧ i.segDone = false) {k : Nat} (hk : k ≤ waits.length) :
    ∃ r, run p ((first :: (waits ++ done :: frame)).take (k + 1)) s = .next (encodedState p s r) := by
  have taken : (first :: (waits ++ done :: frame)).take (k + 1) = first :: waits.take k := by
    rw [List.take_succ_cons, List.take_append_of_le_length hk]
  have noReset : NoReset (first :: waits.take k) := hins.take (k + 1)
  rw [taken]
  exact ⟨_, run_encode_waits p hp noReset fun i hi => unanswered i (List.mem_of_mem_take hi)⟩

/-- Up to the last tick of SEG_TX the clock line is idle. -/
theorem serClk_before_frame (hp : s.phase = .encode) (hins : NoReset (first :: waits))
    (unanswered : ∀ i ∈ waits, i.segErr = false ∧ i.segDone = false) :
    ∀ o ∈ waveform p (first :: (waits ++ [done])) s, o.serClk = true := by
  intro o ho
  obtain ⟨k, hk, rfl⟩ := List.getElem_of_mem ho
  rw [waveform_length] at hk
  have shown {u : State} (hu : run p ((first :: (waits ++ [done])).take k) s = .next u) (idle : ¬Shifting u.phase) :
      (waveform p (first :: (waits ++ [done])) s)[k].serClk = true := by
    obtain ⟨d, hd⟩ := waveform_getElem? p hk hu
    rw [(List.getElem?_eq_some_iff.mp hd).2]
    exact (serial_idle_of_not_shifting p d idle).1
  cases k with
  | zero => exact shown rfl (by simp [hp])
  | succ k =>
    obtain ⟨r, hr⟩ := run_refresh_segTx p (done := done) (frame := []) hp hins unanswered (k := k)
      (by simpa [Nat.lt_succ_iff] using hk)
    exact shown hr (by simp [encodedState])

/-- A receiver of the whole refresh latches the bits of the serial word, most significant first. -/
theorem latchedBits_refresh (low : 1 ≤ p.nClkLow) (high : 1 ≤ p.nClkHigh) (width : 1 ≤ p.serWidth)
    (hp : s.phase = .encode) (hins : NoReset (first :: (waits ++ done :: frame)))
    (unanswered : ∀ i ∈ waits, i.segErr = false ∧ i.segDone = false) (noErr : done.segErr = false)
    (answered : done.segDone = true) (hlen : frame.length = frameTicks p) :
    latchedBits true (waveform p (first :: (waits ++ done :: frame)) s) =
      (List.range p.serWidth).map fun j => (serWordOf p s.climate).testBit (p.serWidth - 1 - j) := by
  have parts : first :: (waits ++ done :: frame) = first :: (waits ++ [done]) ++ frame := by simp
  rw [parts] at hins ⊢
  obtain ⟨before, shifting⟩ := noReset_append.mp hins
  have started := run_encode_segTx p hp before unanswered noErr answered
  have beforeDone : NoReset (first :: waits) := (noReset_append.mp ((List.cons_append ..).symm ▸ before)).1
  obtain ⟨levels, -⟩ := serialWaveform p (frameStart p s (syncRun p (first :: (waits ++ [done])) s.sync)) frame
    low high width rfl rfl rfl hlen shifting
  rw [waveform_after_run started, latchedBits_append_of_high (serClk_before_frame p hp beforeDone unanswered)]
  exact latchedBits_frame low high (by rw [waveform_length, hlen, frameTicks]) levels

end

/-- Settles O48: every SEG_TX tick shows the encoded word, the receiver's bits are those of the serial word from the top, and
the refresh has written only the frame words, TIMER and BITK when it returns. -/
theorem refreshSendsOneSnapshot : Obligations.RefreshSendsOneSnapshot := by
  unfold Obligations.RefreshSendsOneSnapshot
  intro p s first done waits frame low high width hp hins unanswered noErr answered hlen
  have beforeDone : NoReset (first :: waits) := (noReset_append.mp ((List.cons_append ..).symm ▸ hins)).1
  have latched := latchedBits_refresh p low high width hp hins unanswered noErr answered hlen
  refine ⟨fun k o hk1 hk ho => ?_, ?_, ?_, _,
    run_refresh p low high width hp hins unanswered noErr answered hlen, ?_⟩
  · obtain ⟨k, rfl⟩ := Nat.exists_eq_add_of_le' hk1
    obtain ⟨r, hr⟩ := run_refresh_segTx p (done := done) (frame := frame) hp beforeDone unanswered
      (Nat.le_of_succ_le_succ hk)
    have inside : k + 1 < (first :: (waits ++ done :: frame)).length := by
      rw [List.length_cons, List.length_append, List.length_cons]
      omega
    obtain ⟨d, hd⟩ := waveform_getElem? p inside hr
    rw [← Option.some.inj (hd.symm.trans ho)]
    exact ⟨rfl, rfl⟩
  · rw [latched, List.length_map, List.length_range]
  · rw [latched, receivedWord_msbFirst]
    exact Nat.mod_eq_of_lt (serWordOf_lt p s.climate)
  · cases ret : s.ret with
    | idle =>
      rw [returnFromRefresh_of_idle p (s := frameEnd p s _) ret]
      exact ⟨rfl, rfl, rfl, ret, fun _ => ⟨rfl, rfl⟩, nofun⟩
    | rep =>
      rw [returnFromRefresh_of_rep p (s := frameEnd p s _) ret]
      exact ⟨rfl, rfl, rfl, ret, nofun, fun _ => ⟨rfl, rfl, rfl⟩⟩

end Sys2Proof.Machine
end

