-- ==== Sys2Proof/Proofs/ButtonPass.lean ====
section
/-! One button of a scan pass from SCAN_DRIVE to SCAN_RESTORE (R188's rows, R102 to R112): each stage is a tick that reads the
line and the wait it starts, and what a run of stages keeps is `Scanning`. -/

namespace Sys2Proof.Machine

/-! Runs that end in a state with a property -/

/-- The run over these ticks ends in a state with property `P`. -/
def Leads (p : Params) (ins : List Inputs) (s : State) (P : State → Prop) : Prop :=
  ∃ t, run p ins s = .next t ∧ P t

section

variable {p : Params} {s : State} {P Q : State → Prop}

theorem Leads.append {first rest : List Inputs} (h : Leads p first s P) (k : ∀ t, P t → Leads p rest t Q) :
    Leads p (first ++ rest) s Q := by
  obtain ⟨t, ht, ok⟩ := h
  obtain ⟨u, hu, ok'⟩ := k t ok
  exact ⟨u, (run_after_run ht rest).trans hu, ok'⟩

theorem leads_tick {i : Inputs} {t : State} (h : tick p i s = .next t) (ok : P t) : Leads p [i] s P :=
  ⟨t, run_after_tick h [], ok⟩

/-- A tick that starts a wait, and the wait over its whole length (R101). -/
theorem leads_startWait {i : Inputs} {waits : List Inputs} {u : State} {n : Nat} {w : WaitNext} {r : SyncRegs}
    (ht : tick p i s = .next ((u.startWait n w).writeSync r)) (pos : 1 ≤ n) (hlen : waits.length = n)
    (hins : NoReset waits) (ok : ∀ r, P { u with phase := w.phase, timer := 1, wnext := w, sync := r }) :
    Leads p (i :: waits) s P :=
  ⟨_, (run_after_tick ht waits).trans (run_wait_end p rfl pos hlen hins), ok _⟩

end

/-- The ticks of one stage, a tick and the `n` of its wait, at the front of a stream. -/
theorem exists_stage {ins : List Inputs} {n m : Nat} (h : ins.length = n + 1 + m) :
    ∃ (i : Inputs) (waits rest : List Inputs), ins = i :: waits ++ rest ∧ waits.length = n ∧ rest.length = m ∧
      ins[0]? = some i ∧ ∀ k, rest[k]? = ins[n + 1 + k]? := by
  cases ins with
  | nil => rw [List.length_nil] at h; omega
  | cons i more =>
    rw [List.length_cons] at h
    refine ⟨i, more.take n, more.drop n, by rw [List.cons_append, List.take_append_drop], ?_, ?_, rfl, fun k => ?_⟩
    · exact List.length_take_of_le (by omega)
    · rw [List.length_drop]
      omega
    · rw [List.getElem?_drop, Nat.add_right_comm, List.getElem?_cons_succ]

/-! The action of the scanned button -/

theorem applyAction_eq (b : BitVec 3) (s : State) :
    applyAction b s = .next { s with climate := climateAfter (buttonOf b).command s.climate } := by
  rw [applyAction, perform_of_decode_ok .button s (Button.decode_action _), performLegal, keepStatus,
    exec_of_wellFormed (Button.command_wellFormed _)]
  rfl

section

variable (p : Params) {inp : Inputs} {s : State}

theorem tick_scanConfirm_pressed (hr : inp.rst = false) (hp : s.phase = .scanConfirm)
    (low : inp.lineIn.getLsbD (senseOf p s.btn).val = false) :
    tick p inp s = .next
      (({ s with climate := climateAfter (buttonOf s.btn).command s.climate }.startWait p.nHold .scanHoldchk).writeSync
        (syncStep p inp s.sync)) := by
  have rule : mainStep p inp s = stepScanConfirm p inp s := by rw [mainStep, hp]
  refine tick_main p hr (by simp [hp]) ?_
  rw [rule, stepScanConfirm, applyAction_eq, andThen_next, if_pos (pressed_of_low low)]

theorem tick_scanConfirm_released (hr : inp.rst = false) (hp : s.phase = .scanConfirm)
    (high : inp.lineIn.getLsbD (senseOf p s.btn).val = true) :
    tick p inp s = .next
      (({ s with climate := climateAfter (buttonOf s.btn).command s.climate }.goto .scanRestore).writeSync
        (syncStep p inp s.sync)) := by
  have rule : mainStep p inp s = stepScanConfirm p inp s := by rw [mainStep, hp]
  refine tick_main p hr (by simp [hp]) ?_
  rw [rule, stepScanConfirm, applyAction_eq, andThen_next, if_neg (by simp [not_pressed_of_high high])]

theorem tick_scanRepchk_pressed (hr : inp.rst = false) (hp : s.phase = .scanRepchk)
    (low : inp.lineIn.getLsbD (senseOf p s.btn).val = false) :
    tick p inp s = .next
      ((({ s with climate := climateAfter (buttonOf s.btn).command s.climate }.writeRet .rep).goto .encode).writeSync
        (syncStep p inp s.sync)) := by
  have rule : mainStep p inp s = stepScanRepchk p inp s := by rw [mainStep, hp]
  refine tick_main p hr (by simp [hp]) ?_
  rw [rule, stepScanRepchk, if_pos (pressed_of_low low), applyAction_eq, andThen_next]

end

/-! The stages -/

/-- `t` is in this phase of the scan of the button of `s`: its line alone is held, the ClimateState is `c`, and CMD_STATUS is
that of `s`. -/
structure Scanning (p : Params) (s : State) (c : ClimateState) (ph : Phase) (t : State) : Prop where
  phase : t.phase = ph
  btn : t.btn = s.btn
  lineMode : t.lineMode = lineBit (driveOf p s.btn)
  climate : t.climate = c
  cmdStatus : t.cmdStatus = s.cmdStatus

/-- The scan of the button of `s` is over: all lines are released, and MAIN is at the next button or, after the last, at the
end-of-pass refresh. -/
structure ButtonDone (s : State) (c : ClimateState) (t : State) : Prop where
  climate : t.climate = c
  cmdStatus : t.cmdStatus = s.cmdStatus
  lineMode : t.lineMode = 0
  next : s.btn.toNat < 7 → t.phase = .scanDrive ∧ t.btn.toNat = s.btn.toNat + 1
  last : s.btn.toNat = 7 → t.phase = .encode ∧ t.ret = .idle ∧ t.btn = s.btn

section

variable {p : Params} {s t : State} {c : ClimateState} {i : Inputs} {waits : List Inputs}

theorem leads_drive (hp : s.phase = .scanDrive) (lines : s.lineMode = 0) (pos : 1 ≤ p.nSettle)
    (hlen : waits.length = p.nSettle) (hins : NoReset (i :: waits)) :
    Leads p (i :: waits) s (Scanning p s s.climate .scanSample) := by
  have driven : (s.driveLine (driveOf p s.btn)).lineMode = lineBit (driveOf p s.btn) := by
    simp [State.driveLine, lines]
  exact leads_startWait (tick_scanDrive p hins.head hp) pos hlen hins.tail fun _ => ⟨rfl, rfl, driven, rfl, rfl⟩

theorem leads_sample_pressed (h : Scanning p s c .scanSample t)
    (low : i.lineIn.getLsbD (senseOf p s.btn).val = false) (pos : 1 ≤ p.nDebounce) (hlen : waits.length = p.nDebounce)
    (hins : NoReset (i :: waits)) : Leads p (i :: waits) t (Scanning p s c .scanConfirm) := by
  obtain ⟨hp, btn, lines, climate, status⟩ := h
  exact leads_startWait (tick_scanSample_pressed p hins.head hp (btn ▸ low)) pos hlen hins.tail
    fun _ => ⟨rfl, btn, lines, climate, status⟩

theorem leads_confirm_pressed (h : Scanning p s c .scanConfirm t)
    (low : i.lineIn.getLsbD (senseOf p s.btn).val = false) (pos : 1 ≤ p.nHold) (hlen : waits.length = p.nHold)
    (hins : NoReset (i :: waits)) :
    Leads p (i :: waits) t (Scanning p s (climateAfter (buttonOf s.btn).command c) .scanHoldchk) := by
  obtain ⟨hp, btn, lines, climate, status⟩ := h
  exact leads_startWait (tick_scanConfirm_pressed p hins.head hp (btn ▸ low)) pos hlen hins.tail
    fun _ => ⟨rfl, btn, lines, btn ▸ climate ▸ rfl, status⟩

theorem leads_confirm_released (h : Scanning p s c .scanConfirm t)
    (high : i.lineIn.getLsbD (senseOf p s.btn).val = true) (hr : i.rst = false) :
    Leads p [i] t (Scanning p s (climateAfter (buttonOf s.btn).command c) .scanRestore) := by
  obtain ⟨hp, btn, lines, climate, status⟩ := h
  exact leads_tick (tick_scanConfirm_released p hr hp (btn ▸ high)) ⟨rfl, btn, lines, btn ▸ climate ▸ rfl, status⟩

theorem leads_holdchk_pressed (h : Scanning p s c .scanHoldchk t)
    (low : i.lineIn.getLsbD (senseOf p s.btn).val = false) (pos : 1 ≤ p.nRepeat) (hlen : waits.length = p.nRepeat)
    (hins : NoReset (i :: waits)) : Leads p (i :: waits) t (Scanning p s c .scanRepchk) := by
  obtain ⟨hp, btn, lines, climate, status⟩ := h
  exact leads_startWait (tick_scanHoldchk_pressed p hins.head hp (btn ▸ low)) pos hlen hins.tail
    fun _ => ⟨rfl, btn, lines, climate, status⟩

theorem leads_released {ph : Phase} (h : Scanning p s c ph t)
    (samples : ph = .scanSample ∨ ph = .scanHoldchk ∨ ph = .scanRepchk)
    (high : i.lineIn.getLsbD (senseOf p s.btn).val = true) (hr : i.rst = false) :
    Leads p [i] t (Scanning p s c .scanRestore) := by
  obtain ⟨rfl, btn, lines, climate, status⟩ := h
  exact leads_tick (tick_released p hr samples (btn ▸ high)) ⟨rfl, btn, lines, climate, status⟩

theorem leads_restore (h : Scanning p s c .scanRestore t) (hr : i.rst = false) : Leads p [i] t (ButtonDone s c) := by
  obtain ⟨hp, btn, lines, climate, status⟩ := h
  have released : (t.releaseLine (driveOf p t.btn)).lineMode = 0 := by
    rw [State.releaseLine, lines, btn]
    exact releaseLine_driven _
  by_cases more : t.btn.toNat < 7
  · refine leads_tick (tick_scanRestore_next p hr hp more) ⟨climate, status, released, fun _ => ⟨rfl, ?_⟩, ?_⟩
    · exact (nextButton_toNat more).trans (by rw [btn])
    · rw [← btn]
      exact fun last => absurd more (by omega)
  · refine leads_tick (tick_scanRestore_last p hr hp more) ⟨climate, status, released, ?_, fun _ => ⟨rfl, rfl, btn⟩⟩
    rw [← btn]
    exact fun less => absurd less more

end

/-! The rows of R188 -/

section

variable {p : Params} {s : State} {ins : List Inputs}

/-- The first row. -/
theorem leads_unpressed (pos : 1 ≤ p.nSettle) (hp : s.phase = .scanDrive) (lines : s.lineMode = 0)
    (hlen : ins.length = p.nSettle + 3) (hins : NoReset ins)
    (high : ∀ i, ins[p.nSettle + 1]? = some i → i.lineIn.getLsbD (senseOf p s.btn).val = true) :
    Leads p ins s (ButtonDone s s.climate) := by
  obtain ⟨i, waits, rest, rfl, waitsLen, restLen, -, at_rest⟩ := exists_stage (n := p.nSettle) (m := 2) hlen
  obtain ⟨drive, hrest⟩ := noReset_append.mp hins
  obtain ⟨sample, restore, rfl⟩ := List.length_eq_two.mp restLen
  refine (leads_drive hp lines pos waitsLen drive).append fun t ht => ?_
  have released := leads_released ht (.inl rfl) (high sample (at_rest 0).symm) hrest.head
  exact released.append (rest := [restore]) fun u hu => leads_restore hu hrest.tail.head

/-- The start of every other row: a press that reads low at SCAN_SAMPLE reaches SCAN_CONFIRM. -/
theorem leads_confirm {m : Nat} (settle : 1 ≤ p.nSettle) (debounce : 1 ≤ p.nDebounce) (hp : s.phase = .scanDrive)
    (lines : s.lineMode = 0) (hlen : ins.length = p.nSettle + 1 + (p.nDebounce + 1 + m)) (hins : NoReset ins)
    (low : ∀ i, ins[p.nSettle + 1]? = some i → i.lineIn.getLsbD (senseOf p s.btn).val = false) :
    ∃ first rest : List Inputs, ins = first ++ rest ∧ rest.length = m ∧
      (∀ k, rest[k]? = ins[p.nSettle + p.nDebounce + 2 + k]?) ∧
      Leads p first s (Scanning p s s.climate .scanConfirm) := by
  obtain ⟨i, waits, rest, rfl, waitsLen, restLen, -, at_rest⟩ := exists_stage hlen
  obtain ⟨drive, hrest⟩ := noReset_append.mp hins
  obtain ⟨j, waits', rest', rfl, waitsLen', restLen', at_zero, at_rest'⟩ := exists_stage restLen
  obtain ⟨sample, -⟩ := noReset_append.mp hrest
  refine ⟨i :: waits ++ (j :: waits'), rest', by simp, restLen', fun k => ?_, ?_⟩
  · rw [at_rest' k, at_rest]
    congr 1
    omega
  · refine (leads_drive hp lines settle waitsLen drive).append fun t ht => ?_
    exact leads_sample_pressed ht (low j ((at_rest 0).symm.trans at_zero)) debounce waitsLen' sample

/-- The second row, released at SCAN_CONFIRM: applied once. -/
theorem leads_press_confirm (settle : 1 ≤ p.nSettle) (debounce : 1 ≤ p.nDebounce) (hp : s.phase = .scanDrive)
    (lines : s.lineMode = 0) (hlen : ins.length = p.nSettle + p.nDebounce + 4) (hins : NoReset ins)
    (low : ∀ i, ins[p.nSettle + 1]? = some i → i.lineIn.getLsbD (senseOf p s.btn).val = false)
    (high : ∀ i, ins[p.nSettle + p.nDebounce + 2]? = some i → i.lineIn.getLsbD (senseOf p s.btn).val = true) :
    Leads p ins s (ButtonDone s (climateAfter (buttonOf s.btn).command s.climate)) := by
  obtain ⟨first, rest, rfl, restLen, at_rest, pressed⟩ :=
    leads_confirm (m := 2) settle debounce hp lines (by omega) hins low
  obtain ⟨-, hrest⟩ := noReset_append.mp hins
  obtain ⟨confirm, restore, rfl⟩ := List.length_eq_two.mp restLen
  refine pressed.append fun t ht => ?_
  have released := leads_confirm_released ht (high confirm (at_rest 0).symm) hrest.head
  exact released.append (rest := [restore]) fun u hu => leads_restore hu hrest.tail.head

/-- The start of the last two rows: low at SCAN_CONFIRM too, the action is applied and SCAN_HOLDCHK reached. -/
theorem leads_holdchk {m : Nat} (settle : 1 ≤ p.nSettle) (debounce : 1 ≤ p.nDebounce) (hold : 1 ≤ p.nHold)
    (hp : s.phase = .scanDrive) (lines : s.lineMode = 0)
    (hlen : ins.length = p.nSettle + p.nDebounce + p.nHold + 3 + m) (hins : NoReset ins)
    (low : ∀ i, ins[p.nSettle + 1]? = some i → i.lineIn.getLsbD (senseOf p s.btn).val = false)
    (low' : ∀ i, ins[p.nSettle + p.nDebounce + 2]? = some i → i.lineIn.getLsbD (senseOf p s.btn).val = false) :
    ∃ first rest : List Inputs, ins = first ++ rest ∧ rest.length = m ∧
      (∀ k, rest[k]? = ins[p.nSettle + p.nDebounce + p.nHold + 3 + k]?) ∧
      Leads p first s (Scanning p s (climateAfter (buttonOf s.btn).command s.climate) .scanHoldchk) := by
  obtain ⟨first, rest, rfl, restLen, at_rest, pressed⟩ :=
    leads_confirm (m := p.nHold + 1 + m) settle debounce hp lines (by omega) hins low
  obtain ⟨-, hrest⟩ := noReset_append.mp hins
  obtain ⟨i, waits, rest', rfl, waitsLen, restLen', at_zero, at_rest'⟩ := exists_stage restLen
  obtain ⟨confirm, -⟩ := noReset_append.mp hrest
  refine ⟨first ++ (i :: waits), rest', by simp, restLen', fun k => ?_, pressed.append fun t ht => ?_⟩
  · rw [at_rest' k, at_rest]
    congr 1
    omega
  · exact leads_confirm_pressed ht (low' i ((at_rest 0).symm.trans at_zero)) hold waitsLen confirm

/-- The third row, released at SCAN_HOLDCHK: applied once. -/
theorem leads_press_holdchk (settle : 1 ≤ p.nSettle) (debounce : 1 ≤ p.nDebounce) (hold : 1 ≤ p.nHold)
    (hp : s.phase = .scanDrive) (lines : s.lineMode = 0)
    (hlen : ins.length = p.nSettle + p.nDebounce + p.nHold + 5) (hins : NoReset ins)
    (low : ∀ i, ins[p.nSettle + 1]? = some i → i.lineIn.getLsbD (senseOf p s.btn).val = false)
    (low' : ∀ i, ins[p.nSettle + p.nDebounce + 2]? = some i → i.lineIn.getLsbD (senseOf p s.btn).val = false)
    (high : ∀ i, ins[p.nSettle + p.nDebounce + p.nHold + 3]? = some i →
      i.lineIn.getLsbD (senseOf p s.btn).val = true) :
    Leads p ins s (ButtonDone s (climateAfter (buttonOf s.btn).command s.climate)) := by
  obtain ⟨first, rest, rfl, restLen, at_rest, pressed⟩ :=
    leads_holdchk (m := 2) settle debounce hold hp lines hlen hins low low'
  obtain ⟨-, hrest⟩ := noReset_append.mp hins
  obtain ⟨check, restore, rfl⟩ := List.length_eq_two.mp restLen
  refine pressed.append fun t ht => ?_
  have released := leads_released ht (.inr (.inl rfl)) (high check (at_rest 0).symm) hrest.head
  exact released.append (rest := [restore]) fun u hu => leads_restore hu hrest.tail.head

end

/-- Settles O28: the drive and its settle wait, the sample, the restore. -/
theorem unpressedButtonTakesSettlePlusThree : Obligations.UnpressedButtonTakesSettlePlusThree := by
  unfold Obligations.UnpressedButtonTakesSettlePlusThree
  intro p s ins pos hp lines hlen hins high
  obtain ⟨t, ht, climate, status, released, next, last⟩ := leads_unpressed pos hp lines hlen hins high
  exact ⟨t, ht, released, climate, status, next, last⟩

/-- Settles O29: both rows apply the button's command in their confirm tick and nowhere else. -/
theorem shortPressAppliesOnce : Obligations.ShortPressAppliesOnce := by
  unfold Obligations.ShortPressAppliesOnce
  intro p s ins settle debounce hold hp lines hins low rows
  have run : Leads p ins s (ButtonDone s (climateAfter (buttonOf s.btn).command s.climate)) := by
    obtain ⟨hlen, high⟩ | ⟨hlen, low', high⟩ := rows
    · exact leads_press_confirm settle debounce hp lines hlen hins low high
    · exact leads_press_holdchk settle debounce hold hp lines hlen hins low low' high
  obtain ⟨t, ht, climate, status, released, next, last⟩ := run
  exact ⟨_, _, t, Button.decode_action _, exec_of_wellFormed (Button.command_wellFormed _) s, ht, climate, status,
    released, next, last⟩

end Sys2Proof.Machine
end

