-- ==== Sys2Proof/Proofs/HeldPress.lean ====
section
/-! A held press with its repetitions (the last row of R188, R108, R112, R117): one repetition is a check that applies the
action, a display refresh and the repeat wait, and it leads from SCAN_REPCHK to SCAN_REPCHK. -/

namespace Sys2Proof.Machine

section

variable {p : Params} {s t : State} {c : ClimateState}

/-- A refresh with RET = RET_REPEAT and the repeat wait after it (R184): BTN, the lines and the ClimateState are kept. -/
theorem leads_repeat_refresh {enc done : Inputs} {waits rest : List Inputs} (h : Scanning p s c .encode t)
    (ret : t.ret = .rep) (times : p.TimesPositive) (width : 1 ≤ p.serWidth)
    (hins : NoReset (enc :: (waits ++ done :: rest)))
    (unanswered : ∀ i ∈ waits, i.segErr = false ∧ i.segDone = false) (noErr : done.segErr = false)
    (answered : done.segDone = true) (hlen : rest.length = frameTicks p + p.nRepeat) :
    Leads p (enc :: (waits ++ done :: rest)) t (Scanning p s c .scanRepchk) := by
  obtain ⟨hp, btn, lines, climate, status⟩ := h
  obtain ⟨-, -, -, -, rep, clkLow, clkHigh, -, -⟩ := times
  have parts : enc :: (waits ++ done :: rest) =
      enc :: (waits ++ done :: rest.take (frameTicks p)) ++ rest.drop (frameTicks p) := by simp
  rw [parts] at hins ⊢
  obtain ⟨refresh, repeatWait⟩ := noReset_append.mp hins
  have frameLen : (rest.take (frameTicks p)).length = frameTicks p := List.length_take_of_le (by omega)
  have waitLen : (rest.drop (frameTicks p)).length = p.nRepeat := by rw [List.length_drop]; omega
  have returned := run_refresh p clkLow clkHigh width hp refresh unanswered noErr answered frameLen
  rw [returnFromRefresh_of_rep p (s := frameEnd p t _) ret] at returned
  exact ⟨_, (run_after_run returned _).trans (run_wait_end p rfl rep waitLen repeatWait),
    rfl, btn, lines, climate, status⟩

/-- One repetition applies the action once more. -/
theorem leads_repetition {seg : Nat} {ins : List Inputs} (h : Scanning p s c .scanRepchk t) (times : p.TimesPositive)
    (width : 1 ≤ p.serWidth) (hrep : Repetition p s.btn seg ins) :
    Leads p ins t (Scanning p s (climateAfter (buttonOf s.btn).command c) .scanRepchk) := by
  obtain ⟨hp, btn, lines, climate, status⟩ := h
  obtain ⟨check, enc, waits, done, rest, rfl, hins, low, -, unanswered, noErr, answered, hlen⟩ := hrep
  have checked := tick_scanRepchk_pressed p hins.head hp (btn ▸ low)
  refine (leads_tick checked (P := fun u =>
    Scanning p s (climateAfter (buttonOf s.btn).command c) .encode u ∧ u.ret = .rep) ?_).append
      (rest := enc :: (waits ++ done :: rest)) fun u ⟨hu, ret⟩ => ?_
  · exact ⟨⟨rfl, btn, lines, btn ▸ climate ▸ rfl, status⟩, rfl⟩
  · exact leads_repeat_refresh hu ret times width hins.tail unanswered noErr answered hlen

/-- A repetition has its ticks of R188. -/
theorem Repetition.length_eq {b : BitVec 3} {seg : Nat} {ins : List Inputs} (h : Repetition p b seg ins) :
    ins.length = 1 + seg + frameTicks p + p.nRepeat + 1 := by
  obtain ⟨check, enc, waits, done, rest, rfl, -, -, waitsLen, -, -, -, restLen⟩ := h
  simp only [List.length_cons, List.length_append]
  omega

variable {segs : List Nat} {reps : List (List Inputs)}

theorem length_flatten_repetitions {b : BitVec 3} (h : List.Forall₂ (Repetition p b) segs reps) :
    reps.flatten.length = (segs.map fun seg => (1 + seg + frameTicks p) + p.nRepeat + 1).sum := by
  induction h with
  | nil => rfl
  | cons hrep _ ih => rw [List.flatten_cons, List.length_append, hrep.length_eq, ih, List.map_cons, List.sum_cons]

/-- Any number of repetitions apply the action as many times. -/
theorem leads_repetitions (h : Scanning p s c .scanRepchk t) (times : p.TimesPositive) (width : 1 ≤ p.serWidth)
    (hreps : List.Forall₂ (Repetition p s.btn) segs reps) :
    Leads p reps.flatten t
      (Scanning p s ((climateAfter (buttonOf s.btn).command)^[reps.length] c) .scanRepchk) := by
  induction hreps generalizing t c with
  | nil => exact ⟨t, rfl, h⟩
  | cons hrep _ ih => exact (leads_repetition h times width hrep).append fun u hu => ih hu

/-- The last row up to its first repeat check: low at the three samples, applied once. -/
theorem leads_repchk {lead : List Inputs} (times : p.TimesPositive) (hp : s.phase = .scanDrive) (lines : s.lineMode = 0)
    (hlen : lead.length = p.nSettle + p.nDebounce + p.nHold + p.nRepeat + 4) (hins : NoReset lead)
    (low : ∀ i, lead[p.nSettle + 1]? = some i → i.lineIn.getLsbD (senseOf p s.btn).val = false)
    (low' : ∀ i, lead[p.nSettle + p.nDebounce + 2]? = some i → i.lineIn.getLsbD (senseOf p s.btn).val = false)
    (low'' : ∀ i, lead[p.nSettle + p.nDebounce + p.nHold + 3]? = some i →
      i.lineIn.getLsbD (senseOf p s.btn).val = false) :
    Leads p lead s (Scanning p s (climateAfter (buttonOf s.btn).command s.climate) .scanRepchk) := by
  obtain ⟨-, settle, debounce, hold, rep, -⟩ := times
  obtain ⟨first, rest, rfl, restLen, at_rest, pressed⟩ :=
    leads_holdchk (m := p.nRepeat + 1) settle debounce hold hp lines (by omega) hins low low'
  obtain ⟨-, hrest⟩ := noReset_append.mp hins
  obtain ⟨check, waits, rfl⟩ := List.exists_cons_of_length_eq_add_one restLen
  refine pressed.append fun t ht => ?_
  exact leads_holdchk_pressed ht (low'' check (at_rest 0).symm) rep (Nat.succ.inj restLen) hrest

end

/-- Settles O60: the action is applied in the confirm tick and in each repetition's check, and the released check and the
restore end the scan. -/
theorem heldPressAppliesOncePerRepeat : Obligations.HeldPressAppliesOncePerRepeat := by
  unfold Obligations.HeldPressAppliesOncePerRepeat
  intro p s lead reps segs last restore times width hp lines hins hlen low low' low'' hreps high
  obtain ⟨hlead, hends⟩ := noReset_append.mp hins
  refine ⟨?_, ?_⟩
  · simp only [List.length_append, length_flatten_repetitions hreps, hlen, List.length_cons, List.length_nil]
    omega
  · have run : Leads p (lead ++ (reps.flatten ++ [last, restore])) s
        (ButtonDone s ((climateAfter (buttonOf s.btn).command)^[reps.length + 1] s.climate)) := by
      refine (leads_repchk times hp lines hlen hlead low low' low'').append fun t ht => ?_
      refine (leads_repetitions ht times width hreps).append fun u hu => ?_
      refine (leads_released hu (.inr (.inr rfl)) high hends.head).append (rest := [restore]) fun v hv => ?_
      exact leads_restore hv hends.tail.head
    obtain ⟨t, ht, climate, status, released, next, last⟩ := run
    have applied := execAll_replicate_succ (Button.command_wellFormed (buttonOf s.btn)) reps.length s
    rw [Nat.add_comm 1 reps.length]
    exact ⟨_, _, t, Button.decode_action _, applied, ht, climate, status, released, next, last⟩

end Sys2Proof.Machine
end

