-- ==== Sys2Proof/Proofs/FrameSignals.lean ====
section
/-! The digits of a value (R123), and every signal of the two frame words in a legal layout (R131, R132): the remaining
members of the two signal lists, and the bits that are no signal's. -/

namespace Sys2Proof.Machine

/-! The digits (R123) -/

/-- Below 200 the magnitude is its hundred, its tens and its ones. -/
theorem natAbs_eq_digits {v : Int} (h : v.natAbs ≤ 199) :
    v.natAbs = (if (decompose v).hund then 100 else 0) + 10 * (decompose v).tens + (decompose v).ones := by
  by_cases hund : 100 ≤ v.natAbs
  · have below : belowHundred v.natAbs = v.natAbs - 100 := if_pos hund
    simp only [decompose, below, hund, decide_true, if_true]
    omega
  · have below : belowHundred v.natAbs = v.natAbs := if_neg hund
    simp only [decompose, below, hund, decide_false, Bool.false_eq_true, if_false]
    omega

/-- Settles O31: the two flags are their conditions, and the digits are those of the magnitude below the hundred. -/
theorem decomposeIsThePositionalSplit : Obligations.DecomposeIsThePositionalSplit := by
  unfold Obligations.DecomposeIsThePositionalSplit
  intro v lo hi
  have magnitude : v.natAbs ≤ 199 := by omega
  obtain ⟨tens, ones⟩ := decompose_bounds v magnitude
  exact ⟨decide_eq_true_iff, decide_eq_true_iff, tens, ones, natAbs_eq_digits magnitude⟩

/-! The segment word (R131) -/

section

variable (p : Params) (c : ClimateState)

theorem setOnes_mem_segSignals (k : Fin 7) :
    (p.segLayout.setOnes.get k, (seg7 (BitVec.ofNat 4 (decompose c.setTemp.toInt).ones)).getLsbD k.val) ∈
      segSignals p c := by
  rw [segSignals, List.mem_append]
  exact .inl (List.mem_map_of_mem (List.mem_finRange k))

theorem face_mem_segSignals :
    (p.segLayout.face, ((modeEntry p c.mode).map ModeLit.face).getD false) ∈ segSignals p c := by
  simp [segSignals]

theorem feet_mem_segSignals :
    (p.segLayout.feet, ((modeEntry p c.mode).map ModeLit.feet).getD false) ∈ segSignals p c := by
  simp [segSignals]

theorem defrost_mem_segSignals :
    (p.segLayout.defrost, ((modeEntry p c.mode).map ModeLit.defrost).getD false) ∈ segSignals p c := by
  simp [segSignals]

theorem bg_mem_segSignals :
    (p.segLayout.bg, ((modeEntry p c.mode).map ModeLit.bg).getD false) ∈ segSignals p c := by
  simp [segSignals]

theorem defText_mem_segSignals :
    (p.segLayout.defText, ((modeEntry p c.mode).map ModeLit.defText).getD false) ∈ segSignals p c := by
  simp [segSignals]

theorem ac_mem_segSignals : (p.segLayout.ac, c.acOn) ∈ segSignals p c := by simp [segSignals]

theorem segWordOf_getLsbD_of_not_mem {k : Nat} (h : k ∉ p.segLayout.positions) :
    (segWordOf p c).getLsbD k = false := by
  rw [← segSignals_positions p c] at h
  rw [segWordOf_eq, BitVec.getLsbD_ofNat, testBit_orBits_of_not_mem h, Bool.and_false]

/-! The serial word (R132) -/

theorem ambOnes_mem_serSignals (k : Fin 7) :
    (p.serLayout.ambOnes.get k, (seg7 (BitVec.ofNat 4 (decompose c.ambientTemp.toInt).ones)).getLsbD k.val) ∈
      serSignals p c := by
  simp only [serSignals, List.mem_append]
  exact .inl (.inl (.inl (.inl (.inl (List.mem_map_of_mem (List.mem_finRange k))))))

theorem ambTens_mem_serSignals (k : Fin 7) :
    (p.serLayout.ambTens.get k, (seg7 (BitVec.ofNat 4 (decompose c.ambientTemp.toInt).tens)).getLsbD k.val) ∈
      serSignals p c := by
  simp only [serSignals, List.mem_append]
  exact .inl (.inl (.inl (.inl (.inr (List.mem_map_of_mem (List.mem_finRange k))))))

theorem ambSign_mem_serSignals : (p.serLayout.ambSign, (decompose c.ambientTemp.toInt).neg) ∈ serSignals p c := by
  simp [serSignals]

theorem ambHundred_mem_serSignals :
    (p.serLayout.ambHundred, (decompose c.ambientTemp.toInt).hund) ∈ serSignals p c := by
  simp [serSignals]

theorem serWordOf_testBit_of_not_mem {k : Nat} (h : k ∉ p.serLayout.positions) :
    (serWordOf p c).testBit k = false := by
  rw [← serSignals_positions p c] at h
  rw [serWordOf_eq, Nat.testBit_mod_two_pow, testBit_orBits_of_not_mem h, Bool.and_false]

end

/-- Settles O33: each clause is a member of the list of segment signals, and the last one is about no member. -/
theorem segmentWordCarriesEverySignal : Obligations.SegmentWordCarriesEverySignal := by
  unfold Obligations.SegmentWordCarriesEverySignal
  intro p c legal
  have shows {k : Nat} {lit : Bool} (h : (k, lit) ∈ segSignals p c) : (segWordOf p c).getLsbD k = lit :=
    segWordOf_getLsbD_of_legal legal h
  exact ⟨fun k => shows (setOnes_mem_segSignals p c k), shows (face_mem_segSignals p c), shows (feet_mem_segSignals p c),
    shows (defrost_mem_segSignals p c), shows (bg_mem_segSignals p c), shows (defText_mem_segSignals p c),
    shows (recircOn_mem_segSignals p c), shows (freshAir_mem_segSignals p c), shows (ac_mem_segSignals p c),
    shows (unitF_mem_segSignals p c), shows (unitC_mem_segSignals p c), fun k => segWordOf_getLsbD_of_not_mem p c⟩

/-- Settles O34: the same for the list of serial signals. -/
theorem serialWordCarriesEverySignal : Obligations.SerialWordCarriesEverySignal := by
  unfold Obligations.SerialWordCarriesEverySignal
  intro p c legal
  have shows {k : Nat} {lit : Bool} (h : (k, lit) ∈ serSignals p c) : (serWordOf p c).testBit k = lit :=
    serWordOf_testBit_of_mem legal h
  exact ⟨fun k => shows (ambOnes_mem_serSignals p c k), fun k => shows (ambTens_mem_serSignals p c k),
    fun k => shows (setTens_mem_serSignals p c k), shows (ambSign_mem_serSignals p c),
    shows (ambHundred_mem_serSignals p c), shows (setSign_mem_serSignals p c), shows (setHundred_mem_serSignals p c),
    fun k => shows (gauge_mem_serSignals p c k), fun k => serWordOf_testBit_of_not_mem p c⟩

end Sys2Proof.Machine
end

