-- ==== Sys2Proof/Proofs/OutputPorts.lean ====
section
/-! The output ports as functions of the registers (R40 to R43): the codes of the LED, gauge and fault ports, the serial lines,
and which activities exclude one another (R179). -/

namespace Sys2Proof.Machine

/-! The codes -/

/-- led_mode is one-hot in MODE (R41). -/
theorem ledModeOf_getLsbD : ∀ (m : BitVec 3) (k : Nat), k < 5 → ((ledModeOf m).getLsbD k = true ↔ m.toNat = k) := by
  decide

/-- led_fan shows the three fan levels, one bit each (R41). -/
theorem ledFanOf_getLsbD (v : BitVec 8) :
    ((ledFanOf v).getLsbD 0 = true ↔ v = 0) ∧ ((ledFanOf v).getLsbD 1 = true ↔ v = 50) ∧
      ((ledFanOf v).getLsbD 2 = true ↔ v = 100) := by
  unfold ledFanOf
  split_ifs with off low high
  · simp [off]
  · simp [low]
  · simp [high]
  · simpa using ⟨off, low, high⟩

theorem gaugePort_of_level {v : Int} {k : Fin 11} (h : gaugeLevel v = some k) : (gaugePort v).toNat = k.val := by
  rw [gaugePort, h, BitVec.toNat_ofNat]
  omega

theorem gaugePort_of_none {v : Int} (h : gaugeLevel v = none) : gaugePort v = 15 := by
  rw [gaugePort, h]

/-- gauge_level is the truncated map in [60, 90] (R84, R125). -/
theorem gaugePort_toNat {v : Int} (lo : 60 ≤ v) (hi : v ≤ 90) : ((gaugePort v).toNat : Int) = (v - 60) * 10 / 30 := by
  obtain ⟨k, hk⟩ := exists_gaugeLevel_eq_some lo hi
  obtain ⟨-, -, reached, below⟩ := (gaugeLevel_eq_some_iff v k).mp hk
  rw [gaugePort_of_level hk]
  omega

theorem gaugePort_range (v : Int) : (gaugePort v).toNat ≤ 10 ∨ gaugePort v = 15 := by
  cases h : gaugeLevel v with
  | none => exact .inr (gaugePort_of_none h)
  | some k =>
    rw [gaugePort_of_level h]
    exact .inl (Nat.le_of_lt_succ k.isLt)

/-- The codes of FAULT_CAUSE (R201). -/
theorem faultCause_code_iff (f : FaultCause) : (f.code = 0 ↔ f = .none) ∧ (f.code = 1 ↔ f = .adcFail) ∧
    (f.code = 2 ↔ f = .segWriteFail) ∧ (f.code = 3 ↔ f = .thermDomain) := by
  cases f <;> decide

/-! The serial lines (R43, R168) -/

theorem serClkOf_eq_false_iff (s : State) : serClkOf s = false ↔ s.phase = .serLo := by
  simp [serClkOf]

theorem serDataOf_of_shifting {s : State} (h : s.phase = .serLo ∨ s.phase = .serHi) :
    serDataOf s = s.serWord.testBit s.bitk := by
  obtain hp | hp := h <;> simp [serDataOf, hp]

/-- Settles O39: every port is its register, the code of one, or a comparison of PHASE, SYNC_PHASE or FAULT_CAUSE with a
value; a phase with a request is neither another request's nor one that shifts. -/
theorem outputsMirrorTheRegisters : Obligations.OutputsMirrorTheRegisters := by
  unfold Obligations.OutputsMirrorTheRegisters
  intro p s d
  have idle (h : ¬Shifting s.phase) := serial_idle_of_not_shifting p d h
  obtain ⟨noFault, adc, seg, therm⟩ := faultCause_code_iff s.faultCause
  obtain ⟨off, low, high⟩ := ledFanOf_getLsbD s.climate.fanLevel
  refine ⟨⟨fun k hk => ledModeOf_getLsbD _ k hk, rfl, rfl, off, low, high⟩, ⟨rfl, rfl, rfl, rfl, rfl, rfl, rfl⟩,
    ⟨fun lo hi => gaugePort_toNat lo hi, fun out => gaugePort_of_none (gaugeLevel_eq_none out), gaugePort_range _⟩,
    ⟨rfl, beq_iff_eq, beq_iff_eq, beq_iff_eq, noFault, adc, seg, therm⟩,
    ⟨serClkOf_eq_false_iff s, serDataOf_of_shifting, fun lo hi => idle (not_or.mpr ⟨lo, hi⟩)⟩,
    ⟨beq_iff_eq, rfl, beq_iff_eq, rfl, rfl, rfl⟩, ⟨fun req => ?_, fun req => ?_⟩, rfl⟩
  · have hp : s.phase = .tempSample := beq_iff_eq.mp req
    exact ⟨beq_false_of_ne (by simp [hp]), idle (by simp [hp])⟩
  · have hp : s.phase = .segTx := beq_iff_eq.mp req
    exact ⟨beq_false_of_ne (by simp [hp]), idle (by simp [hp])⟩

end Sys2Proof.Machine
end

