-- ==== Sys2Proof/Proofs/TemperatureConversion.lean ====
section
/-! The temperature stage as a whole: the sum of 128 readings (R140, R141, R156), the TEMP_CONVERT tick (R143), and that tick
with a THERM_FN that conforms to a calibration (R149, R151). -/

namespace Sys2Proof.Machine

/-! The readings (R141, R154) -/

/-- The sum of the answered readings in these ticks. -/
def readingSum (p : Params) (ins : List Inputs) : Nat := ((ins.filter (·.adcValid)).map (adcReading p)).sum

section

variable (p : Params)

theorem tick_reading {inp : Inputs} {s : State} (hr : inp.rst = false) (hp : s.phase = .tempSample)
    (noErr : inp.adcErr = false) (valid : inp.adcValid = true) (more : s.cnt.toNat + 1 ≠ 128) :
    tick p inp s = .next
      ((s.writeSum (s.cnt + 1) (s.acc + adcReading p inp)).writeSync (syncStep p inp s.sync)) := by
  rw [tick_tempSample p hr hp, stepTempSample_answered p s noErr valid, acceptReading,
    if_neg (show ¬s.cnt.toNat + 1 = avgN from more)]
  rfl

theorem tick_lastReading {inp : Inputs} {s : State} (hr : inp.rst = false) (hp : s.phase = .tempSample)
    (noErr : inp.adcErr = false) (valid : inp.adcValid = true) (last : s.cnt.toNat + 1 = 128) :
    tick p inp s = .next (((s.writeSum (s.cnt + 1) (s.acc + adcReading p inp)).goto .tempConvert).writeSync
      (syncStep p inp s.sync)) := by
  rw [tick_tempSample p hr hp, stepTempSample_answered p s noErr valid, acceptReading,
    if_pos (show s.cnt.toNat + 1 = avgN from last)]

theorem tick_noReading {inp : Inputs} {s : State} (hr : inp.rst = false) (hp : s.phase = .tempSample)
    (noErr : inp.adcErr = false) (notValid : inp.adcValid = false) :
    tick p inp s = .next (s.writeSync (syncStep p inp s.sync)) := by
  rw [tick_tempSample p hr hp, stepTempSample_unanswered p s noErr notValid]

/-- Before the 128th answer the stage has counted and summed the answers, and nothing else. -/
theorem run_readings {ins : List Inputs} {s : State} (hp : s.phase = .tempSample) (hins : NoReset ins)
    (noErr : ∀ i ∈ ins, i.adcErr = false) (few : s.cnt.toNat + (ins.filter (·.adcValid)).length < 128) :
    run p ins s = .next { s with
      cnt := s.cnt + BitVec.ofNat 8 (ins.filter (·.adcValid)).length, acc := s.acc + readingSum p ins,
      sync := syncRun p ins s.sync } := by
  induction ins generalizing s with
  | nil => simp [readingSum]
  | cons i rest ih =>
    have noErr' : ∀ j ∈ rest, j.adcErr = false := fun j hj => noErr j (List.mem_cons_of_mem i hj)
    cases valid : i.adcValid with
    | false =>
      have skipped : (i :: rest).filter (·.adcValid) = rest.filter (·.adcValid) :=
        List.filter_cons_of_neg (by simp [valid])
      rw [skipped] at few ⊢
      rw [run_after_tick (tick_noReading p hins.head hp (noErr i List.mem_cons_self) valid),
        ih (s := s.writeSync (syncStep p i s.sync)) hp hins.tail noErr' few, readingSum, readingSum, skipped]
      rfl
    | true =>
      have taken : (i :: rest).filter (·.adcValid) = i :: rest.filter (·.adcValid) :=
        List.filter_cons_of_pos (by simp [valid])
      rw [taken, List.length_cons] at few
      have count : (s.cnt + 1).toNat = s.cnt.toNat + 1 := by bv_omega
      have total : s.cnt + BitVec.ofNat 8 (rest.filter (·.adcValid)).length.succ =
          s.cnt + 1 + BitVec.ofNat 8 (rest.filter (·.adcValid)).length := by
        bv_omega
      rw [run_after_tick (tick_reading p hins.head hp (noErr i List.mem_cons_self) valid (by omega)),
        ih (s := (s.writeSum (s.cnt + 1) (s.acc + adcReading p i)).writeSync (syncStep p i s.sync)) hp hins.tail noErr'
          (by simp only [writeSync_cnt, writeSum_cnt]; omega),
        readingSum, readingSum, taken, List.length_cons, total, List.map_cons, List.sum_cons, ← Nat.add_assoc]
      rfl

/-- The whole stage: 127 answers among any ticks, and the 128th. -/
theorem run_stage {ins : List Inputs} {last : Inputs} {s : State} (hp : s.phase = .tempSample) (cnt : s.cnt = 0)
    (acc : s.acc = 0) (hins : NoReset (ins ++ [last])) (noErr : ∀ i ∈ ins ++ [last], i.adcErr = false)
    (valid : last.adcValid = true) (count : (ins.filter (·.adcValid)).length = 127) :
    (∃ t, run p ins s = .next t ∧ t.phase = .tempSample) ∧
      run p (ins ++ [last]) s = .next { s with
        phase := .tempConvert, cnt := 128, acc := readingSum p (ins ++ [last]),
        sync := syncRun p (ins ++ [last]) s.sync } := by
  obtain ⟨before, hlast⟩ := noReset_append.mp hins
  have counted := run_readings p hp before (fun i hi => noErr i (List.mem_append_left _ hi))
    (by rw [cnt, count]; decide)
  rw [cnt, acc, count] at counted
  have ends := tick_lastReading p (s := { s with
    cnt := 0 + BitVec.ofNat 8 127, acc := 0 + readingSum p ins, sync := syncRun p ins s.sync }) hlast.head hp
    (noErr last List.mem_concat_self) valid rfl
  have sum : readingSum p (ins ++ [last]) = 0 + readingSum p ins + adcReading p last := by
    simp [readingSum, valid]
  refine ⟨⟨_, counted, hp⟩, ?_⟩
  rw [run_after_run counted, run_after_tick ends, sum, syncRun_append]
  rfl

end

/-- Settles O42: the 127 answers are counted and summed in TEMP_SAMPLE, and the 128th ends the phase. -/
theorem stageSums128Readings : Obligations.StageSums128Readings := by
  unfold Obligations.StageSums128Readings
  exact fun p s ins last hp cnt acc hins noErr valid count => run_stage p hp cnt acc hins noErr valid count

/-! The conversion (R143) -/

theorem tick_tempConvert_none (p : Params) {inp : Inputs} {s : State} (hr : inp.rst = false)
    (hp : s.phase = .tempConvert) (domain : p.thermFn (average s.acc) = none) :
    tick p inp s = .next ((s.raiseFatal .thermDomain).writeSync (syncStep p inp s.sync)) := by
  rw [← stepTempConvert_domain domain]
  exact tick_main p hr (by simp [hp]) (by rw [mainStep, hp])

/-- Settles O43: the tick has one equation for DOMAIN and one for a value. -/
theorem tempConvertWritesAmbient : Obligations.TempConvertWritesAmbient := by
  unfold Obligations.TempConvertWritesAmbient
  exact fun p inp s hr hp => ⟨fun domain => tick_tempConvert_none p hr hp domain,
    fun v value => tick_tempConvert_some p hr hp value⟩

/-! A THERM_FN that conforms (R149, R151) -/

theorem thermReference_eq_none_iff (cal : Calibration) (c : Nat) : thermReference cal c = none ↔ OutOfDomain cal c := by
  unfold thermReference
  split
  next out => exact iff_of_true rfl out
  next inside => exact iff_of_false nofun inside

theorem thermReference_of_inDomain {cal : Calibration} {c : Nat} (h : ¬OutOfDomain cal c) :
    thermReference cal c = some (quantize (exactCelsius cal c)) :=
  if_neg h

/-- Settles O44: DOMAIN is answered exactly on the codes out of the domain, and on the others the tick writes what THERM_FN
answers, which `therm_close` compares with the reference. -/
theorem conformingConversion : Obligations.ConformingConversion := by
  unfold Obligations.ConformingConversion
  intro p cal inp s domain close hr hp
  have out_iff : p.thermFn (average s.acc) = none ↔ OutOfDomain cal (average s.acc) :=
    (domain _).trans (thermReference_eq_none_iff cal _)
  cases answer : p.thermFn (average s.acc) with
  | none =>
    have out : OutOfDomain cal (average s.acc) := out_iff.mp answer
    refine ⟨_, tick_tempConvert_none p hr hp answer, fun _ => ⟨rfl, rfl, rfl⟩, fun pos below inv => ?_⟩
    exact absurd out (not_or.mpr ⟨pos, not_or.mpr ⟨Nat.not_le.mpr below, not_le.mpr inv⟩⟩)
  | some v =>
    have inside : ¬OutOfDomain cal (average s.acc) := fun out => nomatch answer.symm.trans (out_iff.mpr out)
    obtain ⟨near, exact_value⟩ := close _ _ _ answer (thermReference_of_inDomain inside)
    exact ⟨_, tick_tempConvert_some p hr hp answer, fun out => absurd out inside, fun _ _ _ => ⟨rfl, near, exact_value⟩⟩

end Sys2Proof.Machine
end

