-- ==== Sys2Proof/Proofs/DieTemperature.lean ====
section
/-! The die sensor (R150 to R152): the exact value is a ratio of integers, so its corner values, its distance from the ties and
its range are facts of integer arithmetic; and the machine's DIE_FN differs from it only where R151 (c) lets it. -/

namespace Sys2Proof.Machine

/-- The exact value lies on a half-integer exactly when an integer equation holds. -/
theorem exactDie_eq_half_iff (c : BitVec 12) (k : Int) :
    exactDie c.toNat = (k : ℝ) + 1 / 2 ↔ 2 * dieNumerator c = (2 * k + 1) * dieDenominator := by
  have denominator : (dieDenominator : ℝ) ≠ 0 := by norm_num [dieDenominator]
  rw [exactDie_eq, div_eq_iff denominator, ← @Int.cast_inj ℝ]
  push_cast
  constructor <;> intro h <;> linarith

/-- That equation has no solution among the 4096 codes. -/
theorem dieNumerator_no_tie (c : BitVec 12) (k : Int) : 2 * dieNumerator c ≠ (2 * k + 1) * dieDenominator := by
  have code := c.isLt
  unfold dieNumerator dieDenominator
  omega

/-- The rounded value falls with the code, from that of code 0 to that of code 4095. -/
theorem dieReference_bounds (c : BitVec 12) : -14798 ≤ dieReference c ∧ dieReference c ≤ 4372 := by
  have code := c.isLt
  unfold dieReference rndHalfAwayRatio dieNumerator dieDenominator
  split_ifs <;> omega

/-- A conforming DIE_FN fits 16 bits. -/
theorem dieClose_bounds {f : BitVec 12 → Int} (h : DieClose f) (c : BitVec 12) : -14799 ≤ f c ∧ f c ≤ 4373 := by
  obtain ⟨near, -⟩ := h c
  rw [← dieReference_eq, abs_le] at near
  have bounds := dieReference_bounds c
  omega

/-- In the codes `dieNearTie` names the exact value is less than 0.01 from a half-integer: its quotient and a half. -/
theorem dieNearTie_not_away {c : BitVec 12} (h : dieNearTie c = true) : ¬AwayFromTies (exactDie c.toNat) := by
  intro away
  have positive : (0 : ℝ) < dieDenominator := by norm_num [dieDenominator]
  obtain ⟨r, hr⟩ := Int.eq_ofNat_of_zero_le (Int.emod_nonneg (dieNumerator c) (by decide : (dieDenominator : Int) ≠ 0))
  have numerator := Int.emod_add_mul_ediv (dieNumerator c) dieDenominator
  simp only [dieNearTie, hr, Int.toNat_natCast, Bool.and_eq_true, decide_eq_true_eq] at h
  rw [hr] at numerator
  generalize dieNumerator c / (dieDenominator : Int) = q at numerator
  have remainder : |2 * (r : Int) - dieDenominator| * 50 < dieDenominator := by
    obtain ⟨sign, -⟩ | ⟨sign, -⟩ := abs_cases (2 * (r : Int) - dieDenominator) <;> rw [sign] <;> omega
  have distance : exactDie c.toNat - ((q : ℝ) + 1 / 2) = (2 * r - dieDenominator) / (2 * dieDenominator) := by
    rw [exactDie_eq, ← numerator]
    push_cast
    field_simp
    ring
  have far := away q
  rw [distance, abs_div, abs_of_pos (show (0 : ℝ) < 2 * dieDenominator by linarith),
    le_div_iff₀ (by linarith)] at far
  have near : |2 * (r : ℝ) - dieDenominator| * 50 < dieDenominator := by exact_mod_cast remainder
  linarith

/-- The machine's DIE_FN, whatever its free rounding is (R151 (c)). -/
theorem dieFn_close : DieClose Config.dieFn := by
  intro c
  rw [← dieReference_eq, Config.dieFn]
  split_ifs with tie
  · refine ⟨?_, fun away => absurd away (dieNearTie_not_away tie)⟩
    have rounding := (Config.freeDieRounding c).isLt
    rw [abs_le]
    omega
  · exact ⟨by simp, fun _ => rfl⟩

/-- Settles O45: corner values, ties and range are those of the integer ratio, a conforming DIE_FN fits the port, and the
machine's differs from the reference by at most one, near a tie only. -/
theorem dieFnConforms : Obligations.DieFnConforms := by
  unfold Obligations.DieFnConforms
  have corner {c : BitVec 12} {v : Int} (h : dieReference c = v) : rndHalfAway (exactDie c.toNat) = v :=
    dieReference_eq c ▸ h
  refine ⟨⟨corner (c := 0) (by decide), corner (c := 876) (by decide), corner (c := 877) (by decide),
    corner (c := 4095) (by decide)⟩, fun c k => ?_, fun c => ?_, fun p s c close => ?_, ?_⟩
  · exact mt (exactDie_eq_half_iff c k).mp (dieNumerator_no_tie c k)
  · rw [← dieReference_eq]
    exact dieReference_bounds c
  · have bounds := dieClose_bounds close c
    have port : (outputs p s c).dieTemp = BitVec.ofInt 16 (p.dieFn c) := rfl
    rw [port, BitVec.toInt_ofInt, Int.bmod_eq_of_le] <;> omega
  · rw [machine_dieFn]
    exact dieFn_close

end Sys2Proof.Machine
end

