-- ==== Sys2Proof/Proofs/SyncPulse.lean ====
section
/-! The sync pulse (R172 to R174, R176): a pulse under way over its whole length, and SYNC's step in the block's tick. -/

namespace Sys2Proof.Machine

section

variable (p : Params)

/-- A pulse that is not over has only counted. -/
theorem syncRun_pulse_count {ins : List Inputs} {r : SyncRegs} (hp : r.phase = .sPulse) (hlen : ins.length < r.timer) :
    (syncRun p ins r).phase = .sPulse ∧ (syncRun p ins r).timer = r.timer - ins.length := by
  induction ins generalizing r with
  | nil => exact ⟨hp, rfl⟩
  | cons i rest ih =>
    rw [List.length_cons] at hlen ⊢
    have counted : syncStep p i r = { r with timer := r.timer - 1, prev := i.syncIn } :=
      (syncStep_pulse p i hp).trans (if_pos (by omega))
    obtain ⟨phase, timer⟩ := ih (r := { r with timer := r.timer - 1, prev := i.syncIn }) hp (Nat.lt_sub_of_add_lt hlen)
    rw [syncRun, counted]
    exact ⟨phase, by rw [timer, Nat.sub_sub, Nat.add_comm]⟩

/-- A pulse ends with the tick that finds SYNC_TIMER = 1. -/
theorem syncRun_pulse_end {ins : List Inputs} {r : SyncRegs} (hp : r.phase = .sPulse) (hpos : 1 ≤ r.timer)
    (hlen : ins.length = r.timer) : (syncRun p ins r).phase = .sIdle := by
  obtain rfl | ⟨before, last, rfl⟩ := ins.eq_nil_or_concat'
  · exact absurd hlen (Nat.ne_of_lt hpos)
  · rw [List.length_append, List.length_singleton] at hlen
    obtain ⟨phase, timer⟩ := syncRun_pulse_count p (ins := before) hp (by omega)
    have ended : ¬1 < (syncRun p before r).timer := by omega
    rw [syncRun_append, syncRun, syncRun_nil, syncStep_pulse p last phase, if_neg ended]

end

/-- Settles O49: the edge loads SYNC_TIMER, a pulse counts it down, no edge keeps S_IDLE, and the tick makes this step beside
MAIN's. -/
theorem syncPulseLastsItsWidth : Obligations.SyncPulseLastsItsWidth := by
  unfold Obligations.SyncPulseLastsItsWidth
  refine ⟨fun p r first rest => ⟨fun pos hp edge hlen => ?_, fun hp noEdge => ?_, fun ins last => ?_⟩,
    fun p inp s hr hf => ?_⟩
  · have started := syncStep_edge p first hp ((syncEdgeSeen_iff p _ _).mpr edge)
    refine ⟨fun k hk => ?_, ?_⟩
    · have taken : (rest.take k).length = k := List.length_take_of_le (by omega)
      obtain ⟨phase, timer⟩ := syncRun_pulse_count p (ins := rest.take k)
        (r := { phase := .sPulse, timer := p.nSyncPulse, prev := first.syncIn }) rfl (taken.trans_lt hk)
      rw [syncRun, started]
      exact ⟨phase, timer.trans (by rw [taken])⟩
    · rw [syncRun, started]
      exact syncRun_pulse_end p rfl pos hlen
  · exact syncStep_no_edge p first hp (Bool.eq_false_of_not_eq_true (mt (syncEdgeSeen_iff p _ _).mp noEdge))
  · rw [syncRun_append]
    exact syncStep_prev p last _
  · obtain ⟨u, hu, -⟩ := mainStep_next p inp s
    exact ⟨_, tick_main p hr hf hu, rfl, fun d => beq_iff_eq⟩

end Sys2Proof.Machine
end

