-- ==== Sys2Proof/Proofs/UpdateCycle.lean ====
section
/-! The undisturbed update cycle (R188, R222), part by part: IDLE, the temperature stage, the scan pass over eight unpressed
buttons, and the display refresh. -/

namespace Sys2Proof.Machine

/-! Undisturbed ticks -/

section

variable {ins first rest : List Inputs}

theorem undisturbed_append : Undisturbed (first ++ rest) ↔ Undisturbed first ∧ Undisturbed rest :=
  List.forall_mem_append

theorem Undisturbed.noReset (h : Undisturbed ins) : NoReset ins := fun i hi => (h i hi).1

theorem Undisturbed.noWord (h : Undisturbed ins) : ∀ i ∈ ins, i.cmdValid = false := by
  intro i hi
  obtain ⟨-, -, noWord, -⟩ := h i hi
  exact noWord

theorem Undisturbed.adcAnswered (h : Undisturbed ins) : ∀ i ∈ ins, i.adcErr = false ∧ i.adcValid = true := by
  intro i hi
  obtain ⟨-, -, -, noErr, valid, -⟩ := h i hi
  exact ⟨noErr, valid⟩

/-- No button is pressed: every line reads high. -/
theorem Undisturbed.high (h : Undisturbed ins) (line : Fin 6) : ∀ i ∈ ins, i.lineIn.getLsbD line.val = true := by
  intro i hi
  obtain ⟨-, lines, -⟩ := h i hi
  rw [lines, BitVec.getLsbD_allOnes]
  exact decide_eq_true line.isLt

/-- Every ADC request is answered, so every tick is a reading. -/
theorem Undisturbed.filter_valid (h : Undisturbed ins) : ins.filter (·.adcValid) = ins :=
  List.filter_eq_self.mpr fun i hi => (h.adcAnswered i hi).2

theorem exists_append_of_length {n m : Nat} (h : ins.length = n + m) :
    ∃ first rest : List Inputs, ins = first ++ rest ∧ first.length = n ∧ rest.length = m :=
  ⟨ins.take n, ins.drop n, (List.take_append_drop n ins).symm, List.length_take_of_le (by omega),
    by rw [List.length_drop]; omega⟩

end

/-- MAIN is in this phase with all lines released, this ClimateState and this CMD_STATUS. -/
structure Released (c : ClimateState) (b : Bool) (ph : Phase) (t : State) : Prop where
  phase : t.phase = ph
  lineMode : t.lineMode = 0
  climate : t.climate = c
  cmdStatus : t.cmdStatus = b

section

variable {p : Params} {s : State} {c : ClimateState} {b : Bool} {ins : List Inputs}

/-! IDLE (R181) -/

/-- IDLE without a command, up to the tick that goes on. -/
theorem run_idle_quiet (pos : 1 ≤ p.nGap) (hp : s.phase = .idle) (timer : s.timer = p.nGap) (hins : Undisturbed ins)
    (hlen : ins.length = p.nGap) :
    run p ins s = .next { idleAdvance p { s with timer := 1 } with
      climate := s.climate, cmdStatus := s.cmdStatus, sync := syncRun p ins s.sync } := by
  obtain ⟨c, b, kept, ends⟩ := run_idle_end p hp (by omega) (by omega) hins.noReset
  obtain ⟨rfl, rfl⟩ := kept hins.noWord
  exact ends

theorem leads_idle_stage (stage : p.tempStageEn = true) (pos : 1 ≤ p.nGap) (h : Released c b .idle s)
    (timer : s.timer = p.nGap) (hins : Undisturbed ins) (hlen : ins.length = p.nGap) :
    Leads p ins s fun t => Released c b .tempSample t ∧ t.cnt = 0 ∧ t.acc = 0 := by
  obtain ⟨hp, lines, climate, status⟩ := h
  have ends := run_idle_quiet pos hp timer hins hlen
  rw [idleAdvance_end p le_rfl, if_pos stage] at ends
  exact ⟨_, ends, ⟨rfl, lines, climate, status⟩, rfl, rfl⟩

theorem leads_idle_scan (noStage : p.tempStageEn = false) (pos : 1 ≤ p.nGap) (h : Released c b .idle s)
    (timer : s.timer = p.nGap) (hins : Undisturbed ins) (hlen : ins.length = p.nGap) :
    Leads p ins s fun t => Released c b .scanDrive t ∧ t.btn = 0 := by
  obtain ⟨hp, lines, climate, status⟩ := h
  have ends := run_idle_quiet pos hp timer hins hlen
  rw [idleAdvance_end p le_rfl, if_neg (by simp [noStage])] at ends
  exact ⟨_, ends, ⟨rfl, lines, climate, status⟩, rfl⟩

/-! The temperature stage (R141, R143) -/

/-- 128 readings in 128 ticks. -/
theorem leads_readings (h : Released c b .tempSample s) (cnt : s.cnt = 0) (acc : s.acc = 0) (hins : Undisturbed ins)
    (hlen : ins.length = 128) :
    Leads p ins s fun t => Released c b .tempConvert t ∧ t.acc = (ins.map (adcReading p)).sum := by
  obtain ⟨hp, lines, climate, status⟩ := h
  obtain rfl | ⟨before, last, rfl⟩ := ins.eq_nil_or_concat'
  · cases hlen
  · obtain ⟨hbefore, -⟩ := undisturbed_append.mp hins
    have noErr : ∀ i ∈ before ++ [last], i.adcErr = false := fun i hi => (hins.adcAnswered i hi).1
    obtain ⟨-, valid⟩ := hins.adcAnswered last List.mem_concat_self
    have count : (before.filter (·.adcValid)).length = 127 := by
      rw [hbefore.filter_valid]
      simpa using hlen
    obtain ⟨-, ends⟩ := run_stage p hp cnt acc hins.noReset noErr valid count
    exact ⟨_, ends, ⟨rfl, lines, climate, status⟩, by rw [readingSum, hins.filter_valid]⟩

theorem leads_convert {i : Inputs} {v : BitVec 8} (h : Released c b .tempConvert s)
    (value : p.thermFn (average s.acc) = some v) (hr : i.rst = false) :
    Leads p [i] s fun t => Released { c with ambientTemp := v } b .scanDrive t ∧ t.btn = 0 := by
  obtain ⟨hp, lines, climate, status⟩ := h
  exact leads_tick (tick_tempConvert_some p hr hp value) ⟨⟨rfl, lines, climate ▸ rfl, status⟩, rfl⟩

/-! The scan pass (R110) -/

/-- The last `n + 1` buttons of a pass, none of them pressed. -/
theorem leads_pass (n : Nat) (settle : 1 ≤ p.nSettle) (h : Released c b .scanDrive s) (btn : s.btn.toNat + n = 7)
    (hins : Undisturbed ins) (hlen : ins.length = (n + 1) * (p.nSettle + 3)) :
    Leads p ins s fun t => Released c b .encode t ∧ t.ret = .idle := by
  induction n generalizing s ins with
  | zero =>
    obtain ⟨hp, lines, rfl, rfl⟩ := h
    have high : ∀ i, ins[p.nSettle + 1]? = some i → i.lineIn.getLsbD (senseOf p s.btn).val = true :=
      fun i hi => hins.high _ i (List.mem_of_getElem? hi)
    obtain ⟨t, ht, climate, status, released, -, last⟩ :=
      leads_unpressed settle hp lines (by omega) hins.noReset high
    obtain ⟨phase, ret, -⟩ := last btn
    exact ⟨t, ht, ⟨phase, released, climate, status⟩, ret⟩
  | succ n ih =>
    rw [Nat.succ_mul, Nat.add_comm] at hlen
    obtain ⟨first, rest, rfl, firstLen, restLen⟩ := exists_append_of_length hlen
    obtain ⟨hfirst, hrest⟩ := undisturbed_append.mp hins
    obtain ⟨hp, lines, rfl, rfl⟩ := h
    have high : ∀ i, first[p.nSettle + 1]? = some i → i.lineIn.getLsbD (senseOf p s.btn).val = true :=
      fun i hi => hfirst.high _ i (List.mem_of_getElem? hi)
    refine (leads_unpressed settle hp lines firstLen hfirst.noReset high).append fun t done => ?_
    obtain ⟨climate, status, released, next, -⟩ := done
    obtain ⟨phase, nextBtn⟩ := next (by omega)
    exact ih ⟨phase, released, climate, status⟩ (by omega) hrest restLen

/-! The refresh, and the cycle put together -/

/-- The start of IDLE with both frame words encoded from the ClimateState. -/
structure CycleEnd (p : Params) (c : ClimateState) (b : Bool) (t : State) : Prop where
  released : Released c b .idle t
  timer : t.timer = p.nGap
  segWord : t.segWord = segWordOf p c
  serWord : t.serWord = serWordOf p c

theorem leads_refresh (times : p.TimesPositive) (width : 1 ≤ p.serWidth) (h : Released c b .encode s)
    (ret : s.ret = .idle) (hins : Undisturbed ins) (hlen : ins.length = 2 + frameTicks p) :
    Leads p ins s (CycleEnd p c b) := by
  obtain ⟨hp, lines, rfl, rfl⟩ := h
  obtain ⟨-, -, -, -, -, clkLow, clkHigh, -, -⟩ := times
  obtain ⟨front, frame, rfl, frontLen, frameLen⟩ := exists_append_of_length hlen
  obtain ⟨first, done, rfl⟩ := List.length_eq_two.mp frontLen
  obtain ⟨-, -, -, -, -, noErr, answered⟩ := hins done (by simp)
  have returned := run_refresh p (waits := []) clkLow clkHigh width hp hins.noReset nofun noErr answered frameLen
  rw [returnFromRefresh_of_idle p (s := frameEnd p s _) ret] at returned
  exact ⟨_, returned, ⟨rfl, lines, rfl, rfl⟩, rfl, rfl, rfl⟩

/-- The eight buttons and the end-of-pass refresh. -/
theorem leads_pass_refresh (times : p.TimesPositive) (width : 1 ≤ p.serWidth) (h : Released c b .scanDrive s)
    (btn : s.btn = 0) (hins : Undisturbed ins) (hlen : ins.length = 8 * (p.nSettle + 3) + (2 + frameTicks p)) :
    Leads p ins s (CycleEnd p c b) := by
  obtain ⟨pass, refresh, rfl, passLen, refreshLen⟩ := exists_append_of_length hlen
  obtain ⟨hpass, hrefresh⟩ := undisturbed_append.mp hins
  have ⟨_, settle, _⟩ := times
  refine (leads_pass 7 settle h (by rw [btn]; rfl) hpass (by omega)).append fun t ⟨ht, ret⟩ => ?_
  exact leads_refresh times width ht ret hrefresh refreshLen

theorem leads_cycle_stage {v : BitVec 8} (times : p.TimesPositive) (width : 1 ≤ p.serWidth)
    (stage : p.tempStageEn = true) (h : Released c b .idle s) (timer : s.timer = p.nGap) (hins : Undisturbed ins)
    (hlen : ins.length = p.nGap + 129 + 8 * (p.nSettle + 3) + 2 + frameTicks p)
    (value : p.thermFn (average (((ins.drop p.nGap).take 128).map (adcReading p)).sum) = some v) :
    Leads p ins s (CycleEnd p { c with ambientTemp := v } b) := by
  have ⟨_, _, _, _, _, _, _, gap, _⟩ := times
  obtain ⟨idle, rest, rfl, idleLen, restLen⟩ := exists_append_of_length (n := p.nGap)
    (m := 128 + (1 + (8 * (p.nSettle + 3) + (2 + frameTicks p)))) (hlen.trans (by omega))
  obtain ⟨readings, rest, rfl, readingsLen, restLen⟩ := exists_append_of_length restLen
  obtain ⟨convert, pass, rfl, convertLen, passLen⟩ := exists_append_of_length restLen
  obtain ⟨i, rfl⟩ := List.length_eq_one_iff.mp convertLen
  obtain ⟨hidle, hins⟩ := undisturbed_append.mp hins
  obtain ⟨hreadings, hins⟩ := undisturbed_append.mp hins
  obtain ⟨hconvert, hpass⟩ := undisturbed_append.mp hins
  rw [List.drop_left' idleLen, List.take_left' readingsLen] at value
  refine (leads_idle_stage stage gap h timer hidle idleLen).append fun t ⟨ht, cnt, acc⟩ => ?_
  refine (leads_readings ht cnt acc hreadings readingsLen).append fun u ⟨hu, sum⟩ => ?_
  refine (leads_convert hu (sum ▸ value) hconvert.noReset.head).append fun w ⟨hw, btn⟩ => ?_
  exact leads_pass_refresh times width hw btn hpass passLen

theorem leads_cycle_noStage (times : p.TimesPositive) (width : 1 ≤ p.serWidth) (noStage : p.tempStageEn = false)
    (h : Released c b .idle s) (timer : s.timer = p.nGap) (hins : Undisturbed ins)
    (hlen : ins.length = p.nGap + 8 * (p.nSettle + 3) + 2 + frameTicks p) :
    Leads p ins s (CycleEnd p c b) := by
  have ⟨_, _, _, _, _, _, _, gap, _⟩ := times
  obtain ⟨idle, rest, rfl, idleLen, restLen⟩ := exists_append_of_length (n := p.nGap)
    (m := 8 * (p.nSettle + 3) + (2 + frameTicks p)) (hlen.trans (by omega))
  obtain ⟨hidle, hrest⟩ := undisturbed_append.mp hins
  refine (leads_idle_scan noStage gap h timer hidle idleLen).append fun t ⟨ht, btn⟩ => ?_
  exact leads_pass_refresh times width ht btn hrest restLen

end

/-- Settles O58: the parts follow one another, and their lengths add up. -/
theorem undisturbedCycle : Obligations.UndisturbedCycle := by
  unfold Obligations.UndisturbedCycle
  refine ⟨fun p s ins v times width stage hp timer lines hins hlen value => ?_,
    fun p s ins times width noStage hp timer lines hins hlen => ?_, ?_⟩
  · obtain ⟨t, ht, ⟨phase, lines', climate, status⟩, timer', seg, ser⟩ :=
      leads_cycle_stage times width stage ⟨hp, lines, rfl, rfl⟩ timer hins hlen value
    exact ⟨t, ht, phase, timer', climate, lines', seg, ser, status⟩
  · obtain ⟨t, ht, ⟨phase, lines', climate, status⟩, timer', seg, ser⟩ :=
      leads_cycle_noStage times width noStage ⟨hp, lines, rfl, rfl⟩ timer hins hlen
    exact ⟨t, ht, phase, timer', climate, lines', seg, ser, status⟩
  · simp only [machine_eq, frameTicks, standard_nGap, standard_nSettle, standard_serWidth, standard_nClkLow,
      standard_nClkHigh]

end Sys2Proof.Machine
end

