-- ==== Sys2Proof/Proofs/AssembledWords.lean ====
section
/-! The words the assembler emits (R72, R73): every command it names is well formed, so its word is legal; only `.word` takes
any word. -/

namespace Sys2Proof.Machine

/-- A word that decodes. -/
def LegalWord (w : Word) : Prop := ∃ i, decode w = .ok i

theorem legalWord_encode {i : Instr} (h : i.WellFormed) : LegalWord (encode i) := ⟨i, decode_encode h⟩

/-- What the arms of a chain of names have, the chain has. -/
theorem forall_of_ite_eq_some {α : Type} {P : α → Prop} {c : Prop} [Decidable c] {a : α} {rest : Option α} (arm : P a)
    (more : ∀ x, rest = some x → P x) : ∀ x, (if c then some a else rest) = some x → P x := by
  intro x h
  split_ifs at h
  · exact Option.some.inj h ▸ arm
  · exact more x h

/-- The commands without an operand, and those of the pseudo-instructions, are legal: each arm of the chain is. -/
theorem plainCommand_wellFormed (name : List Char) : ∀ i, plainCommand name = some i → i.WellFormed := by
  unfold plainCommand
  iterate 12 refine forall_of_ite_eq_some rfl ?_
  exact nofun

/-- A command with an operand is made only of an operand its check admits. -/
theorem legalWord_of_operandIn {legal : Bool} {command : Imm12 → Instr} {v : Int} {w : Word}
    (h : (operandIn legal command v).map encode = some w)
    (wf : legal = true → (command (BitVec.ofInt 12 v)).WellFormed) : LegalWord w := by
  unfold operandIn at h
  split_ifs at h with ok
  · rw [← Option.some.inj h]
    exact legalWord_encode (wf ok)
  · cases h

theorem setfan_operand_wellFormed {v : Int} (h : (v == 0 || v == 50 || v == 100) = true) :
    (Instr.setfan (BitVec.ofInt 12 v)).WellFormed := by
  simp only [Bool.or_eq_true, beq_iff_eq] at h
  obtain (rfl | rfl) | rfl := h <;> rfl

theorem setamb_operand_wellFormed {v : Int} (h : decide (-128 ≤ v ∧ v ≤ 127) = true) :
    (Instr.setamb (BitVec.ofInt 12 v)).WellFormed := by
  rw [decide_eq_true_iff] at h
  have value : (BitVec.ofInt 12 v).toInt = v := by rw [BitVec.toInt_ofInt, Int.bmod_eq_of_le] <;> omega
  rwa [setamb_wellFormed_iff, value]

theorem setunit_operand_wellFormed {v : Int} (h : (v == 0 || v == 1) = true) :
    (Instr.setunit (BitVec.ofInt 12 v)).WellFormed := by
  simp only [Bool.or_eq_true, beq_iff_eq] at h
  obtain rfl | rfl := h <;> rfl

/-- Every word of a mnemonic with an operand is legal, PRESS's too, which is an action word. -/
theorem operandWord_legal {name : List Char} {v : Int} {w : Word} (h : operandWord name v = some w) : LegalWord w := by
  unfold operandWord at h
  split_ifs at h
  · exact legalWord_of_operandIn h setfan_operand_wellFormed
  · exact legalWord_of_operandIn h fun _ => rfl
  · exact legalWord_of_operandIn h fun _ => rfl
  · exact legalWord_of_operandIn h setamb_operand_wellFormed
  · exact legalWord_of_operandIn h setunit_operand_wellFormed
  · rw [← Option.some.inj h]
    exact ⟨_, Button.decode_action _⟩

/-- What a line that is not refused gives: no word, or one, which is legal unless the line begins with `.word`. -/
theorem assembleLine_words {line : List Char} {ws : List Word} (h : assembleLine line = some ws) :
    ws = [] ∨ ∃ w, ws = [w] ∧
      (LegalWord w ∨ (tokensFrom [] (dropComment line)).head? = some ".word".toList) := by
  unfold assembleLine at h
  split at h
  · exact .inl (Option.some.inj h).symm
  · obtain ⟨i, hi, rfl⟩ := Option.map_eq_some_iff.mp h
    exact .inr ⟨_, rfl, .inl (legalWord_encode (plainCommand_wellFormed _ i hi))⟩
  · next name operand tokens =>
    split_ifs at h with literal
    · obtain ⟨w, -, rfl⟩ := Option.map_eq_some_iff.mp h
      exact .inr ⟨w, rfl, .inr (by rw [tokens, literal, List.head?_cons])⟩
    · obtain ⟨w, hw, rfl⟩ := Option.map_eq_some_iff.mp h
      obtain ⟨v, -, hv⟩ := Option.bind_eq_some_iff.mp hw
      exact .inr ⟨w, rfl, .inl (operandWord_legal hv)⟩
  · cases h

/-- Settles O59: the first two clauses are read off `assembleLine_words`, the others are lines that the assembler evaluates. -/
theorem assemblerNeverEmitsIllegalWords : Obligations.AssemblerNeverEmitsIllegalWords := by
  unfold Obligations.AssemblerNeverEmitsIllegalWords
  refine ⟨fun line ws h => ?_, fun line ws w h hw => ?_, by decide, by decide, by decide, by decide, by decide, by decide,
    by decide, by decide, fun b => by cases b <;> decide, by decide, by decide, by decide⟩
  · obtain rfl | ⟨w, rfl, -⟩ := assembleLine_words h
    · exact Nat.zero_le 1
    · exact le_rfl
  · obtain rfl | ⟨w', rfl, legal⟩ := assembleLine_words h
    · cases hw
    · rwa [List.mem_singleton.mp hw]

end Sys2Proof.Machine
end
